-- ==== Sys2Proof/Word.lean ====
section
/-! DEFINITION. The plain data the block computes with (spec/00_scope.md R7, R11; spec/10_state.md R23, R25,
R32, R33): bytes, byte sequences, dictionary entries, Huffman levels and trees, and the constants the source fixes. -/

namespace Sys2Proof

/-- R11: a byte is 8 bits with value 0 to 255; bit 0 is the least significant. -/
abbrev Byte := BitVec 8

/-- R11: a byte sequence, element 0 first. -/
abbrev Bytes := List Byte

/-- One element of the DictionaryTable: a byte sequence, or the content of the sentinel at index 256 in block
mode (R23, R25). `reserved` is not a byte sequence, so no bytes can be read out of it. -/
inductive Entry where
  | bytes (s : Bytes)
  | reserved
  deriving DecidableEq, Repr, Inhabited

/-- R32: the leaf symbol bytes assigned to one depth of the tree, in order. -/
structure Level where
  leaves : Bytes
  deriving DecidableEq, Repr, Inhabited

/-- R33: `Leaf(byte)`, `Leaf(EOF)` and `Internal(left, right)`. -/
inductive Tree where
  | leaf (b : Byte)
  | eof
  | node (l r : Tree)
  deriving DecidableEq, Repr, Inhabited

/-- The node is `Internal` (R33). -/
def Tree.isInternal : Tree → Bool
  | .node _ _ => true
  | .leaf _ => false
  | .eof => false

/-- The number of `LeafEOF` leaves (R33, R169). -/
def Tree.eofCount : Tree → Nat
  | .leaf _ => 0
  | .eof => 1
  | .node l r => l.eofCount + r.eofCount

/-- `t.hasSub n`: `n` is a sub-tree of `t`, the tree itself included (R34). -/
def Tree.hasSub : Tree → Tree → Bool
  | .leaf b, n => n == .leaf b
  | .eof, n => n == .eof
  | .node l r, n => n == .node l r || l.hasSub n || r.hasSub n

/-- R7: `INIT_CODE_LENGTH`. -/
abbrev initCodeLength : Nat := 9

/-- R7: `MAX_CODE_LENGTH_LIMIT`. -/
abbrev maxCodeLengthLimit : Nat := 16

/-- R7: `NUM_SINGLETONS`. -/
abbrev numSingletons : Nat := 256

/-- R7: `CLEAR_CODE`, meaningful only in block mode. -/
abbrev clearCode : Nat := 256

end Sys2Proof
end

