-- ==== Sys2Proof/Config.lean ====
section
/-! DEFINITION. The parameters the source leaves open (spec/00_scope.md R8, spec/92_eei_decisions.md 'Open
parameters'), at their stated defaults, and the FREE VALUES: what an element holds where the spec says that it
holds no value (spec/10_state.md R46; spec/93_implementation_defined.md U16, U17). -/

namespace Sys2Proof.Config

/-- D4: what a group fill of 1 to `code_length - 1` bytes does; the parameter has this one defined value. -/
inductive PartialGroupPolicy where
  | faultAtFill
  deriving DecidableEq, Repr

/-- D8: which reading of section 4.3's count bookkeeping is built. -/
inductive TreeReading where
  | canonical
  | literal
  deriving DecidableEq, Repr, Inhabited

/-- R8: default `fault_at_fill`. -/
def partialGroupPolicy : PartialGroupPolicy := .faultAtFill

/-- R8: default `canonical`, the hardware's behaviour (D8). -/
def treeReading : TreeReading := .canonical

/-- R8, D15: the largest payload length, default none. -/
def payloadMaxLen : Option Nat := none

/-- R8, D16: the largest number of levels, default none. -/
def huffMaxLevels : Option Nat := none

/-- R8, D16: the largest number of leaves of one level, default none. -/
def huffMaxLeavesPerLevel : Option Nat := none

/-- An optional bound is respected; `none` bounds nothing. -/
def within (bound : Option Nat) (n : Nat) : Bool :=
  match bound with
  | none => true
  | some m => decide (n ≤ m)

/-! The free values (notes/assumptions/3.md). The first argument says which element, the second is the engine's
draw counter. They have no body: no proof can see what they are. -/

opaque freeBool (element draw : Nat) : Bool
opaque freeNat (element draw : Nat) : Nat
opaque freeNats (element draw : Nat) : List Nat
opaque freeByte (element draw : Nat) : Byte
opaque freeBytes (element draw : Nat) : Bytes
opaque freeChunk (element draw : Nat) : Option Bytes
opaque freeTable (element draw : Nat) : List Entry
opaque freeTree (element draw : Nat) : Tree

end Sys2Proof.Config
end

