-- ==== Sys2Proof/Syntax.lean ====
section
/-! DEFINITION. The instructions: one constructor of `Instr` for each of the 16 rows of spec/opcode_table.json
(spec/30_encoding.md R85, R88, R90; spec/44_host_operations.md R213), and the items they are decoded from. -/

namespace Sys2Proof

/-- R2: engine L (LZW) and engine H (canonical Huffman). -/
inductive Engine where
  | l
  | h
  deriving DecidableEq, Repr

/-- R44: the host-visible registers. -/
inductive Reg where
  | lCfg
  | lStatus
  | lCodeLength
  | lTableLen
  | hStatus
  deriving DecidableEq, Repr

/-- R90: the slot kinds of a level's slot list: `P`, `L(b)`, `E`. -/
inductive Slot where
  | placeholder
  | leaf (b : Byte)
  | eof
  deriving DecidableEq, Repr

/-- R85: the five classes of LZW codes. `kwk`, `ref` and `bad` keep the code value they were selected by. -/
inductive CodeClass where
  | clr
  | kwk (code : Nat)
  | lit (b : Byte)
  | ref (code : Nat)
  | bad (code : Nat)
  deriving DecidableEq, Repr

/-- R213: a transaction the host issues, with its arguments. The source gives these no encoding (D2). -/
inductive HostOp where
  | lStart (blockMode : Bool) (maxCodeLength : Nat) (payload : Bytes)
  | lStartCodes (blockMode : Bool) (maxCodeLength : Nat) (codes : List Nat)
  | hStart (levels : List Level) (payload : Bytes)
  | pull (e : Engine)
  | decodeAll (e : Engine)
  | statusRead (r : Reg)
  deriving DecidableEq, Repr

/-- The instructions, one constructor per row of spec/opcode_table.json. -/
inductive Instr where
  /-- `CLR`, R133. -/
  | clr
  /-- `KWK`, R135; `code` is the value that equalled the table length. -/
  | kwk (code : Nat)
  /-- `LIT`, R136; `b` is `code[7:0]`. -/
  | lit (b : Byte)
  /-- `REF`, R136; `code` is the table index. -/
  | ref (code : Nat)
  /-- `BAD`, R137; `code` is the value that exceeded the table length. -/
  | bad (code : Nat)
  /-- `L`, R186: one payload bit of value 0. -/
  | left
  /-- `R`, R187: one payload bit of value 1. -/
  | right
  /-- `P`, R166. -/
  | slotPlaceholder
  /-- `L(b)`, R166. -/
  | slotLeaf (b : Byte)
  /-- `E`, R166. -/
  | slotEof
  /-- `L.Start`, R200. -/
  | lStart (blockMode : Bool) (maxCodeLength : Nat) (payload : Bytes)
  /-- `L.StartCodes`, R207. -/
  | lStartCodes (blockMode : Bool) (maxCodeLength : Nat) (codes : List Nat)
  /-- `H.Start`, R203. -/
  | hStart (levels : List Level) (payload : Bytes)
  /-- `Pull`, R202. -/
  | pull (e : Engine)
  /-- `DecodeAll`, R204. -/
  | decodeAll (e : Engine)
  /-- `StatusRead`, R209. -/
  | statusRead (r : Reg)
  deriving DecidableEq, Repr

/-- What the block decodes one at a time (spec/30_encoding.md, opening): an LZW code, a Huffman payload bit, a
builder slot, or a host transaction. -/
inductive Item where
  | code (c : Nat)
  | bit (b : Bool)
  | slot (k : Slot)
  | op (o : HostOp)
  deriving DecidableEq, Repr

/-- The formats of spec/opcode_table.json. -/
inductive Format where
  | lzwCode
  | hufBit
  | builderSlot
  | hostOp
  deriving DecidableEq, Repr

/-- The format the table gives each row. -/
def Instr.format : Instr → Format
  | .clr | .kwk _ | .lit _ | .ref _ | .bad _ => .lzwCode
  | .left | .right => .hufBit
  | .slotPlaceholder | .slotLeaf _ | .slotEof => .builderSlot
  | .lStart .. | .lStartCodes .. | .hStart .. | .pull _ | .decodeAll _ | .statusRead _ => .hostOp

def Item.format : Item → Format
  | .code _ => .lzwCode
  | .bit _ => .hufBit
  | .slot _ => .builderSlot
  | .op _ => .hostOp

end Sys2Proof
end

