-- ==== Sys2Proof/WellFormed.lean ====
section
/-! DEFINITION. Well-formed instructions: the ranges the spec gives the operands, whatever the state
(spec/30_encoding.md R82, R85; spec/20_memory.md R54). Which class a code has in a given state is Decode.lean's
`classify`. Host transactions take any argument: a `max_code_length` outside 9 to 16 is a legal transaction that
faults (spec/44_host_operations.md R200). -/

namespace Sys2Proof

/-- R54, R150: the table length is 256 to 65535. So a `KWK` code is 256 to 65535, a `REF` code 256 to 65534, and
a `BAD` code exceeds 256 (with no upper limit through the test seam, R207). -/
def Instr.wf : Instr → Bool
  | .kwk c => decide (256 ≤ c ∧ c ≤ 65535)
  | .ref c => decide (256 ≤ c ∧ c ≤ 65534)
  | .bad c => decide (256 < c)
  | .clr | .lit _ | .left | .right | .slotPlaceholder | .slotLeaf _ | .slotEof => true
  | .lStart .. | .lStartCodes .. | .hStart .. | .pull _ | .decodeAll _ | .statusRead _ => true

/-- The condition column of R85: in which context (block mode, table length) a code has this class. Always true
of an instruction that is not an LZW code. -/
def Instr.selectedIn (blockMode : Bool) (tableLen : Nat) : Instr → Bool
  | .clr => blockMode
  | .kwk c => decide (c = tableLen) && !(blockMode && c == clearCode)
  | .lit b => decide (b.toNat < tableLen)
  | .ref c => decide (256 ≤ c ∧ c < tableLen) && !(blockMode && c == clearCode)
  | .bad c => decide (tableLen < c) && !(blockMode && c == clearCode)
  | .left | .right | .slotPlaceholder | .slotLeaf _ | .slotEof => true
  | .lStart .. | .lStartCodes .. | .hStart .. | .pull _ | .decodeAll _ | .statusRead _ => true

end Sys2Proof
end

