-- ==== Sys2Proof/Decode.lean ====
section
/-! DEFINITION. Decoding and encoding (spec/30_encoding.md): where a code stands in a group, which class a code
has, which child a payload bit selects, and the words of spec/opcode_table.json; after it the encoder. -/

namespace Sys2Proof

/-! ### Bits -/

/-- R81: `bit(n)` of a group, byte 0 first and bit 0 of a byte first. -/
def groupBit (g : Bytes) (n : Nat) : Nat :=
  (g.getD (n / 8) 0).toNat / 2 ^ (n % 8) % 2

/-- R81: `code_j`, the code at position `j` of a group of width `w`, as the sum over its bits. -/
def codeAt (g : Bytes) (w j : Nat) : Nat :=
  ((List.range w).map fun i => groupBit g (j * w + i) * 2 ^ i).sum

/-- R59: the group read as one little-endian integer `G`. -/
def groupValue : Bytes → Nat
  | [] => 0
  | b :: rest => b.toNat + 256 * groupValue rest

/-- R181: bit `n` of a byte, most significant bit being 7. -/
def byteBit (b : Byte) (n : Nat) : Bool :=
  decide (b.toNat / 2 ^ n % 2 = 1)

/-! ### Decoding -/

/-- Why an item or a word is rejected. -/
inductive DecodeError where
  /-- The word is neither a `HUF-BIT` (1 byte) nor an `LZW-CODE` (2 bytes); safe. -/
  | noSuchWidth
  /-- A `HUF-BIT` word holds something above its one bit; safe. -/
  | bitsAboveField
  deriving DecidableEq, Repr

/-- R85: the class of a code, tested in the table's order. Total: every code has exactly one class. -/
def classify (blockMode : Bool) (tableLen code : Nat) : CodeClass :=
  if blockMode = true ∧ code = clearCode then .clr
  else if code = tableLen then .kwk code
  else if code < tableLen then
    if code ≤ 255 then .lit (BitVec.ofNat 8 code) else .ref code
  else .bad code

/-- The instruction of a code class. -/
def CodeClass.instr : CodeClass → Instr
  | .clr => .clr
  | .kwk c => .kwk c
  | .lit b => .lit b
  | .ref c => .ref c
  | .bad c => .bad c

/-- R85: the instruction of a code. -/
def decodeCode (blockMode : Bool) (tableLen code : Nat) : Instr :=
  (classify blockMode tableLen code).instr

/-- R88: bit value 0 is `L`, bit value 1 is `R`. -/
def decodeBit (b : Bool) : Instr :=
  if b then .right else .left

/-- R90: the instruction of a slot. -/
def decodeSlot : Slot → Instr
  | .placeholder => .slotPlaceholder
  | .leaf b => .slotLeaf b
  | .eof => .slotEof

/-- R213: the instruction of a host transaction. -/
def decodeOp : HostOp → Instr
  | .lStart bm m p => .lStart bm m p
  | .lStartCodes bm m cs => .lStartCodes bm m cs
  | .hStart lv p => .hStart lv p
  | .pull e => .pull e
  | .decodeAll e => .decodeAll e
  | .statusRead r => .statusRead r

/-- The instruction of any item, in the context of engine L's block mode and table length. -/
def decodeItem (blockMode : Bool) (tableLen : Nat) : Item → Instr
  | .code c => decodeCode blockMode tableLen c
  | .bit b => decodeBit b
  | .slot k => decodeSlot k
  | .op o => decodeOp o

/-! ### Words of the opcode table
The context in which `decodeTableWord` and `State.withFetchWord` read a code: the state of engine L after
`L.StartCodes(true, 16, [65, 66])` and two pulls, so that every class has a word (notes/assumptions/2.md). -/

/-- R44: that context's block mode. -/
def wordBlockMode : Bool := true

/-- R144: that context's table length: 257 entries after initialisation and one appended by the second code. -/
def wordTableLen : Nat := 258

/-- The item a word of the table holds: one byte holds a `HUF-BIT` in its bit 0 (R88), two bytes, the less
significant first (R62, R81), hold `zext_16(code)` of an `LZW-CODE` (R85). Rejects any other number of bytes. -/
def wordItem : Bytes → Except DecodeError Item
  | [b] => if b.toNat ≤ 1 then .ok (.bit (byteBit b 0)) else .error .bitsAboveField
  | [lo, hi] => .ok (.code (lo.toNat + 256 * hi.toNat))
  | _ => .error .noSuchWidth

/-- The bytes of a word, the least significant first. -/
def wordBytes (n w : Nat) : Bytes :=
  (List.range n).map fun k => BitVec.ofNat 8 (w / 2 ^ (8 * k))

/-- The decoder on the bytes of a word: total, rejecting by name. -/
def decodeWord (bytes : Bytes) : Except DecodeError Instr :=
  (wordItem bytes).map (decodeItem wordBlockMode wordTableLen)

/-- The instruction the decoder reads from a word of spec/opcode_table.json. -/
def decodeTableWord (nbits w : Nat) : Option Instr :=
  match decodeWord (wordBytes ((nbits + 7) / 8) w) with
  | .ok i => some i
  | .error _ => none

/-! ### Encoding -/

/-- The item of an instruction, from the same tables: R85 for a code, R88 for a bit, R90 for a slot, R213 for a
host transaction. -/
def encode : Instr → Item
  | .clr => .code clearCode
  | .kwk c => .code c
  | .lit b => .code b.toNat
  | .ref c => .code c
  | .bad c => .code c
  | .left => .bit false
  | .right => .bit true
  | .slotPlaceholder => .slot .placeholder
  | .slotLeaf b => .slot (.leaf b)
  | .slotEof => .slot .eof
  | .lStart bm m p => .op (.lStart bm m p)
  | .lStartCodes bm m cs => .op (.lStartCodes bm m cs)
  | .hStart lv p => .op (.hStart lv p)
  | .pull e => .op (.pull e)
  | .decodeAll e => .op (.decodeAll e)
  | .statusRead r => .op (.statusRead r)

/-- The word of an instruction that the table gives bits: 16 for a code below 2^16, 1 for a Huffman bit. -/
def encodeWord (i : Instr) : Option Bytes :=
  match encode i with
  | .code c => if c < 65536 then some (wordBytes 2 c) else none
  | .bit b => some [if b then 1 else 0]
  | .slot _ => none
  | .op _ => none

/-- R59, R92: the integer `G` of a group of width `w` with these codes, code position 0 least significant. -/
def packValue (w : Nat) : List Nat → Nat
  | [] => 0
  | c :: rest => c + 2 ^ w * packValue w rest

/-- R92 `GROUP w: c0 ... c7`: the `w` bytes of a packed group. -/
def packGroup (w : Nat) (codes : List Nat) : Bytes :=
  wordBytes w (packValue w codes)

/-- R92: a string of payload bits packed eight to a byte, the first into bit 7; a last short byte is filled with 0. -/
def packBits : List Bool → Bytes
  | b7 :: b6 :: b5 :: b4 :: b3 :: b2 :: b1 :: b0 :: rest =>
    BitVec.ofNat 8 (b7.toNat * 128 + b6.toNat * 64 + b5.toNat * 32 + b4.toNat * 16 + b3.toNat * 8
      + b2.toNat * 4 + b1.toNat * 2 + b0.toNat) :: packBits rest
  | [] => []
  | bits => [BitVec.ofNat 8 ((bits.zipIdx.map fun p => p.1.toNat * 2 ^ (7 - p.2)).sum)]

end Sys2Proof
end

