-- ==== Sys2Proof/Machine/State.lean ====
section
/-! DEFINITION. The state (spec/10_state.md R20 to R37), as plain data: engine L, engine H, the agenda of
what the outside does next, the operation in progress, and the reply to the host. Also the reasons a step can stop, and `State.reset`. -/

namespace Sys2Proof.Machine

/-- R220: the two error kinds. -/
inductive ErrKind where
  | formatError
  | unexpectedEndOfStream
  deriving DecidableEq, Repr

/-- R221: the seven causes. -/
inductive Cause where
  | kwkwkNoPrior
  | codeOutOfRange
  | treeLevelsMalformed
  | sizeBound
  | configRange
  | truncatedGroup
  | truncatedTraversal
  deriving DecidableEq, Repr

/-- R30: `err`, a pair (kind, cause). -/
structure Error where
  kind : ErrKind
  cause : Cause
  deriving DecidableEq, Repr

/-- R30: the status of an engine. -/
inductive Status where
  | idle
  | run
  | done
  | fault
  deriving DecidableEq, Repr

/-- R30, R36: the status and the error of one engine. -/
structure Control where
  status : Status
  err : Option Error
  deriving DecidableEq, Repr

/-- Engine L (R20 to R31, R207). -/
structure EngineL where
  /-- R30: `L.status`, `L.err`. -/
  ctl : Control
  /-- R20. -/
  blockMode : Bool
  /-- R21. -/
  maxCodeLength : Nat
  /-- R22. -/
  codeLength : Nat
  /-- R23. -/
  table : List Entry
  /-- R26. -/
  lastChunk : Option Bytes
  /-- R28: a group is buffered and not discarded. -/
  gvalid : Bool
  /-- R28: the bytes of the group. -/
  group : Bytes
  /-- R28: the number of bits of the group already consumed. -/
  gpos : Nat
  /-- R29. -/
  payload : Bytes
  /-- R29: the number of payload bytes already removed by group fills. -/
  pcur : Nat
  /-- R31: the chunks emitted, oldest first. -/
  out : List Bytes
  /-- R207, R120: the instance was made by `L.StartCodes`; the BitGroupReader is bypassed. -/
  seam : Bool
  /-- R207: the supplied sequence of codes. -/
  codes : List Nat
  /-- R120: the number of its elements already taken. -/
  ccur : Nat
  /-- The model's own: how many times this engine has drawn free values (notes/assumptions/3.md). -/
  draws : Nat
  deriving DecidableEq, Repr

/-- A node on the builder's stack: an open internal node (R165). Its next child comes from the slot list `level`;
`left` is its first child once that is complete. -/
structure OpenNode where
  level : Nat
  left : Option Tree
  deriving DecidableEq, Repr

/-- R37: the builder's working state. -/
structure Builder where
  /-- D8: which reading is being built. -/
  reading : Config.TreeReading
  /-- R37, R161: `nonleaf_count`, signed. -/
  count : Int
  /-- R163, R164: the slot lists (for the literal reading, R175, the one stream). -/
  slots : List (List Slot)
  /-- R165: the read position of each list. -/
  cur : List Nat
  /-- R165: the stack of open nodes, top first. -/
  stack : List OpenNode
  /-- R165: the root, once the stack is empty. -/
  built : Option Tree
  deriving DecidableEq, Repr

/-- Engine H (R32 to R37). -/
structure EngineH where
  /-- R36: `H.status`, `H.err`. -/
  ctl : Control
  /-- R32. -/
  levels : List Level
  /-- R33. -/
  tree : Tree
  /-- R34. -/
  node : Tree
  /-- R35: the payload byte being consumed. -/
  cur : Byte
  /-- R35: the number of its bits not yet consumed. -/
  bleft : Nat
  /-- R32, R29. -/
  payload : Bytes
  /-- R32, R29. -/
  pcur : Nat
  /-- R36: the bytes emitted, oldest first. -/
  out : Bytes
  /-- R37. -/
  builder : Builder
  /-- The model's own: how many times this engine has drawn free values (notes/assumptions/3.md). -/
  draws : Nat
  deriving DecidableEq, Repr

/-- R44: a register as read, each with the bits the spec gives it. -/
inductive RegValue where
  | lCfg (v : BitVec 6)
  | lStatus (v : BitVec 8)
  | lCodeLength (v : BitVec 5)
  | lTableLen (v : BitVec 16)
  | hStatus (v : BitVec 8)
  deriving DecidableEq, Repr

/-- What the last operation answered the host (R13, R202, R204, R205, R209, R213). A `Silent` step answers nothing
(R202: it is never shown to the host). -/
inductive Reply where
  /-- Nothing answered yet. -/
  | none
  /-- A `Start` succeeded; R213 gives it no result. -/
  | started
  /-- `Emitted(chunk)` of engine L. -/
  | chunk (s : Bytes)
  /-- `Emitted(byte)` of engine H. -/
  | byte (b : Byte)
  /-- `End`. -/
  | ended
  /-- `Fault(E.err)`. -/
  | fault (e : Option Error)
  /-- `Ok(buf)` of `DecodeAll`. -/
  | ok (buf : Bytes)
  /-- `Error(kind, cause)` of `DecodeAll`. -/
  | error (e : Option Error)
  /-- The operation is refused: no state changes and no exception is raised (R205). -/
  | refused
  /-- The value of a register (R209). -/
  | value (v : RegValue)
  deriving DecidableEq, Repr

/-- A host operation that the machine carries out one decoded thing at a time (notes/assumptions/1.md). -/
inductive Task where
  /-- `Pull` of an engine (R202): each step of the machine is one step of the engine. -/
  | pull (e : Engine)
  /-- `H.Start` with these arguments (R203): each step of the machine attaches one slot (R165). -/
  | build (levels : List Level) (payload : Bytes)
  deriving DecidableEq, Repr

/-- What the outside does next (R9): the host issues an operation, or the block is reset. -/
inductive Turn where
  /-- The host issues a transaction, and it is one transition (R265). -/
  | host (op : HostOp)
  /-- The host issues a pull or an `H.Start`, and it is a run of steps that nothing comes between (R265, R211). -/
  | stepwise (t : Task)
  /-- Hardware reset is applied (R250). -/
  | hardReset
  deriving DecidableEq, Repr

/-- The whole block. -/
structure State where
  l : EngineL
  h : EngineH
  /-- The model's own: the moves still to come, first first; the outside world's input
  (notes/assumptions/1.md). -/
  agenda : List Turn
  /-- The model's own: the host operation in progress, which goes on before anything else happens (R265). -/
  task : Option Task
  /-- The answer to the last operation. -/
  reply : Reply
  deriving DecidableEq, Repr

/-- Reasons the machine stops. Each is raised only in states that no run reaches (spec/10_state.md R24, R26, R34);
the spec gives those states no behaviour. -/
inductive Fault where
  /-- Raised by an LZW code whose chunk, or previous chunk, is empty, so that its first byte does not exist (R149:
  it always does); safe. -/
  | emptyChunk
  /-- Raised by `L` and `R` when the traversal does not stand at an `Internal` node (R182 requires one); safe. -/
  | nodeNotInternal
  /-- Raised by `Pull` and `DecodeAll` when their loop would never end, a code length of 0 being the one way
  (R202: "The loop ends"); safe. -/
  | loopNeverEnds
  deriving DecidableEq, Repr

/-- Reasons the machine has no meaning for an instruction in a state. -/
inductive Refusal where
  /-- Raised by an arm of `exec` whose instruction has no meaning yet; safe. -/
  | notModelled (mnemonic : String)
  /-- Raised by an LZW code or a Huffman bit executed while its engine's status is not `RUN` (R132 and R182 give
  that as the precondition of a step; R225: "No step runs in `FAULT`"); safe. -/
  | engineNotRunning
  /-- Raised by `REF` with an index outside the table (R55: `TableRead` requires `i < TL`; such a code is no `REF`,
  R85); safe. -/
  | noSuchEntry
  /-- Raised by `REF` with the index of the sentinel (spec/93_implementation_defined.md U5: "A model operation that
  would read it must `refuse`"); safe. -/
  | reservedEntry
  /-- Raised by `P`, `L(b)` and `E` when no node is open to attach to (R166); safe. -/
  | noOpenNode
  deriving DecidableEq, Repr

/-- The builder outside `H.Start` (R37: its state exists only inside it). -/
def Builder.unused : Builder :=
  { reading := .canonical, count := 0, slots := [], cur := [], stack := [], built := none }

/-- R250: status `IDLE`, no error. -/
def Control.reset : Control := { status := .idle, err := none }

/-- R251: after hardware reset every element but the status and the error is unspecified; the values below are
named in notes/assumptions/4.md. -/
def EngineL.reset : EngineL :=
  { ctl := Control.reset, blockMode := false, maxCodeLength := 0, codeLength := 0, table := [], lastChunk := none
    gvalid := false, group := [], gpos := 0, payload := [], pcur := 0, out := []
    seam := false, codes := [], ccur := 0, draws := 0 }

/-- R251, as `EngineL.reset`. -/
def EngineH.reset : EngineH :=
  { ctl := Control.reset, levels := [], tree := .eof, node := .eof, cur := 0, bleft := 0, payload := [], pcur := 0
    out := [], builder := Builder.unused, draws := 0 }

/-- The machine right after hardware reset, with nothing for the host to do (R250, R251). -/
def State.reset : State :=
  { l := EngineL.reset, h := EngineH.reset, agenda := [], task := none, reply := .none }

end Sys2Proof.Machine
end

