-- ==== Sys2Proof/Machine/Ops.lean ====
section
/-! DEFINITION. The named operations over the storage spaces and the registers (spec/00_scope.md R12;
spec/20_memory.md R50 to R58): `PayloadRead`, `TableRead`, `TableAppend`, `Emit`, the initialisation of the
DecoderState, raising an exception, the only ways out of it, and the views of the status registers. -/

namespace Sys2Proof.Machine

/-! ### Writing a part of the state -/

/-- Replace engine L. -/
def State.setL (s : State) (l : EngineL) : State := { s with l := l }

/-- Replace engine H. -/
def State.setH (s : State) (h : EngineH) : State := { s with h := h }

/-- Answer the host. -/
def State.setReply (s : State) (r : Reply) : State := { s with reply := r }

/-- Replace the moves to come. -/
def State.setAgenda (s : State) (a : List Turn) : State := { s with agenda := a }

/-- Begin a host operation, or end the one in progress. -/
def State.setTask (s : State) (t : Option Task) : State := { s with task := t }

/-- R202: the end of an engine's step. With a reply the pull is complete; a `Silent` step has none, and the pull goes on
with the engine's next step. -/
def State.settle (s : State) (e : Engine) : Option Reply → State
  | some r => s.setReply r
  | none => s.setTask (some (.pull e))

/-! ### Exceptions (spec/60_exceptions.md) -/

/-- R224, R230: raising. `err` records the kind and the cause, the status becomes `FAULT`; nothing else exists to
save or to change. Shared by both engines. -/
def Control.raise (_c : Control) (k : ErrKind) (cause : Cause) : Control :=
  { status := .fault, err := some { kind := k, cause := cause } }

/-- R231: there is no return from a fault. A `Start` makes a new instance (R200, R203), with no error. -/
def Control.start (_c : Control) : Control := { status := .run, err := none }

/-- R142, R184: the normal end of a sequence. -/
def Control.finish (c : Control) : Control := { c with status := .done }

/-- R224 on engine L. -/
def EngineL.raise (l : EngineL) (k : ErrKind) (cause : Cause) : EngineL :=
  { l with ctl := l.ctl.raise k cause }

/-- R224 on engine H. -/
def EngineH.raise (h : EngineH) (k : ErrKind) (cause : Cause) : EngineH :=
  { h with ctl := h.ctl.raise k cause }

/-- R142. -/
def EngineL.finish (l : EngineL) : EngineL := { l with ctl := l.ctl.finish }

/-- R184. -/
def EngineH.finish (h : EngineH) : EngineH := { h with ctl := h.ctl.finish }

/-- R221: the kind of each cause. -/
def Cause.kind : Cause → ErrKind
  | .kwkwkNoPrior | .codeOutOfRange | .treeLevelsMalformed | .sizeBound | .configRange => .formatError
  | .truncatedGroup | .truncatedTraversal => .unexpectedEndOfStream

/-- R221: the engine that raises each cause. -/
def Cause.engine : Cause → Engine
  | .kwkwkNoPrior | .codeOutOfRange | .configRange | .truncatedGroup => .l
  | .treeLevelsMalformed | .sizeBound | .truncatedTraversal => .h

/-- R221: the number of each cause. -/
def Cause.number : Cause → Nat
  | .kwkwkNoPrior => 1
  | .codeOutOfRange => 2
  | .treeLevelsMalformed => 3
  | .sizeBound => 4
  | .configRange => 5
  | .truncatedGroup => 6
  | .truncatedTraversal => 7

/-- R221: the number of each kind. -/
def ErrKind.number : ErrKind → Nat
  | .formatError => 1
  | .unexpectedEndOfStream => 2

/-- R44: the number of each status. -/
def Status.number : Status → Nat
  | .idle => 0
  | .run => 1
  | .done => 2
  | .fault => 3

/-! ### Status registers (spec/10_state.md R44) -/

/-- R44: `STATE` in bits 1:0, `KIND` in bits 3:2, `CAUSE` in bits 7:4; `KIND` and `CAUSE` are 0 without an error. -/
def Control.view (c : Control) : BitVec 8 :=
  let kind := match c.err with
    | some e => e.kind.number
    | none => 0
  let cause := match c.err with
    | some e => e.cause.number
    | none => 0
  BitVec.ofNat 4 cause ++ BitVec.ofNat 2 kind ++ BitVec.ofNat 2 c.status.number

/-- R44: `BLOCK_MODE` in bit 0, `MAX_CODE_LENGTH` in bits 5:1. -/
def EngineL.cfgView (l : EngineL) : BitVec 6 :=
  BitVec.ofNat 5 l.maxCodeLength ++ BitVec.ofBool l.blockMode

/-- R44, R209: the fields of a register. -/
def State.readReg (s : State) : Reg → RegValue
  | .lCfg => .lCfg s.l.cfgView
  | .lStatus => .lStatus s.l.ctl.view
  | .lCodeLength => .lCodeLength (BitVec.ofNat 5 s.l.codeLength)
  | .lTableLen => .lTableLen (BitVec.ofNat 16 s.l.table.length)
  | .hStatus => .hStatus s.h.ctl.view

/-! ### The payload spaces (spec/20_memory.md R52) -/

/-- R52: the next `min(n, remaining)` bytes of a payload from cursor `pcur`. -/
def payloadSlice (payload : Bytes) (pcur n : Nat) : Bytes := (payload.drop pcur).take n

/-- R52: `PayloadRead(L, n)`. -/
def EngineL.payloadRead (l : EngineL) (n : Nat) : EngineL × Bytes :=
  ({ l with pcur := l.pcur + (payloadSlice l.payload l.pcur n).length }, payloadSlice l.payload l.pcur n)

/-- R52: `PayloadRead(H, n)`. -/
def EngineH.payloadRead (h : EngineH) (n : Nat) : EngineH × Bytes :=
  ({ h with pcur := h.pcur + (payloadSlice h.payload h.pcur n).length }, payloadSlice h.payload h.pcur n)

/-! ### The DictionaryTable (spec/20_memory.md R54, R55) -/

/-- R55: `TableRead(i)`; refused where its requirements do not hold. -/
def EngineL.tableRead (l : EngineL) (i : Nat) : Except Refusal Bytes :=
  match l.table[i]? with
  | some (.bytes s) => .ok s
  | some .reserved => .error .reservedEntry
  | none => .error .noSuchEntry

/-- R55: `TableAppend(s)`. -/
def EngineL.tableAppend (l : EngineL) (s : Bytes) : EngineL :=
  { l with table := l.table ++ [.bytes s] }

/-- R131: the 256 singleton entries, index `i` holding `[i]`. -/
def singletons : List Entry :=
  (List.range numSingletons).map fun i => .bytes [BitVec.ofNat 8 i]

/-- R131: the table after an initialisation. -/
def initialTable (blockMode : Bool) : List Entry :=
  if blockMode then singletons ++ [.reserved] else singletons

/-- R131: `LzwInit()`, which writes exactly the DecoderState (R27). -/
def EngineL.lzwInit (l : EngineL) : EngineL :=
  { l with codeLength := initCodeLength, table := initialTable l.blockMode, lastChunk := none }

/-! ### The output streams (spec/20_memory.md R58) -/

/-- R58: `Emit(L, s)`. -/
def EngineL.emit (l : EngineL) (s : Bytes) : EngineL := { l with out := l.out ++ [s] }

/-- R58: `Emit(H, b)`. -/
def EngineH.emit (h : EngineH) (b : Byte) : EngineH := { h with out := h.out ++ [b] }

/-! ### Elements that hold no value (notes/assumptions/3.md) -/

/-- R46, U17: engine L after a `Start` that faults. The status and the error are definite, nothing has been emitted,
and every other element is a free value. -/
def EngineL.lost (l : EngineL) : EngineL :=
  { ctl := l.ctl
    blockMode := Config.freeBool 0 l.draws, maxCodeLength := Config.freeNat 0 l.draws
    codeLength := Config.freeNat 1 l.draws, table := Config.freeTable 0 l.draws
    lastChunk := Config.freeChunk 0 l.draws, gvalid := Config.freeBool 1 l.draws
    group := Config.freeBytes 0 l.draws, gpos := Config.freeNat 2 l.draws
    payload := Config.freeBytes 1 l.draws, pcur := Config.freeNat 3 l.draws
    out := []
    seam := Config.freeBool 2 l.draws, codes := Config.freeNats 0 l.draws, ccur := Config.freeNat 4 l.draws
    draws := l.draws + 1 }

/-- R203, R46, U17: engine H after a `Start` that faults. The status, the error and the level table are written,
nothing has been emitted, and every other element is a free value. -/
def EngineH.lost (h : EngineH) : EngineH :=
  { ctl := h.ctl, levels := h.levels
    tree := Config.freeTree 0 h.draws, node := Config.freeTree 1 h.draws
    cur := Config.freeByte 0 h.draws, bleft := Config.freeNat 5 h.draws
    payload := Config.freeBytes 2 h.draws, pcur := Config.freeNat 6 h.draws
    out := []
    builder := Builder.unused
    draws := h.draws + 1 }

/-! ### Hardware reset (spec/70_reset_and_hazards.md R250) -/

/-- R250: hardware reset, in any status: both engines as after power-on, but for the counters of free values, which only
go forward, and no operation in progress. What the outside world will do next is no part of the block, and the answer
register keeps what it held. -/
def State.hardReset (s : State) : State :=
  { s with
    l := { EngineL.reset with draws := s.l.draws }
    h := { EngineH.reset with draws := s.h.draws }
    task := none }

end Sys2Proof.Machine
end

