-- ==== Sys2Proof/Machine/Flags.lean ====
section
/-! DEFINITION. The conditions that steer a step (spec/10_state.md R39). The block has no arithmetic condition
codes; these tests are all there is. -/

namespace Sys2Proof.Machine

/-- R30, R36: the engine has an instance that can step. -/
def Control.isRunning (c : Control) : Bool := c.status == .run

/-- R111: nothing is buffered, or all the bits of the group are used. (A position beyond the end, which R28
excludes, counts as used up.) -/
def EngineL.needsFill (l : EngineL) : Bool := !l.gvalid || decide (8 * l.group.length ≤ l.gpos)

/-- R139: the table is shorter than its bound `2^max_code_length - 1`. -/
def EngineL.tableHasRoom (l : EngineL) : Bool := decide (l.table.length < 2 ^ l.maxCodeLength - 1)

/-- R140: the table has reached `2^code_length` and the code length may still grow (D5). -/
def EngineL.mustGrow (l : EngineL) : Bool :=
  decide (2 ^ l.codeLength ≤ l.table.length) && decide (l.codeLength < l.maxCodeLength)

/-- R200, D7: a `max_code_length` that `L.Start` accepts. -/
def maxCodeLengthLegal (m : Nat) : Bool := decide (initCodeLength ≤ m) && decide (m ≤ maxCodeLengthLimit)

/-- D15: a payload that `Start` accepts. -/
def payloadFits (payload : Bytes) : Bool := Config.within Config.payloadMaxLen payload.length

/-- R173, D16: a level table within the size bounds. -/
def levelsFit (maxLevels maxLeaves : Option Nat) (levels : List Level) : Bool :=
  Config.within maxLevels levels.length && levels.all fun lv => Config.within maxLeaves lv.leaves.length

end Sys2Proof.Machine
end

