-- ==== Sys2Proof/Machine/Operands.lean ====
section
/-! DEFINITION. The operands of the instructions (spec/30_encoding.md R91): the chunk a code stands for, and the
children a Huffman bit chooses between. -/

namespace Sys2Proof.Machine

/-- R136, R91: `LIT`: the one byte `code[7:0]`. -/
def litChunk (b : Byte) : Bytes := [b]

/-- R135: `KWK`: the previous chunk followed by its own first byte. -/
def kwkChunk (p : Bytes) : Except Fault Bytes :=
  match p with
  | [] => .error .emptyChunk
  | b :: _ => .ok (p ++ [b])

/-- R139: the entry an emitting step appends: the previous chunk extended by the first byte of the present one. -/
def appendedEntry (p : Bytes) (b : Byte) : Bytes := p ++ [b]

/-- R182, R186, R187: the child of a node that a bit selects, 0 left and 1 right. -/
def childOf (node : Tree) (bit : Bool) : Except Fault Tree :=
  match node with
  | .node l r => .ok (if bit then r else l)
  | .leaf _ => .error .nodeNotInternal
  | .eof => .error .nodeNotInternal

end Sys2Proof.Machine
end

