-- ==== Sys2Proof/Machine/Reader.lean ====
section
/-! DEFINITION. The two bit readers: the BitGroupReader of engine L (spec/40_bitgroupreader.md) and the bit reader of
engine H (spec/43_huffman_decoder.md R181). -/

namespace Sys2Proof.Machine

/-- R112: the result of a group fill. -/
inductive FillResult where
  | filled
  | exhausted
  | truncated
  deriving DecidableEq, Repr

/-- R111: the result of a single-bit read of engine L. -/
inductive BitResult where
  | bit (b : Nat)
  | exhausted
  | truncated
  deriving DecidableEq, Repr

/-- R110: the result of `next_code()`. -/
inductive CodeResult where
  | code (c : Nat)
  | exhausted
  | truncated
  deriving DecidableEq, Repr

/-- R114, D4: what a short fill leaves: the bytes read are consumed and no group is buffered. -/
def EngineL.shortFill (l : EngineL) : Config.PartialGroupPolicy → EngineL
  | .faultAtFill => { l with gvalid := false }

/-- R112: `FillGroup()`. -/
def EngineL.fillGroup (l : EngineL) : EngineL × FillResult :=
  if (l.payloadRead l.codeLength).2.length = 0 then (l, .exhausted)
  else if (l.payloadRead l.codeLength).2.length < l.codeLength then
    ((l.payloadRead l.codeLength).1.shortFill Config.partialGroupPolicy, .truncated)
  else
    ({ (l.payloadRead l.codeLength).1 with
        group := (l.payloadRead l.codeLength).2, gpos := 0, gvalid := true }, .filled)

/-- R111: take the next bit of the buffered group. -/
def EngineL.takeBit (l : EngineL) : EngineL × BitResult :=
  ({ l with gpos := l.gpos + 1 }, .bit (groupBit l.group l.gpos))

/-- R111: `ReadBit()`. -/
def EngineL.readBit (l : EngineL) : EngineL × BitResult :=
  if l.needsFill then
    match l.fillGroup with
    | (l', .filled) => l'.takeBit
    | (l', .exhausted) => (l', .exhausted)
    | (l', .truncated) => (l', .truncated)
  else l.takeBit

/-- R115: the loop of `next_code()`: bits `i` to `i + n - 1` of the code, `c` being what the earlier bits gave. -/
def EngineL.readBits (l : EngineL) (i c : Nat) : Nat → EngineL × CodeResult
  | 0 => (l, .code c)
  | n + 1 =>
    match l.readBit with
    | (l', .bit b) => l'.readBits (i + 1) (c + b * 2 ^ i) n
    | (l', .exhausted) => (l', .exhausted)
    | (l', .truncated) => (l', .truncated)

/-- R120: `next_code()` of the test seam. -/
def EngineL.nextSeamCode (l : EngineL) : EngineL × CodeResult :=
  match l.codes[l.ccur]? with
  | some c => ({ l with ccur := l.ccur + 1 }, .code c)
  | none => (l, .exhausted)

/-- R115, R120: `next_code()`; the width is `L.code_length` at the start of the call. (The bits are disjoint, so the
source's OR is a sum, R150.) -/
def EngineL.nextCode (l : EngineL) : EngineL × CodeResult :=
  if l.seam then l.nextSeamCode else l.readBits 0 0 l.codeLength

/-- R116, R120: `discard_current_group()`; it does nothing in the test seam. -/
def EngineL.discardGroup (l : EngineL) : EngineL :=
  if l.seam then l else { l with gvalid := false }

/-- R181: fetch the next payload byte if the present one is used up; `none` when the payload has ended. -/
def EngineH.fetchByte (h : EngineH) : Option EngineH :=
  if h.bleft = 0 then
    match h.payloadRead 1 with
    | (h', b :: _) => some { h' with cur := b, bleft := 8 }
    | (_, []) => none
  else some h

/-- R181: `HufReadBit()`; `none` is `Exhausted`, which changes no state. -/
def EngineH.readBit (h : EngineH) : Option (EngineH × Bool) :=
  match h.fetchByte with
  | some h' => some ({ h' with bleft := h'.bleft - 1 }, byteBit h'.cur (h'.bleft - 1))
  | none => none

end Sys2Proof.Machine
end

