-- ==== Sys2Proof/Machine/Lzw.lean ====
section
/-! DEFINITION. The AdaptiveDictionaryDecoder (spec/41_lzw_decoder.md): the five code classes, the actions of an
emitting step, and `L.Step()`. -/

namespace Sys2Proof.Machine

/-- R13, R202: how a step, or a pull, of an engine ends; `α` is what it emits. Only a pull is `refused` (R205). The
error of a `faulted` one is in the engine's `err`. -/
inductive Result (α : Type) where
  | emitted (x : α)
  | silent
  | ended
  | faulted
  | refused
  deriving DecidableEq, Repr

/-- The outcome of work on one engine. -/
abbrev Work (ε α : Type) := Host.Outcome (ε × Result α) Fault Refusal

/-- The reply of engine L to the host; a silent step has none (R202). -/
def replyL (l : EngineL) : Result Bytes → Option Reply
  | .emitted s => some (.chunk s)
  | .silent => none
  | .ended => some .ended
  | .faulted => some (.fault l.ctl.err)
  | .refused => some .refused

/-- R139: append (source step 4). -/
def EngineL.append (l : EngineL) (b : Byte) : EngineL :=
  match l.lastChunk with
  | some p => if l.tableHasRoom then l.tableAppend (appendedEntry p b) else l
  | none => l

/-- R140: grow (source step 5). -/
def EngineL.grow (l : EngineL) : EngineL :=
  if l.mustGrow then { l with codeLength := l.codeLength + 1 }.discardGroup else l

/-- R141: remember (source step 6). -/
def EngineL.remember (l : EngineL) (s : Bytes) : EngineL := { l with lastChunk := some s }

/-- R132, steps 3 to 6: emit, append, grow, remember. `b` is the chunk's first byte. -/
def EngineL.emitStep (l : EngineL) (chunk : Bytes) (b : Byte) : EngineL :=
  (((l.emit chunk).append b).grow).remember chunk

/-- R132: an emitting step with this chunk. -/
def emitChunk (chunk : Bytes) (l : EngineL) : Work EngineL Bytes :=
  match chunk with
  | [] => .fault .emptyChunk
  | b :: _ => .next (l.emitStep chunk b, .emitted chunk)

/-- R224: a step that raises. -/
def raiseL (k : ErrKind) (cause : Cause) (l : EngineL) : Work EngineL Bytes :=
  .next (l.raise k cause, .faulted)

/-- R133: `CLR`. -/
def clrStep (l : EngineL) : Work EngineL Bytes := .next (l.lzwInit.discardGroup, .silent)

/-- R135: `KWK`. -/
def kwkStep (l : EngineL) : Work EngineL Bytes :=
  match l.lastChunk with
  | none => raiseL .formatError .kwkwkNoPrior l
  | some p =>
    match kwkChunk p with
    | .ok chunk => emitChunk chunk l
    | .error f => .fault f

/-- R136: `LIT`. -/
def litStep (b : Byte) (l : EngineL) : Work EngineL Bytes := emitChunk (litChunk b) l

/-- R136: `REF`. -/
def refStep (code : Nat) (l : EngineL) : Work EngineL Bytes :=
  match l.tableRead code with
  | .ok chunk => emitChunk chunk l
  | .error r => .refused r

/-- R137: `BAD`. -/
def badStep (l : EngineL) : Work EngineL Bytes := raiseL .formatError .codeOutOfRange l

/-- R85: the code classes. -/
def runClass (l : EngineL) : CodeClass → Work EngineL Bytes
  | .clr => clrStep l
  | .kwk _ => kwkStep l
  | .lit b => litStep b l
  | .ref c => refStep c l
  | .bad _ => badStep l

/-- R132: `L.Step()`. -/
def stepL (l : EngineL) : Work EngineL Bytes :=
  match l.nextCode with
  | (l', .exhausted) => .next (l'.finish, .ended)
  | (l', .truncated) => raiseL .unexpectedEndOfStream .truncatedGroup l'
  | (l', .code c) => runClass l' (classify l'.blockMode l'.table.length c)

/-- Work on engine L, and what its outcome comes to for the host. -/
def State.answerL (s : State) (w : Work EngineL Bytes) : Host.Outcome State Fault Refusal :=
  match w with
  | .next (l, r) => .next ((s.setL l).settle .l (replyL l r))
  | .fault f => .fault f
  | .refused r => .refused r

/-- An LZW code executed on the whole machine: engine L must be running (R132), and the host sees the step's
outcome. -/
def State.runL (s : State) (f : EngineL → Work EngineL Bytes) : Host.Outcome State Fault Refusal :=
  if s.l.ctl.isRunning then s.answerL (f s.l)
  else .refused .engineNotRunning

/-- `CLR`, R133. -/
def execClr (s : State) : Host.Outcome State Fault Refusal := s.runL clrStep

/-- `KWK`, R135; the code value has no use beyond its class (R91). -/
def execKwk (_code : Nat) (s : State) : Host.Outcome State Fault Refusal := s.runL kwkStep

/-- `LIT`, R136. -/
def execLit (b : Byte) (s : State) : Host.Outcome State Fault Refusal := s.runL (litStep b)

/-- `REF`, R136. -/
def execRef (code : Nat) (s : State) : Host.Outcome State Fault Refusal := s.runL (refStep code)

/-- `BAD`, R137; the code value is not recorded (R230). -/
def execBad (_code : Nat) (s : State) : Host.Outcome State Fault Refusal := s.runL badStep

end Sys2Proof.Machine
end

