-- ==== Sys2Proof/Machine/TreeBuilder.lean ====
section
/-! DEFINITION. The CanonicalTreeBuilder (spec/42_tree_builder.md): counting, slot lists, assembly, the three slot
kinds, and both readings of the source's count bookkeeping (R161 to R168, R175). -/

namespace Sys2Proof.Machine

/-! ### Counting and slot lists -/

/-- R161: `c_(i+1) = 2 * c_i - l_i`. -/
def nextCount (c : Int) (lv : Level) : Int := 2 * c - lv.leaves.length

/-- R161: the count after all the levels, starting from `c`. -/
def countAfter (c : Int) (levels : List Level) : Int := levels.foldl nextCount c

/-- R163, R164: a level's leaves as slots. -/
def leafSlots (lv : Level) : List Slot := lv.leaves.map .leaf

/-- R163: `n` placeholders. -/
def placeholders (n : Int) : List Slot := List.replicate n.toNat .placeholder

/-- R163, R164: the slot lists of the levels that follow a count of `c`. -/
def slotLists (c : Int) : List Level → List (List Slot)
  | [] => []
  | lv :: rest =>
    match rest with
    | [] => [leafSlots lv ++ [.eof]]
    | _ :: _ => (placeholders (nextCount c lv) ++ leafSlots lv) :: slotLists (nextCount c lv) rest

/-- R175: the slot stream of the literal reading from a count of `n`, and the count at the last level. -/
def literalStream (n : Int) : List Level → List Slot × Int
  | [] => ([], n)
  | lv :: rest =>
    match rest with
    | [] => (leafSlots lv ++ [.eof], n)
    | _ :: _ =>
      (placeholders n ++ leafSlots lv ++ (literalStream (nextCount n lv) rest).1,
        (literalStream (nextCount n lv) rest).2)

/-! ### Assembly -/

/-- R165: the builder ready to assemble these slot lists: the root is open. -/
def Builder.begin (reading : Config.TreeReading) (count : Int) (slots : List (List Slot)) : Builder :=
  { reading := reading, count := count, slots := slots, cur := List.replicate slots.length 0
    stack := [{ level := 0, left := none }], built := none }

/-- R165, R175: the list the children of a new node are taken from: one level deeper, or the one stream. -/
def childLevel (reading : Config.TreeReading) (level : Nat) : Nat :=
  match reading with
  | .canonical => level + 1
  | .literal => level

/-- R165: the next slot for the node on top of the stack, and the builder after its list's read position moved. -/
def Builder.takeSlot (b : Builder) : Option (Slot × Builder) :=
  match b.stack with
  | [] => none
  | top :: _ =>
    match (b.slots.getD top.level [])[b.cur.getD top.level 0]? with
    | some k => some (k, { b with cur := b.cur.set top.level (b.cur.getD top.level 0 + 1) })
    | none => none

/-- R165: attach a finished child to the node on top of the stack; a node with both children is finished in its
turn and attached to the node below. The second part is the root when nothing is left open. -/
def attachChild (t : Tree) : List OpenNode → List OpenNode × Option Tree
  | [] => ([], some t)
  | top :: rest =>
    match top.left with
    | none => ({ top with left := some t } :: rest, none)
    | some l => attachChild (.node l t) rest

/-- R166, `L(b)` and `E`: the child is a leaf. -/
def Builder.attachLeaf (b : Builder) (t : Tree) : Builder :=
  { b with stack := (attachChild t b.stack).1, built := (attachChild t b.stack).2 }

/-- R166, `P`: the child is a new open node, whose children come from the next level's list. -/
def Builder.openChild (b : Builder) : Builder :=
  match b.stack with
  | [] => b
  | top :: _ => { b with stack := { level := childLevel b.reading top.level, left := none } :: b.stack }

/-- R166: the three slot kinds. -/
def Builder.attachSlot (b : Builder) : Slot → Builder
  | .placeholder => b.openChild
  | .leaf v => b.attachLeaf (.leaf v)
  | .eof => b.attachLeaf .eof

/-- R165: the loop, over at most `n` slots; `none` when a node is open and no slot is left for it. -/
def Builder.assemble : Nat → Builder → Option Builder
  | 0, b => if b.stack = [] then some b else none
  | n + 1, b =>
    match b.stack with
    | [] => some b
    | _ :: _ =>
      match b.takeSlot with
      | some (k, b') => Builder.assemble n (b'.attachSlot k)
      | none => none

/-- The number of slots of a builder's lists. -/
def Builder.slotCount (b : Builder) : Nat := (b.slots.map List.length).sum

/-- R175: every slot has been used (the literal reading checks it; in the canonical one it follows, R165). -/
def Builder.usedUp (b : Builder) : Bool := b.cur == b.slots.map List.length

/-- R165, R175: the tree of a builder with no node left open. -/
def Builder.root (b : Builder) : Option Tree :=
  match b.reading with
  | .canonical => b.built
  | .literal => if b.usedUp then b.built else none

/-- R165: the tree of a builder that is ready to assemble. -/
def Builder.tree (b : Builder) : Option Tree := (b.assemble b.slotCount).bind Builder.root

/-! ### `BuildTree` -/

/-- R165: the builder on a level table, its counts checked; `none` is FormatError `TREE_LEVELS_MALFORMED` (R162, R171,
R172). No slot list is built for a rejected table (R171). -/
def readyCanonical (levels : List Level) : Option Builder :=
  if levels = [] then none
  else if countAfter 1 levels = 1 then some (Builder.begin .canonical (countAfter 1 levels) (slotLists 1 levels))
  else none

/-- R175: the builder of the literal reading on a level table, its count checked. -/
def readyLiteral (levels : List Level) : Option Builder :=
  if levels ≠ [] ∧ (literalStream 1 levels).2 ≠ 1 then none
  else some (Builder.begin .literal (literalStream 1 levels).2 [(literalStream 1 levels).1])

/-- D8: the builder under a reading. -/
def readyBuilder (reading : Config.TreeReading) (levels : List Level) : Option Builder :=
  match reading with
  | .canonical => readyCanonical levels
  | .literal => readyLiteral levels

/-- R165 `BuildTree(levels)`, R175 `BuildTreeLiteral(levels)`; `none` is FormatError `TREE_LEVELS_MALFORMED`. -/
def buildTree (reading : Config.TreeReading) (levels : List Level) : Option Tree :=
  (readyBuilder reading levels).bind Builder.tree

/-- R228, D16: the checks of `H.Start` in their order: the size bounds, then the counts. -/
def treeOrCause (reading : Config.TreeReading) (maxLevels maxLeaves : Option Nat) (levels : List Level) :
    Except Cause Tree :=
  if levelsFit maxLevels maxLeaves levels then
    match buildTree reading levels with
    | some t => .ok t
    | none => .error .treeLevelsMalformed
  else .error .sizeBound

/-! ### The slot instructions -/

/-- A slot executed on the whole machine: it is attached to the node on top of the builder's stack (R165). The host
sees nothing of it (R37). -/
def State.runSlot (s : State) (k : Slot) : Host.Outcome State Fault Refusal :=
  match s.h.builder.stack with
  | [] => .refused .noOpenNode
  | _ :: _ => .next (s.setH { s.h with builder := s.h.builder.attachSlot k })

/-- `P`, R166. -/
def execSlotPlaceholder (s : State) : Host.Outcome State Fault Refusal := s.runSlot .placeholder

/-- `L(b)`, R166. -/
def execSlotLeaf (b : Byte) (s : State) : Host.Outcome State Fault Refusal := s.runSlot (.leaf b)

/-- `E`, R166. -/
def execSlotEof (s : State) : Host.Outcome State Fault Refusal := s.runSlot .eof

end Sys2Proof.Machine
end

