-- ==== Sys2Proof/Machine/Huffman.lean ====
section
/-! DEFINITION. The HuffmanBitDecoder (spec/43_huffman_decoder.md): the two bit instructions and `H.Step()`. -/

namespace Sys2Proof.Machine

/-- The reply of engine H to the host; a silent step has none (R202). -/
def replyH (h : EngineH) : Result Byte → Option Reply
  | .emitted b => some (.byte b)
  | .silent => none
  | .ended => some .ended
  | .faulted => some (.fault h.ctl.err)
  | .refused => some .refused

/-- R183, R184: arrival at a node. -/
def arrive (n : Tree) (h : EngineH) : Work EngineH Byte :=
  match n with
  | .node _ _ => .next ({ h with node := n }, .silent)
  | .leaf b => .next ({ h.emit b with node := h.tree }, .emitted b)
  | .eof => .next (h.finish, .ended)

/-- R186, R187: descend by one bit. -/
def bitStep (bit : Bool) (h : EngineH) : Work EngineH Byte :=
  match childOf h.node bit with
  | .ok n => arrive n h
  | .error f => .fault f

/-- R185: the payload has no further bit. -/
def raiseH (k : ErrKind) (cause : Cause) (h : EngineH) : Work EngineH Byte :=
  .next (h.raise k cause, .faulted)

/-- R182: `H.Step()`. -/
def stepH (h : EngineH) : Work EngineH Byte :=
  match h.readBit with
  | none => raiseH .unexpectedEndOfStream .truncatedTraversal h
  | some (h', b) => bitStep b h'

/-- Work on engine H, and what its outcome comes to for the host. -/
def State.answerH (s : State) (w : Work EngineH Byte) : Host.Outcome State Fault Refusal :=
  match w with
  | .next (h, r) => .next ((s.setH h).settle .h (replyH h r))
  | .fault f => .fault f
  | .refused r => .refused r

/-- A Huffman bit executed on the whole machine: engine H must be running (R182), and the host sees the step's
outcome. -/
def State.runH (s : State) (f : EngineH → Work EngineH Byte) : Host.Outcome State Fault Refusal :=
  if s.h.ctl.isRunning then s.answerH (f s.h)
  else .refused .engineNotRunning

/-- `L`, R186. -/
def execLeft (s : State) : Host.Outcome State Fault Refusal := s.runH (bitStep false)

/-- `R`, R187. -/
def execRight (s : State) : Host.Outcome State Fault Refusal := s.runH (bitStep true)

end Sys2Proof.Machine
end

