-- ==== Sys2Proof/Machine/HostOps.lean ====
section
/-! DEFINITION. The host operations (spec/44_host_operations.md): `L.Start`, `L.StartCodes`, `H.Start`, `Pull`,
`DecodeAll` and the status reads. Each is one atomic transition (spec/70_reset_and_hazards.md R265). -/

namespace Sys2Proof.Machine

/-! ### Start -/

/-- R200, R46: a new running instance of engine L on this input; `seam`, `codes` are R207's. The group buffer is not
valid, and what it holds is a free value. -/
def EngineL.fresh (l : EngineL) (blockMode : Bool) (maxCodeLength : Nat) (payload : Bytes) (seam : Bool)
    (codes : List Nat) : EngineL :=
  { l with
    ctl := l.ctl.start, blockMode := blockMode, maxCodeLength := maxCodeLength, payload := payload, pcur := 0
    gvalid := false, group := Config.freeBytes 0 l.draws, gpos := Config.freeNat 2 l.draws, out := []
    seam := seam, codes := codes, ccur := 0, draws := l.draws + 1 }.lzwInit

/-- R200, R207: `L.Start` and `L.StartCodes`; each gives the empty sequence for the input it does not have
(notes/assumptions/13.md). The old instance is discarded in any status (R201). -/
def startL (blockMode : Bool) (maxCodeLength : Nat) (payload : Bytes) (seam : Bool) (codes : List Nat)
    (l : EngineL) : EngineL :=
  if maxCodeLengthLegal maxCodeLength then l.fresh blockMode maxCodeLength payload seam codes
  else (l.raise .formatError .configRange).lost

/-- R203, R46: a new running instance of engine H with this tree. The byte being consumed is a free value, no bit of
it being left. -/
def EngineH.fresh (h : EngineH) (levels : List Level) (tree : Tree) (payload : Bytes) : EngineH :=
  { ctl := h.ctl.start, levels := levels, tree := tree, node := tree, cur := Config.freeByte 0 h.draws, bleft := 0
    payload := payload, pcur := 0, out := [], builder := Builder.unused, draws := h.draws + 1 }

/-- R203: `H.Start` once the builder has given a tree or raised; a builder error leaves no tree. -/
def startWith (levels : List Level) (payload : Bytes) (built : Except Cause Tree) (h : EngineH) : EngineH :=
  match built with
  | .ok t => h.fresh levels t payload
  | .error cause => ({ h with levels := levels }.raise .formatError cause).lost

/-- R203: `H.Start`. The tree is built first (R176). -/
def startH (levels : List Level) (payload : Bytes) (h : EngineH) : EngineH :=
  startWith levels payload (treeOrCause Config.treeReading Config.huffMaxLevels Config.huffMaxLeavesPerLevel levels) h

/-- The reply to a `Start`: nothing on success, else the fault (R213). -/
def replyStart (c : Control) : Reply :=
  match c.status with
  | .fault => .fault c.err
  | .run | .idle | .done => .started

/-- `L.Start`, R200. A payload longer than `PayloadMaxLen`, when a model fixes it, is refused (D15). -/
def execLStart (blockMode : Bool) (maxCodeLength : Nat) (payload : Bytes) (s : State) :
    Host.Outcome State Fault Refusal :=
  if payloadFits payload then
    .next ((s.setL (startL blockMode maxCodeLength payload false [] s.l)).setReply
      (replyStart (startL blockMode maxCodeLength payload false [] s.l).ctl))
  else .next (s.setReply .refused)

/-- `L.StartCodes`, R207. The codes stand in the payload's place; that `L.payload` is then the empty sequence is the
model's choice (notes/assumptions/13.md). -/
def execLStartCodes (blockMode : Bool) (maxCodeLength : Nat) (codes : List Nat) (s : State) :
    Host.Outcome State Fault Refusal :=
  .next ((s.setL (startL blockMode maxCodeLength [] true codes s.l)).setReply
    (replyStart (startL blockMode maxCodeLength [] true codes s.l).ctl))

/-- `H.Start`, R203. -/
def execHStart (levels : List Level) (payload : Bytes) (s : State) : Host.Outcome State Fault Refusal :=
  if payloadFits payload then
    .next ((s.setH (startH levels payload s.h)).setReply (replyStart (startH levels payload s.h).ctl))
  else .next (s.setReply .refused)

/-! ### Pull -/

/-- More than the number of steps engine L can still take: every step but the last consumes a bit of the payload or
an element of the code sequence (R130, R202). -/
def EngineL.budget (l : EngineL) : Nat :=
  (if l.seam then l.codes.length - l.ccur
    else 8 * (l.payload.length - l.pcur) + (if l.gvalid then 8 * l.group.length - l.gpos else 0)) + 1

/-- R188: more than the number of steps engine H can still take. -/
def EngineH.budget (h : EngineH) : Nat := h.bleft + 8 * (h.payload.length - h.pcur) + 1

/-- R202: the loop of `Pull`: steps until one is not `Silent`. Shared by both engines. -/
def pullLoop {ε α : Type} (step : ε → Work ε α) : Nat → ε → Work ε α
  | 0, _ => .fault .loopNeverEnds
  | n + 1, e =>
    match step e with
    | .next (e', .silent) => pullLoop step n e'
    | .next (e', .emitted x) => .next (e', .emitted x)
    | .next (e', .ended) => .next (e', .ended)
    | .next (e', .faulted) => .next (e', .faulted)
    | .next (e', .refused) => .next (e', .refused)
    | .fault r => .fault r
    | .refused r => .refused r

/-- R202, R205, R206: a pull by status: refused before any `Start`, sticky after the end and after a fault. -/
def pullBy {ε α : Type} (status : Status) (running : ε → Work ε α) (e : ε) : Work ε α :=
  match status with
  | .idle => .next (e, .refused)
  | .done => .next (e, .ended)
  | .fault => .next (e, .faulted)
  | .run => running e

/-- R202: `L.Pull()`. -/
def pullL (l : EngineL) : Work EngineL Bytes := pullBy l.ctl.status (fun e => pullLoop stepL e.budget e) l

/-- R202: `H.Pull()`. -/
def pullH (h : EngineH) : Work EngineH Byte := pullBy h.ctl.status (fun e => pullLoop stepH e.budget e) h

/-- `Pull`, R202. -/
def execPull (e : Engine) (s : State) : Host.Outcome State Fault Refusal :=
  match e with
  | .l => s.answerL (pullL s.l)
  | .h => s.answerH (pullH s.h)

/-! ### DecodeAll -/

/-- R204: how `DecodeAll` ends: `Ok(buf)`, `Error(E.err)`, or refused (R205). -/
inductive Gathered where
  | ok (buf : Bytes)
  | error
  | refused
  deriving DecidableEq, Repr

/-- R204: the loop of `DecodeAll`: pulls until one does not emit; `bytesOf` gives the bytes of what is emitted. -/
def gather {ε α : Type} (pull : ε → Work ε α) (bytesOf : α → Bytes) : Nat → Bytes → ε →
    Host.Outcome (ε × Gathered) Fault Refusal
  | 0, _, _ => .fault .loopNeverEnds
  | n + 1, buf, e =>
    match pull e with
    | .next (e', .emitted x) => gather pull bytesOf n (buf ++ bytesOf x) e'
    | .next (e', .ended) => .next (e', .ok buf)
    | .next (e', .faulted) => .next (e', .error)
    | .next (e', .refused) => .next (e', .refused)
    | .next (_, .silent) => .fault .loopNeverEnds
    | .fault r => .fault r
    | .refused r => .refused r

/-- R204: `L.DecodeAll()`. -/
def decodeAllL (l : EngineL) : Host.Outcome (EngineL × Gathered) Fault Refusal :=
  gather pullL id l.budget [] l

/-- R204: `H.DecodeAll()`. -/
def decodeAllH (h : EngineH) : Host.Outcome (EngineH × Gathered) Fault Refusal :=
  gather pullH (fun b => [b]) h.budget [] h

/-- The reply of `DecodeAll`; a fault hands over no buffer (R204, D27). -/
def replyGathered (c : Control) : Gathered → Reply
  | .ok buf => .ok buf
  | .error => .error c.err
  | .refused => .refused

/-- `DecodeAll`, R204. -/
def execDecodeAll (e : Engine) (s : State) : Host.Outcome State Fault Refusal :=
  match e with
  | .l =>
    match decodeAllL s.l with
    | .next (l, g) => .next ((s.setL l).setReply (replyGathered l.ctl g))
    | .fault f => .fault f
    | .refused r => .refused r
  | .h =>
    match decodeAllH s.h with
    | .next (h, g) => .next ((s.setH h).setReply (replyGathered h.ctl g))
    | .fault f => .fault f
    | .refused r => .refused r

/-! ### Status reads -/

/-- `StatusRead`, R209: no side effect. -/
def execStatusRead (r : Reg) (s : State) : Host.Outcome State Fault Refusal :=
  .next (s.setReply (.value (s.readReg r)))

end Sys2Proof.Machine
end

