-- ==== Sys2Proof/Machine/Dispatch.lean ====
section
/-! DEFINITION. One arm per instruction of spec/opcode_table.json. -/

namespace Sys2Proof.Machine

def exec (i : Instr) (s : State) : Host.Outcome State Fault Refusal :=
  match i with
  -- LZW codes (R85)
  | .clr => Sys2Proof.Machine.execClr s
  | .kwk code => Sys2Proof.Machine.execKwk code s
  | .lit b => Sys2Proof.Machine.execLit b s
  | .ref code => Sys2Proof.Machine.execRef code s
  | .bad code => Sys2Proof.Machine.execBad code s
  -- Huffman bits (R88)
  | .left => Sys2Proof.Machine.execLeft s
  | .right => Sys2Proof.Machine.execRight s
  -- builder slots (R90)
  | .slotPlaceholder => Sys2Proof.Machine.execSlotPlaceholder s
  | .slotLeaf b => Sys2Proof.Machine.execSlotLeaf b s
  | .slotEof => Sys2Proof.Machine.execSlotEof s
  -- host operations (R213)
  | .lStart blockMode maxCodeLength payload => Sys2Proof.Machine.execLStart blockMode maxCodeLength payload s
  | .lStartCodes blockMode maxCodeLength codes => Sys2Proof.Machine.execLStartCodes blockMode maxCodeLength codes s
  | .hStart levels payload => Sys2Proof.Machine.execHStart levels payload s
  | .pull e => Sys2Proof.Machine.execPull e s
  | .decodeAll e => Sys2Proof.Machine.execDecodeAll e s
  | .statusRead r => Sys2Proof.Machine.execStatusRead r s

end Sys2Proof.Machine
end

