-- ==== Sys2Proof/Machine/Fetch.lean ====
section
/-! DEFINITION. Where the next instruction comes from (spec/00_scope.md R9; spec/10_state.md R40): the operation in
progress, or else the outside's next move, says which engine works, and that engine's stream position says what it
decodes. Also where a word of the opcode table is placed. -/

namespace Sys2Proof.Machine

/-- What a fetch gives. -/
inductive Fetched where
  /-- An instruction, and the state with everything its fetch consumes already consumed. -/
  | run (i : Instr) (s : State)
  /-- No instruction: the move is complete, and this is the state after it. -/
  | settled (s : State)
  deriving DecidableEq, Repr

/-- A pull of an engine that is not running: no step runs and no state changes (R205, R206). -/
def State.turnAwayL (s : State) : Status → State
  | .idle => s.setReply .refused
  | .done => s.setReply .ended
  | .fault => s.setReply (.fault s.l.ctl.err)
  | .run => s

/-- As `turnAwayL`, for engine H. -/
def State.turnAwayH (s : State) : Status → State
  | .idle => s.setReply .refused
  | .done => s.setReply .ended
  | .fault => s.setReply (.fault s.h.ctl.err)
  | .run => s

/-- R132, the reading part of `L.Step()`: the next code and its class, or the end, or a truncated group. -/
def fetchL (s : State) : Fetched :=
  if s.l.ctl.isRunning then
    match s.l.nextCode with
    | (l, .exhausted) => .settled ((s.setL l.finish).setReply .ended)
    | (l, .truncated) =>
      .settled ((s.setL (l.raise .unexpectedEndOfStream .truncatedGroup)).setReply
        (.fault (l.raise .unexpectedEndOfStream .truncatedGroup).ctl.err))
    | (l, .code c) => .run (decodeCode l.blockMode l.table.length c) (s.setL l)
  else .settled (s.turnAwayL s.l.ctl.status)

/-- R182, the reading part of `H.Step()`: the next bit, or a truncated traversal. -/
def fetchH (s : State) : Fetched :=
  if s.h.ctl.isRunning then
    match s.h.readBit with
    | none =>
      .settled ((s.setH (s.h.raise .unexpectedEndOfStream .truncatedTraversal)).setReply
        (.fault (s.h.raise .unexpectedEndOfStream .truncatedTraversal).ctl.err))
    | some (h, b) => .run (decodeBit b) (s.setH h)
  else .settled (s.turnAwayH s.h.ctl.status)

/-! ### `H.Start`, one slot at a time -/

/-- R203: the end of an `H.Start` carried out slot by slot. -/
def State.endBuild (s : State) (levels : List Level) (payload : Bytes) (built : Except Cause Tree) : State :=
  ((s.setH (startWith levels payload built s.h)).setReply (replyStart (startWith levels payload built s.h).ctl)).setTask none

/-- R228: the beginning of one: the payload's and the level table's checks, in the order of `execHStart`; then the root
is open and the builder has the next steps. -/
def State.beginBuild (s : State) (levels : List Level) (payload : Bytes) : State :=
  if payloadFits payload then
    if levelsFit Config.huffMaxLevels Config.huffMaxLeavesPerLevel levels then
      match readyBuilder Config.treeReading levels with
      | some b => (s.setH { s.h with builder := b }).setTask (some (.build levels payload))
      | none => s.endBuild levels payload (.error .treeLevelsMalformed)
    else s.endBuild levels payload (.error .sizeBound)
  else s.setReply .refused

/-- R165, R175: the builder's next slot while a node is open; then the tree. -/
def fetchBuild (levels : List Level) (payload : Bytes) (s : State) : Fetched :=
  match s.h.builder.stack with
  | [] =>
    match s.h.builder.root with
    | some t => .settled (s.endBuild levels payload (.ok t))
    | none => .settled (s.endBuild levels payload (.error .treeLevelsMalformed))
  | _ :: _ =>
    match s.h.builder.takeSlot with
    | some (k, b) => .run (decodeSlot k) (s.setH { s.h with builder := b })
    | none => .settled (s.endBuild levels payload (.error .treeLevelsMalformed))

/-! ### The next instruction -/

/-- An operation in progress goes on. A pull's task is taken off here and put back by a silent step. -/
def fetchTask (s : State) : Task → Fetched
  | .pull .l => fetchL (s.setTask none)
  | .pull .h => fetchH (s.setTask none)
  | .build levels payload => fetchBuild levels payload s

/-- The outside's next move, when no operation is in progress. With none to come the block does nothing (R251, R241). -/
def fetchMove (s : State) : Fetched :=
  match s.agenda with
  | [] => .settled s
  | .host op :: rest => .run (decodeOp op) (s.setAgenda rest)
  | .stepwise (.pull .l) :: rest => fetchL (s.setAgenda rest)
  | .stepwise (.pull .h) :: rest => fetchH (s.setAgenda rest)
  | .stepwise (.build levels payload) :: rest => .settled ((s.setAgenda rest).beginBuild levels payload)
  | .hardReset :: rest => .settled ((s.setAgenda rest).hardReset)

/-- The next instruction of the machine. An operation in progress comes before the outside's next move, so the host sees
an engine only between operations (R202, R236, R265). -/
def fetch (s : State) : Fetched :=
  match s.task with
  | some t => fetchTask s t
  | none => fetchMove s

/-! ### Placing a word of the opcode table (notes/assumptions/2.md) -/

/-- Engine L ready to decode the code `c` next, in Decode.lean's word context: the state that
`L.StartCodes(true, 16, [65, 66, c])` and two pulls leave (R207, S4 of spec/95_test_vectors.md), the elements that
hold no value keeping what they held. -/
def EngineL.beforeCode (l : EngineL) (c : Nat) : EngineL :=
  { l with
    ctl := l.ctl.start, blockMode := wordBlockMode, maxCodeLength := maxCodeLengthLimit, codeLength := initCodeLength
    table := initialTable wordBlockMode ++ [.bytes [65, 66]], lastChunk := some [66]
    gvalid := false, payload := [], pcur := 0, out := [[65], [66]]
    seam := true, codes := [65, 66, c], ccur := 2 }

/-- Engine H ready to decode the bit in bit 0 of `w` next: a running instance on the tree of `LEVELS [[0x41]]` (S6 of
spec/95_test_vectors.md), one bit of the byte `w` left (R35). -/
def EngineH.beforeBit (h : EngineH) (w : Nat) : EngineH :=
  { h with
    ctl := h.ctl.start, levels := [{ leaves := [0x41] }], tree := .node (.leaf 0x41) .eof
    node := .node (.leaf 0x41) .eof, cur := BitVec.ofNat 8 w, bleft := 1, payload := [BitVec.ofNat 8 w], pcur := 1
    out := [], builder := Builder.unused }

/-- The state with a word of the opcode table placed where the next step fetches, a pull being in progress: a word of up
to 8 bits is a Huffman bit, a longer one a code. -/
def State.placeWord (s : State) (nbits w : Nat) : State :=
  if nbits ≤ 8 then (s.setH (s.h.beforeBit w)).setTask (some (.pull .h))
  else (s.setL (s.l.beforeCode w)).setTask (some (.pull .l))

end Sys2Proof.Machine
end

