-- ==== Sys2Proof/Safety.lean ====
section
/-! DEFINITION. What claims are stated in: the well-formed storage spaces (spec/10_state.md R24), the invariant of the
block, the effect of an emitting step written out as a whole, and the spec's closed forms (spec/42_tree_builder.md
R167, R170; spec/20_memory.md R60). -/

namespace Sys2Proof

/-! ### Data and instructions -/

/-- A non-empty byte sequence (R24 f). -/
def Entry.isChunk : Entry → Bool
  | .bytes (_ :: _) => true
  | .bytes [] => false
  | .reserved => false

/-- R87: the node reached from a node by a string of bits, 0 left and 1 right; none if it leads through a leaf. -/
def Tree.follow : Tree → List Bool → Option Tree
  | t, [] => some t
  | .node l r, b :: rest => if b then r.follow rest else l.follow rest
  | .leaf _, _ :: _ => none
  | .eof, _ :: _ => none

/-! ### Which engine an instruction works on (R43) -/

/-- Works on engine L only. -/
def Instr.onL : Instr → Bool
  | .clr | .kwk _ | .lit _ | .ref _ | .bad _ | .lStart .. | .lStartCodes .. => true
  | .pull e | .decodeAll e => e == .l
  | .left | .right | .slotPlaceholder | .slotLeaf _ | .slotEof | .hStart .. | .statusRead _ => false

/-- Works on engine H only. -/
def Instr.onH : Instr → Bool
  | .left | .right | .slotPlaceholder | .slotLeaf _ | .slotEof | .hStart .. => true
  | .pull e | .decodeAll e => e == .h
  | .clr | .kwk _ | .lit _ | .ref _ | .bad _ | .lStart .. | .lStartCodes .. | .statusRead _ => false

/-- `L.Start` or `L.StartCodes`. -/
def Instr.startsL : Instr → Bool
  | .lStart .. | .lStartCodes .. => true
  | .clr | .kwk _ | .lit _ | .ref _ | .bad _ | .left | .right | .slotPlaceholder | .slotLeaf _ | .slotEof => false
  | .hStart .. | .pull _ | .decodeAll _ | .statusRead _ => false

/-- `H.Start`. -/
def Instr.startsH : Instr → Bool
  | .hStart .. => true
  | .clr | .kwk _ | .lit _ | .ref _ | .bad _ | .left | .right | .slotPlaceholder | .slotLeaf _ | .slotEof => false
  | .lStart .. | .lStartCodes .. | .pull _ | .decodeAll _ | .statusRead _ => false

/-- An LZW code (R85). -/
def Instr.isCode : Instr → Bool
  | .clr | .kwk _ | .lit _ | .ref _ | .bad _ => true
  | .left | .right | .slotPlaceholder | .slotLeaf _ | .slotEof => false
  | .lStart .. | .lStartCodes .. | .hStart .. | .pull _ | .decodeAll _ | .statusRead _ => false

end Sys2Proof

namespace Sys2Proof.Machine

/-! ### Storage spaces -/

/-- R24 (a) to (c), (e), (f), R54: the table starts with its initial entries, the sentinel among them in block mode,
goes on with non-empty byte sequences, and is no longer than its bound. -/
def tableWf (blockMode : Bool) (maxCodeLength : Nat) (table : List Entry) : Bool :=
  (initialTable blockMode).isPrefixOf table
    && (table.drop (initialTable blockMode).length).all Entry.isChunk
    && decide (table.length ≤ 2 ^ maxCodeLength - 1)

/-- R24, R29, R31: the storage spaces of a running engine L. -/
def EngineL.storageWf (l : EngineL) : Bool :=
  decide (l.pcur ≤ l.payload.length) && decide (l.ccur ≤ l.codes.length)
    && tableWf l.blockMode l.maxCodeLength l.table && l.out.all fun c => !c.isEmpty

/-- R29, R32: the storage spaces of a running engine H. -/
def EngineH.storageWf (h : EngineH) : Bool := decide (h.pcur ≤ h.payload.length)

/-- The block has no flat memory (spec/20_memory.md R50): its spaces are dense sequences, each with one
representation. They are well formed whenever their engine has a running instance. -/
def Memory.wf (s : State) : Bool :=
  (!s.l.ctl.isRunning || s.l.storageWf) && (!s.h.ctl.isRunning || s.h.storageWf)

/-! ### The invariant -/

/-- R30, R44, R221: there is an error exactly in `FAULT`; its kind is its cause's, and its cause one of this
engine's. -/
def Control.Ok (e : Engine) (c : Control) : Prop :=
  (c.err.isSome = true ↔ c.status = .fault) ∧
    ∀ er, c.err = some er → er.kind = er.cause.kind ∧ er.cause.engine = e

/-- What holds between the steps of a running instance of engine L. -/
structure EngineL.Ok (l : EngineL) : Prop where
  /-- R24, R29. -/
  storage : l.storageWf = true
  /-- R21. -/
  maxLegal : maxCodeLengthLegal l.maxCodeLength = true
  /-- R22. -/
  width : 9 ≤ l.codeLength ∧ l.codeLength ≤ l.maxCodeLength
  /-- R145: the code length follows the table length. -/
  belowWidth : l.table.length < 2 ^ l.codeLength
  /-- R145. -/
  leastWidth : l.codeLength = 9 ∨ 2 ^ (l.codeLength - 1) ≤ l.table.length
  /-- R26. -/
  lastNonempty : l.lastChunk ≠ some []
  /-- R144, R148: before the first code since the last initialisation. -/
  first : l.lastChunk = none → l.table = initialTable l.blockMode
  /-- R28, R117: a buffered group has the present width and stands between two codes. -/
  group : l.gvalid = true → l.group.length = l.codeLength ∧ l.gpos ≤ 8 * l.group.length ∧ l.codeLength ∣ l.gpos
  /-- R120: the seam buffers no group. -/
  seamNoGroup : l.seam = true → l.gvalid = false

/-- What holds between the steps of a running instance of engine H. -/
structure EngineH.Ok (h : EngineH) : Prop where
  /-- R29. -/
  storage : h.storageWf = true
  /-- R33: the tree is the one its level table builds. -/
  built : buildTree Config.treeReading h.levels = some h.tree
  /-- R33. -/
  root : h.tree.isInternal = true
  /-- R34. -/
  node : h.node.isInternal = true ∧ h.tree.hasSub h.node = true
  /-- R35. -/
  bits : h.bleft ≤ 8

/-- R165: the builder once `n` slots have been taken and attached, if it has that many. -/
def Builder.after : Nat → Builder → Option Builder
  | 0, b => some b
  | n + 1, b =>
    match b.takeSlot with
    | some (k, b') => Builder.after n (b'.attachSlot k)
    | none => none

/-- R165: the builder stands somewhere in the assembly of this level table. -/
def Builder.assembling (b : Builder) (levels : List Level) : Prop :=
  ∃ (n : Nat) (b₀ : Builder), readyBuilder Config.treeReading levels = some b₀ ∧ b₀.after n = some b

/-- The invariant of the block. -/
structure State.Inv (s : State) : Prop where
  ctlL : s.l.ctl.Ok .l
  ctlH : s.h.ctl.Ok .h
  runL : s.l.ctl.status = .run → s.l.Ok
  runH : s.h.ctl.status = .run → s.h.Ok
  /-- R37, R165: within an `H.Start` that is carried out slot by slot (notes/assumptions/1.md). -/
  build : ∀ levels payload, s.task = some (.build levels payload) → s.h.builder.assembling levels

/-! ### An emitting LZW step, written out (R138 to R141) -/

/-- R139: the table after a step that emits a chunk whose first byte is `b`. -/
def tableAfter (l : EngineL) (b : Byte) : List Entry :=
  match l.lastChunk with
  | some p => if l.table.length < 2 ^ l.maxCodeLength - 1 then l.table ++ [.bytes (p ++ [b])] else l.table
  | none => l.table

/-- R140: the step widens the code. -/
def widens (l : EngineL) (b : Byte) : Bool :=
  decide (2 ^ l.codeLength ≤ (tableAfter l b).length ∧ l.codeLength < l.maxCodeLength)

/-- R138 to R141: engine L after it has emitted `chunk`, whose first byte is `b`. -/
def EngineL.afterEmit (l : EngineL) (chunk : Bytes) (b : Byte) : EngineL :=
  { l with
    out := l.out ++ [chunk], table := tableAfter l b
    codeLength := if widens l b then l.codeLength + 1 else l.codeLength
    gvalid := if widens l b ∧ l.seam = false then false else l.gvalid
    lastChunk := some chunk }

/-- The whole machine after it. -/
def State.afterEmit (s : State) (chunk : Bytes) (b : Byte) : State :=
  { s with l := s.l.afterEmit chunk b, reply := .chunk chunk }

/-- R224: the whole machine after engine L has raised in a step. -/
def State.faultedL (s : State) (k : ErrKind) (c : Cause) : State :=
  { s with
    l := { s.l with ctl := { status := .fault, err := some { kind := k, cause := c } } }
    reply := .fault (some { kind := k, cause := c }) }

/-! ### What the next step of the machine is -/

/-- The next step of the machine is one of this engine's, within a pull in progress or as the first of a pull that the
host issues stepwise; with the state in which that has been taken note of. -/
def State.pullStep (s : State) : Option (Engine × State) :=
  match s.task with
  | some (.pull e) => some (e, { s with task := none })
  | some (.build _ _) => none
  | none =>
    match s.agenda with
    | .stepwise (.pull e) :: rest => some (e, { s with agenda := rest })
    | .stepwise (.build _ _) :: _ => none
    | .host _ :: _ => none
    | .hardReset :: _ => none
    | [] => none

/-- The next step of the machine may replace engine L's instance: a `Start` of it, or hardware reset (R201, R250). -/
def State.replacesL (s : State) : Bool :=
  match s.task with
  | some _ => false
  | none =>
    match s.agenda with
    | .host op :: _ => (decodeOp op).startsL
    | .hardReset :: _ => true
    | .stepwise _ :: _ => false
    | [] => false

/-- The next step of the machine may replace engine H's instance: a `Start` of it, whole or slot by slot, or hardware
reset (R201, R250). -/
def State.replacesH (s : State) : Bool :=
  match s.task with
  | some (.pull _) => false
  | some (.build _ _) => true
  | none =>
    match s.agenda with
    | .host op :: _ => (decodeOp op).startsH
    | .hardReset :: _ => true
    | .stepwise (.pull _) :: _ => false
    | .stepwise (.build _ _) :: _ => true
    | [] => false

/-- The operation in progress carried out, in at most `n` steps. -/
def finishTask : Nat → State → Option State
  | 0, s => if s.task = none then some s else none
  | n + 1, s =>
    if s.task = none then some s
    else
      match step s with
      | .next t => finishTask n t
      | .fault _ => none
      | .refused _ => none

/-! ### Stream positions (R40) -/

/-- R40, R28: the bits of the payload that engine L has consumed, a discarded remainder among them. -/
def EngineL.consumed (l : EngineL) : Nat :=
  8 * l.pcur - (if l.gvalid then 8 * l.group.length - l.gpos else 0)

/-- R40, R35: the bits of the payload that engine H has consumed. -/
def EngineH.consumed (h : EngineH) : Nat := 8 * h.pcur - h.bleft

/-! ### Several steps -/

/-- The bytes of an `Emitted` reply. -/
def Reply.emitted : Reply → Option Bytes
  | .chunk s => some s
  | .byte b => some [b]
  | .none | .started | .ended | .fault _ | .ok _ | .error _ | .refused | .value _ => Option.none

/-- R204: `n` pulls of engine `e`, if each of them emits, with the concatenation of what they emit. -/
def emittingPulls (e : Engine) : Nat → State → Option (State × Bytes)
  | 0, s => some (s, [])
  | n + 1, s =>
    match exec (.pull e) s with
    | .next t =>
      match t.reply.emitted, emittingPulls e n t with
      | some b, some (u, buf) => some (u, b ++ buf)
      | some _, none => none
      | none, some _ => none
      | none, none => none
    | .fault _ => none
    | .refused _ => none

/-- `n` silent steps of engine L, if the first `n` are silent. -/
def silentStepsL : Nat → EngineL → Option EngineL
  | 0, l => some l
  | n + 1, l =>
    match stepL l with
    | .next (l', .silent) => silentStepsL n l'
    | .next (_, .emitted _) | .next (_, .ended) | .next (_, .faulted) | .next (_, .refused) => none
    | .fault _ => none
    | .refused _ => none

/-- `n` silent steps of engine H, if the first `n` are silent. -/
def silentStepsH : Nat → EngineH → Option EngineH
  | 0, h => some h
  | n + 1, h =>
    match stepH h with
    | .next (h', .silent) => silentStepsH n h'
    | .next (_, .emitted _) | .next (_, .ended) | .next (_, .faulted) | .next (_, .refused) => none
    | .fault _ => none
    | .refused _ => none

/-- R208: the codes that the steps of a running engine L decode, at most `n` of them. -/
def codesRead : Nat → EngineL → List Nat
  | 0, _ => []
  | n + 1, l =>
    match l.nextCode with
    | (_, .exhausted) => []
    | (_, .truncated) => []
    | (l', .code c) =>
      match runClass l' (classify l'.blockMode l'.table.length c) with
      | .next (l'', _) => if l''.ctl.isRunning then c :: codesRead n l'' else [c]
      | .fault _ => [c]
      | .refused _ => [c]

/-- Up to `n` bits read by engine H, in the order read. -/
def bitsRead : Nat → EngineH → List Bool
  | 0, _ => []
  | n + 1, h =>
    match h.readBit with
    | some (h', b) => b :: bitsRead n h'
    | none => []

/-- R60: the bits of a payload, bit 7 of byte 0 first. -/
def payloadBits (p : Bytes) : List Bool :=
  p.flatMap fun b => [byteBit b 7, byteBit b 6, byteBit b 5, byteBit b 4, byteBit b 3, byteBit b 2, byteBit b 1,
    byteBit b 0]

/-! ### Trees -/

/-- R167: `node(i, j)`, given the slot lists from level `i` on. -/
def nodeAt : List (List Slot) → Nat → Option Tree
  | [], _ => none
  | slots :: deeper, j =>
    match slots[j]? with
    | some .placeholder =>
      match nodeAt deeper (2 * j), nodeAt deeper (2 * j + 1) with
      | some l, some r => some (.node l r)
      | some _, none => none
      | none, some _ => none
      | none, none => none
    | some (.leaf b) => some (.leaf b)
    | some .eof => some .eof
    | none => none

/-- R167: the tree in closed form. -/
def closedTree (levels : List Level) : Option Tree :=
  match nodeAt (slotLists 1 levels) 0, nodeAt (slotLists 1 levels) 1 with
  | some l, some r => some (.node l r)
  | some _, none => none
  | none, some _ => none
  | none, none => none

/-- R170: the binary numeral of `j` in `n` bits, most significant bit first. -/
def numeral : Nat → Nat → List Bool
  | 0, _ => []
  | n + 1, j => decide (j / 2 ^ n % 2 = 1) :: numeral n j

/-- R169: the number of leaves of a tree, the EOF leaf included. -/
def leafCount : Tree → Nat
  | .leaf _ => 1
  | .eof => 1
  | .node l r => leafCount l + leafCount r

/-- R161: the leaves of a level table. -/
def leavesOf (levels : List Level) : Nat := (levels.map fun lv => lv.leaves.length).sum

end Sys2Proof.Machine
end

