-- ==== Sys2Proof/Certificates/Slice0/Obligations.lean ====
section
/-! DEFINITION. The statements for the provers, each from the spec rule its docstring names. -/

open Sys2Proof Sys2Proof.Machine

/-! ### Encoding -/

/-- Words written out from spec/opcode_table.json: `CLR` is 0x0100, `LIT` has its byte in bits 7:0 below eight zeros,
`L` is the bit 0 and `R` the bit 1; with the model's own word context (notes/assumptions/2.md) the codes 257, 258 and
259 are `REF`, `KWK` and `BAD`, and a one-byte word above 1 is rejected. -/
def Obligations.TableWordsDecodeToTheirRows : Prop :=
  decodeTableWord 16 0b0000000100000000 = some .clr ∧
  decodeTableWord 16 0b0000000001000001 = some (.lit 0x41) ∧
  decodeTableWord 16 0b0000000011111111 = some (.lit 0xff) ∧
  decodeTableWord 16 0b0000000100000001 = some (.ref 257) ∧
  decodeTableWord 16 0b0000000100000010 = some (.kwk 258) ∧
  decodeTableWord 16 0b0000000100000011 = some (.bad 259) ∧
  decodeTableWord 8 0 = some .left ∧
  decodeTableWord 8 1 = some .right ∧
  decodeTableWord 8 2 = none

/-- R85, R134: in every context the spec allows, each code has the class its column gives, the classes exclude each
other and cover every code, and in block mode the code 256 is `CLR`. -/
def Obligations.EveryCodeHasExactlyTheClassOfItsRow : Prop :=
  ∀ (blockMode : Bool) (tl code : Nat), (if blockMode then 257 else 256) ≤ tl →
    (classify blockMode tl code = .clr ↔ blockMode = true ∧ code = 256) ∧
    (classify blockMode tl code = .kwk code ↔ code = tl) ∧
    (classify blockMode tl code = .lit (BitVec.ofNat 8 code) ↔ code ≤ 255) ∧
    (classify blockMode tl code = .ref code ↔ 256 ≤ code ∧ code < tl ∧ ¬ (blockMode = true ∧ code = 256)) ∧
    (classify blockMode tl code = .bad code ↔ tl < code) ∧
    (∀ b : Byte, classify blockMode tl code = .lit b → b.toNat = code) ∧
    (∀ c : Nat, classify blockMode tl code = .kwk c ∨ classify blockMode tl code = .ref c ∨
      classify blockMode tl code = .bad c → c = code)

/-- R85, R88, R90, R213: an instruction that is well formed and selected in a context is read back from its item. -/
def Obligations.DecodeOfEncodeIsTheInstruction : Prop :=
  ∀ (i : Instr) (blockMode : Bool) (tl : Nat), i.wf = true → i.selectedIn blockMode tl = true →
    decodeItem blockMode tl (encode i) = i

/-- R85, R88, R90, R213: in every context, the instruction an item decodes to encodes to that very item. -/
def Obligations.EncodeOfDecodeIsTheItem : Prop :=
  ∀ (blockMode : Bool) (tl : Nat) (it : Item), encode (decodeItem blockMode tl it) = it

/-- R59, R81, R80: a group of eight codes below 2^w, packed into `w` bytes, gives each code back at its position. -/
def Obligations.PackedGroupGivesBackItsEightCodes : Prop :=
  ∀ (w : Nat) (codes : List Nat), 9 ≤ w → w ≤ 16 → codes.length = 8 → (∀ c ∈ codes, c < 2 ^ w) →
    (packGroup w codes).length = w ∧ ∀ j, j < 8 → codes[j]? = some (codeAt (packGroup w codes) w j)

/-- R59, R81: the sum of the bits at `j*w` to `j*w + w - 1` is the field of the group read as one little-endian
integer. -/
def Obligations.CodeIsTheFieldOfTheLittleEndianGroup : Prop :=
  ∀ (g : Bytes) (w j : Nat), codeAt g w j = groupValue g / 2 ^ (j * w) % 2 ^ w

/-- R60: from the start of a payload, engine H reads bit `7 - (n mod 8)` of byte `n div 8` as its n-th bit, and then no
more. -/
def Obligations.HuffmanReadsMostSignificantBitFirst : Prop :=
  ∀ (h : EngineH) (n : Nat), h.bleft = 0 → h.pcur = 0 → bitsRead n h = (payloadBits h.payload).take n

/-! ### BitGroupReader -/

/-- R52, R181: `PayloadRead` of either engine returns the next `min(n, remaining)` bytes, moves the cursor by that many,
and writes nothing else; `HufReadBit` uses the next bit of the byte being consumed, or of the next payload byte, which is
then the byte being consumed, or is exhausted, and writes nothing else. -/
def Obligations.PayloadReadReturnsTheNextBytes : Prop :=
  (∀ (l : EngineL) (n : Nat), l.pcur ≤ l.payload.length →
    l.payloadRead n =
        ({ l with pcur := l.pcur + min n (l.payload.length - l.pcur) }, (l.payloadRead n).2) ∧
      (l.payloadRead n).2.length = min n (l.payload.length - l.pcur) ∧
      ∀ k, k < min n (l.payload.length - l.pcur) → (l.payloadRead n).2[k]? = l.payload[l.pcur + k]?) ∧
  (∀ (h : EngineH) (n : Nat), h.pcur ≤ h.payload.length →
    h.payloadRead n =
        ({ h with pcur := h.pcur + min n (h.payload.length - h.pcur) }, (h.payloadRead n).2) ∧
      (h.payloadRead n).2.length = min n (h.payload.length - h.pcur) ∧
      ∀ k, k < min n (h.payload.length - h.pcur) → (h.payloadRead n).2[k]? = h.payload[h.pcur + k]?) ∧
  ∀ h : EngineH,
    (∀ n, h.bleft = n + 1 → h.readBit = some ({ h with bleft := n }, byteBit h.cur n)) ∧
    (∀ b, h.bleft = 0 → h.payload[h.pcur]? = some b →
      h.readBit = some ({ h with pcur := h.pcur + 1, cur := b, bleft := 7 }, byteBit b 7)) ∧
    (h.bleft = 0 → h.payload.length ≤ h.pcur → h.readBit = none)

/-- R112, R113, R114: a group fill with no byte left changes nothing, one with too few bytes consumes them and leaves
no group, and any other buffers exactly `code_length` bytes. -/
def Obligations.GroupFillHasItsThreeOutcomes : Prop :=
  ∀ l : EngineL, l.pcur ≤ l.payload.length → 1 ≤ l.codeLength →
    (l.pcur = l.payload.length → l.fillGroup = (l, .exhausted)) ∧
    (0 < l.payload.length - l.pcur → l.payload.length - l.pcur < l.codeLength →
      l.fillGroup = ({ l with pcur := l.payload.length, gvalid := false }, .truncated)) ∧
    (l.codeLength ≤ l.payload.length - l.pcur →
      l.fillGroup =
        ({ l with
            pcur := l.pcur + l.codeLength, group := (l.payload.drop l.pcur).take l.codeLength, gpos := 0
            gvalid := true }, .filled))

/-- R118: with `j < 8` codes taken from a buffered group of width `w`, `next_code` returns the next field of the group
and stands after it. -/
def Obligations.NextCodeIsTheNextFieldOfTheGroup : Prop :=
  ∀ (l : EngineL) (j : Nat), l.seam = false → l.gvalid = true → l.group.length = l.codeLength → j < 8 →
    1 ≤ l.codeLength → l.gpos = j * l.codeLength →
    l.nextCode =
      ({ l with gpos := (j + 1) * l.codeLength },
        .code (groupValue l.group / 2 ^ (j * l.codeLength) % 2 ^ l.codeLength))

/-- R115, R117: when nothing is buffered, or all bits are used, `next_code` first fills a group of the present
`code_length`: it ends or fails with the fill, or returns the first code of the new group. -/
def Obligations.NextCodeFillsAtACodeBoundary : Prop :=
  ∀ l : EngineL, l.seam = false → 1 ≤ l.codeLength → l.pcur ≤ l.payload.length →
    (l.gvalid = false ∨ l.gpos = 8 * l.group.length) →
    (l.pcur = l.payload.length → l.nextCode = (l, .exhausted)) ∧
    (0 < l.payload.length - l.pcur → l.payload.length - l.pcur < l.codeLength →
      l.nextCode = ({ l with pcur := l.payload.length, gvalid := false }, .truncated)) ∧
    (l.codeLength ≤ l.payload.length - l.pcur →
      l.nextCode =
        ({ l with
            pcur := l.pcur + l.codeLength, group := (l.payload.drop l.pcur).take l.codeLength
            gpos := l.codeLength, gvalid := true },
          .code (codeAt ((l.payload.drop l.pcur).take l.codeLength) l.codeLength 0)))

/-- R116: `discard_current_group` clears `L.gvalid` and writes nothing else; so the next code starts a new group at
`L.pcur`. In the test seam it does nothing (R120). -/
def Obligations.DiscardDropsTheRestOfTheGroup : Prop :=
  ∀ l : EngineL,
    (l.seam = false → l.discardGroup = { l with gvalid := false }) ∧
    (l.seam = true → l.discardGroup = l) ∧
    (l.seam = false → 1 ≤ l.codeLength → l.pcur + l.codeLength ≤ l.payload.length →
      ∃ l', l.discardGroup.nextCode =
        (l', .code (codeAt ((l.payload.drop l.pcur).take l.codeLength) l.codeLength 0)))

/-- R120: in the test seam `next_code` returns the next element of the supplied sequence, of any size, or `Exhausted`
after the last, never `Truncated`. -/
def Obligations.SeamDeliversTheSuppliedCodes : Prop :=
  ∀ l : EngineL, l.seam = true →
    (∀ c, l.codes[l.ccur]? = some c → l.nextCode = ({ l with ccur := l.ccur + 1 }, .code c)) ∧
    (l.codes.length ≤ l.ccur → l.nextCode = (l, .exhausted))

/-! ### AdaptiveDictionaryDecoder -/

/-- R131: `LzwInit` writes exactly the DecoderState, to the 256 singletons and in block mode the sentinel, the code
length 9 and no last chunk. -/
def Obligations.LzwInitWritesExactlyTheDecoderState : Prop :=
  ∀ l : EngineL,
    l.lzwInit = { l with codeLength := 9, table := l.lzwInit.table, lastChunk := none } ∧
    l.lzwInit.table.length = (if l.blockMode then 257 else 256) ∧
    (∀ i, i < 256 → l.lzwInit.table[i]? = some (.bytes [BitVec.ofNat 8 i])) ∧
    (l.blockMode = true → l.lzwInit.table[256]? = some .reserved)

/-- R133: `CLR` in any running state resets the DecoderState, drops the rest of the group (in the seam there is none
to drop), emits nothing, and writes nothing else of the engine; the pull goes on with the next code, and the answer to the
host stays as it was. -/
def Obligations.ClrResetsTheDictionaryAndEmitsNothing : Prop :=
  ∀ s : State, s.l.ctl.status = .run →
    exec .clr s = .next
      { s with
        l := { s.l with
          codeLength := 9, table := initialTable s.l.blockMode, lastChunk := none
          gvalid := if s.l.seam then s.l.gvalid else false }
        task := some (.pull .l) }

/-- R136, R138 to R141: `LIT b` in any running state emits the one byte `b`, appends, grows and remembers, and writes
nothing else. -/
def Obligations.LitEmitsItsByte : Prop :=
  ∀ (s : State) (b : Byte), s.l.ctl.status = .run → exec (.lit b) s = .next (s.afterEmit [b] b)

/-- R136, R138 to R141: `REF i` emits the entry at index `i`, whatever non-empty byte sequence that is, appends, grows
and remembers, and writes nothing else. -/
def Obligations.RefEmitsItsTableEntry : Prop :=
  ∀ (s : State) (i : Nat) (b : Byte) (rest : Bytes), s.l.ctl.status = .run →
    s.l.table[i]? = some (.bytes (b :: rest)) → exec (.ref i) s = .next (s.afterEmit (b :: rest) b)

/-- R135, R138 to R141: `KWK` emits the previous chunk followed by its own first byte; without a previous chunk it
raises FormatError `KWKWK_NO_PRIOR` and changes only the status and the error. -/
def Obligations.KwkRepeatsTheFirstByteOrRaises : Prop :=
  ∀ (s : State) (code : Nat), s.l.ctl.status = .run →
    (∀ (b : Byte) (rest : Bytes), s.l.lastChunk = some (b :: rest) →
      exec (.kwk code) s = .next (s.afterEmit (b :: rest ++ [b]) b)) ∧
    (s.l.lastChunk = none → exec (.kwk code) s = .next (s.faultedL .formatError .kwkwkNoPrior))

/-- R137, R224, R230: a code above the table length is `BAD`, and `BAD` raises FormatError `CODE_OUT_OF_RANGE`: the status
and the error change, nothing is emitted and nothing else is written. -/
def Obligations.BadRaisesCodeOutOfRange : Prop :=
  ∀ (s : State) (code : Nat), s.l.ctl.status = .run →
    exec (.bad code) s = .next (s.faultedL .formatError .codeOutOfRange) ∧
    (s.l.table.length < code → ¬ (s.l.blockMode = true ∧ code = 256) →
      decodeCode s.l.blockMode s.l.table.length code = .bad code)

/-- R139, R144: a step that emits a chunk appends exactly one entry, at the old table length, or none: none when there is
no previous chunk or the table is full. The entry is the previous chunk extended by the first byte of the present one, and
no entry already there changes; the chunk is the answer to the host and the new previous chunk. -/
def Obligations.EmittingStepAppendsAtMostOneEntry : Prop :=
  ∀ (i : Instr) (s t : State) (chunk : Bytes), i.isCode = true → exec i s = .next t → t.l.out = s.l.out ++ [chunk] →
    s.l.table.length ≤ 2 ^ s.l.maxCodeLength - 1 →
    t.l.table.length =
        (if s.l.lastChunk = none then s.l.table.length
          else min (s.l.table.length + 1) (2 ^ s.l.maxCodeLength - 1)) ∧
      (∀ k, k < s.l.table.length → t.l.table[k]? = s.l.table[k]?) ∧
      (∀ p, s.l.lastChunk = some p → s.l.table.length < 2 ^ s.l.maxCodeLength - 1 →
        ∃ b, chunk.head? = some b ∧ t.l.table[s.l.table.length]? = some (.bytes (p ++ [b]))) ∧
      t.reply = .chunk chunk ∧ t.l.lastChunk = some chunk

/-- R140, R257, R258: when a step emits a chunk, the growth test sees the table after this step's append; the width grows
by at most one, never above the maximum, and when it grows the rest of the group is dropped. -/
def Obligations.WidthGrowsWhenTheTableReachesIt : Prop :=
  ∀ (i : Instr) (s t : State) (chunk : Bytes), i.isCode = true → exec i s = .next t → t.l.out = s.l.out ++ [chunk] →
    (2 ^ s.l.codeLength ≤ t.l.table.length ∧ s.l.codeLength < s.l.maxCodeLength →
      t.l.codeLength = s.l.codeLength + 1 ∧ (s.l.seam = false → t.l.gvalid = false)) ∧
    (¬ (2 ^ s.l.codeLength ≤ t.l.table.length ∧ s.l.codeLength < s.l.maxCodeLength) →
      t.l.codeLength = s.l.codeLength ∧ t.l.gvalid = s.l.gvalid)

/-- R147: with the table full at the maximal width, the largest code value equals the table length and is `KWK`: it emits
the previous chunk with its own first byte, appends nothing, and that chunk becomes the previous one; no code of that
width is `BAD`. -/
def Obligations.KwkWithAFullTableGrowsTheChunk : Prop :=
  ∀ (s : State) (b : Byte) (rest : Bytes), s.l.ctl.status = .run → s.l.lastChunk = some (b :: rest) →
    s.l.table.length = 2 ^ s.l.maxCodeLength - 1 → s.l.codeLength = s.l.maxCodeLength → 9 ≤ s.l.maxCodeLength →
    decodeCode s.l.blockMode s.l.table.length (2 ^ s.l.maxCodeLength - 1) = .kwk (2 ^ s.l.maxCodeLength - 1) ∧
    exec (.kwk (2 ^ s.l.maxCodeLength - 1)) s = .next
      { s with
        l := { s.l with out := s.l.out ++ [b :: rest ++ [b]], lastChunk := some (b :: rest ++ [b]) }
        reply := .chunk (b :: rest ++ [b]) } ∧
    ∀ c d, c < 2 ^ s.l.codeLength → decodeCode s.l.blockMode s.l.table.length c ≠ .bad d

/-- R148: the first code since an initialisation: 0 to 255 emits that byte and appends nothing, 256 in block mode is
`CLR`, the initial table length raises `KWKWK_NO_PRIOR`, anything above it `CODE_OUT_OF_RANGE`. -/
def Obligations.FirstCodeIsALiteralOrAClear : Prop :=
  ∀ (s : State) (c : Nat), s.Inv → s.l.ctl.status = .run → s.l.lastChunk = none →
    (c ≤ 255 →
      exec (decodeCode s.l.blockMode s.l.table.length c) s = .next
        { s with
          l := { s.l with out := s.l.out ++ [[BitVec.ofNat 8 c]], lastChunk := some [BitVec.ofNat 8 c] }
          reply := .chunk [BitVec.ofNat 8 c] }) ∧
    (s.l.blockMode = true → decodeCode s.l.blockMode s.l.table.length 256 = .clr) ∧
    (c = (if s.l.blockMode then 257 else 256) →
      exec (decodeCode s.l.blockMode s.l.table.length c) s = .next (s.faultedL .formatError .kwkwkNoPrior)) ∧
    ((if s.l.blockMode then 257 else 256) < c →
      exec (decodeCode s.l.blockMode s.l.table.length c) s = .next (s.faultedL .formatError .codeOutOfRange))

/-- R142, R113: when the payload has ended on a group boundary, a step of engine L ends the sequence normally and
changes nothing but the status. -/
def Obligations.LzwEndsAtAGroupBoundary : Prop :=
  ∀ s s' : State, s.pullStep = some (.l, s') → s.l.ctl.status = .run → s.l.seam = false →
    1 ≤ s.l.codeLength → s.l.pcur = s.l.payload.length →
    (s.l.gvalid = false ∨ s.l.gpos = 8 * s.l.group.length) →
    step s = .next { s' with l := { s.l with ctl := { s.l.ctl with status := .done } }, reply := .ended }

/-- R114, R132, R224 (b): a last group of 1 to `code_length - 1` bytes raises UnexpectedEndOfStream `TRUNCATED_GROUP` at
its fill; the tail is consumed, no code of it is decoded, nothing is emitted. -/
def Obligations.ShortLastGroupFaultsAtItsFill : Prop :=
  ∀ s s' : State, s.pullStep = some (.l, s') → s.l.ctl.status = .run → s.l.seam = false →
    s.l.pcur < s.l.payload.length → s.l.payload.length - s.l.pcur < s.l.codeLength →
    (s.l.gvalid = false ∨ s.l.gpos = 8 * s.l.group.length) →
    step s = .next
      { s' with
        l := { s.l with
          ctl := { status := .fault, err := some { kind := .unexpectedEndOfStream, cause := .truncatedGroup } }
          pcur := s.l.payload.length, gvalid := false }
        reply := .fault (some { kind := .unexpectedEndOfStream, cause := .truncatedGroup }) }

/-! ### Huffman -/

/-- R186, R187, R183, R184: at an internal node, bit 0 goes to the left child and bit 1 to the right one: an internal
node is entered, a byte leaf is emitted and the root becomes the position, the EOF leaf ends the sequence and leaves the
position as it was. Nothing else of the engine is written; where a node is entered, the pull goes on with the next bit and
the answer to the host stays as it was. -/
def Obligations.HuffmanBitDescendsEmitsOrEnds : Prop :=
  ∀ (s : State) (lt rt : Tree) (bit : Bool), s.h.ctl.status = .run → s.h.node = .node lt rt →
    (∀ x y, (if bit then rt else lt) = .node x y →
      exec (if bit then .right else .left) s =
        .next { s with h := { s.h with node := .node x y }, task := some (.pull .h) }) ∧
    (∀ b, (if bit then rt else lt) = .leaf b →
      exec (if bit then .right else .left) s = .next
        { s with h := { s.h with out := s.h.out ++ [b], node := s.h.tree }, reply := .byte b }) ∧
    ((if bit then rt else lt) = .eof →
      exec (if bit then .right else .left) s = .next
        { s with h := { s.h with ctl := { s.h.ctl with status := .done } }, reply := .ended })

/-- R185: when the payload has no further bit, a step of engine H raises UnexpectedEndOfStream `TRUNCATED_TRAVERSAL`, at
the root as anywhere else, and writes nothing else. -/
def Obligations.HuffmanTruncationFaults : Prop :=
  ∀ s s' : State, s.pullStep = some (.h, s') → s.h.ctl.status = .run → s.h.bleft = 0 →
    s.h.payload.length ≤ s.h.pcur →
    step s = .next
      { s' with
        h := { s.h with
          ctl := { status := .fault, err := some { kind := .unexpectedEndOfStream, cause := .truncatedTraversal } } }
        reply := .fault (some { kind := .unexpectedEndOfStream, cause := .truncatedTraversal }) }

/-- R188: if the payload's bits are the codes of `k` byte leaves, then the code of the EOF leaf, then any padding,
`DecodeAll` after `H.Start` gives exactly those `k` bytes, and engine H is `DONE`. -/
def Obligations.HuffmanDecodesWhatThePathsEncode : Prop :=
  ∀ (s t : State) (levels : List Level) (payload : Bytes) (tree : Tree) (symbols : List (List Bool × Byte))
    (eofPath padding : List Bool),
    buildTree .canonical levels = some tree →
    (∀ p ∈ symbols, Tree.follow tree p.1 = some (.leaf p.2)) → Tree.follow tree eofPath = some .eof →
    payloadBits payload = (symbols.map Prod.fst).flatten ++ eofPath ++ padding →
    exec (.hStart levels payload) s = .next t →
    ∃ u, exec (.decodeAll .h) t = .next u ∧ u.reply = .ok (symbols.map Prod.snd) ∧
      u.h.out = symbols.map Prod.snd ∧ u.h.ctl.status = .done ∧ u.l = s.l

/-- R188, R185, R204: if the payload ends before an EOF code is complete, `DecodeAll` answers UnexpectedEndOfStream
alone, and the bytes of the complete codes stay emitted. -/
def Obligations.TruncatedHuffmanPayloadFails : Prop :=
  ∀ (s t : State) (levels : List Level) (payload : Bytes) (tree stop : Tree) (symbols : List (List Bool × Byte))
    (tail : List Bool),
    buildTree .canonical levels = some tree →
    (∀ p ∈ symbols, Tree.follow tree p.1 = some (.leaf p.2)) →
    Tree.follow tree tail = some stop → stop.isInternal = true →
    payloadBits payload = (symbols.map Prod.fst).flatten ++ tail →
    exec (.hStart levels payload) s = .next t →
    ∃ u, exec (.decodeAll .h) t = .next u ∧
      u.reply = .error (some { kind := .unexpectedEndOfStream, cause := .truncatedTraversal }) ∧
      u.h.out = symbols.map Prod.snd ∧ u.h.ctl.status = .fault

/-- The model's choice (notes/assumptions/5.md): where the instructions that an engine decodes stop by name. Only one of
these stops is the spec's, the refusal to read the sentinel (spec/93_implementation_defined.md U5). In the other cases a
precondition of the spec fails and the spec gives no behaviour: an LZW code or a Huffman bit of an engine that is not
running, `REF` outside the table, a chunk without a first byte, a traversal not at an internal node, and a slot with no
open node. -/
def Obligations.InstructionsStopByNameOutsideTheirPreconditions : Prop :=
  ∀ s : State,
    (∀ i : Instr, i.isCode = true → s.l.ctl.status ≠ .run → exec i s = .refused .engineNotRunning) ∧
    (s.l.ctl.status = .run → ∀ i : Nat,
      (s.l.table.length ≤ i → exec (.ref i) s = .refused .noSuchEntry) ∧
      (s.l.table[i]? = some .reserved → exec (.ref i) s = .refused .reservedEntry) ∧
      (s.l.table[i]? = some (.bytes []) → exec (.ref i) s = .fault .emptyChunk) ∧
      (s.l.lastChunk = some [] → exec (.kwk i) s = .fault .emptyChunk)) ∧
    (∀ i : Instr, i = .left ∨ i = .right →
      (s.h.ctl.status ≠ .run → exec i s = .refused .engineNotRunning) ∧
      (s.h.ctl.status = .run → s.h.node.isInternal = false → exec i s = .fault .nodeNotInternal)) ∧
    (∀ i : Instr, (i = .slotPlaceholder ∨ (∃ b, i = .slotLeaf b) ∨ i = .slotEof) → s.h.builder.stack = [] →
      exec i s = .refused .noOpenNode)

/-! ### CanonicalTreeBuilder -/

/-- R166 in the form of the model's stack (notes/assumptions/10.md, DEDUCED: a node stays on the stack until its subtree is
finished, where R165 takes a parent off as soon as its second child is attached): with a node open, `P` puts a new open
node on top of it, whose children come from the next level's list in the canonical reading and from the one stream in the
literal one; `L(b)` and `E` attach a leaf: as the first child of the open node if it has none, and otherwise the node is
finished. Nothing but the builder's stack and root is written. (How a finished node is passed to the node below it is
`attachChild`.) -/
def Obligations.SlotsAttachToTheOpenNode : Prop :=
  ∀ (s : State) (top : OpenNode) (rest : List OpenNode), s.h.builder.stack = top :: rest →
    exec .slotPlaceholder s = .next
      { s with h := { s.h with builder := { s.h.builder with
          stack := { level := childLevel s.h.builder.reading top.level, left := none } :: top :: rest } } } ∧
    (∀ (i : Instr) (leaf : Tree),
      ((∃ b, i = .slotLeaf b ∧ leaf = .leaf b) ∨ (i = .slotEof ∧ leaf = .eof)) →
      (top.left = none →
        exec i s = .next
          { s with h := { s.h with builder := { s.h.builder with
              stack := { top with left := some leaf } :: rest, built := none } } }) ∧
      (∀ first, top.left = some first →
        exec i s = .next
          { s with h := { s.h with builder := { s.h.builder with
              stack := (attachChild (.node first leaf) rest).1
              built := (attachChild (.node first leaf) rest).2 } } }))

/-- R162, R171, R172: the builder accepts exactly the non-empty tables whose count after the last level is 1. -/
def Obligations.BuilderAcceptsExactlyTheTablesThatCountToOne : Prop :=
  ∀ levels : List Level,
    (∃ t, buildTree .canonical levels = some t) ↔ levels ≠ [] ∧ countAfter 1 levels = 1

/-- R167: the assembly with an open-node stack builds the tree of the closed form. -/
def Obligations.AssemblyBuildsTheClosedFormTree : Prop :=
  ∀ (levels : List Level) (t : Tree), buildTree .canonical levels = some t → closedTree levels = some t

/-- R169 (a), (b), (e): a built tree has an internal root, exactly one EOF leaf, and one leaf more than the level table
has. -/
def Obligations.BuiltTreeHasOneEofLeaf : Prop :=
  ∀ (levels : List Level) (t : Tree), buildTree .canonical levels = some t →
    t.isInternal = true ∧ t.eofCount = 1 ∧ leafCount t = leavesOf levels + 1

/-- R170, R169 (b), (c): the path to slot `j` of level `i` is the numeral of `j` in `i + 1` bits, most significant bit
first; so level `i`'s leaves sit at depth `i + 1`, in order, and the EOF leaf has the last path of the deepest level. -/
def Obligations.LeafPathsAreTheNumeralsOfTheirSlots : Prop :=
  ∀ (levels : List Level) (t : Tree) (i j : Nat) (slots : List Slot) (k : Slot),
    buildTree .canonical levels = some t → (slotLists 1 levels)[i]? = some slots → slots[j]? = some k →
    ∃ n, Tree.follow t (numeral (i + 1) j) = some n ∧
      (k = .placeholder → n.isInternal = true) ∧ (∀ b, k = .leaf b → n = .leaf b) ∧ (k = .eof → n = .eof)

/-- R175: the word-for-word reading, which this hardware does not build, accepts a table only if the last level has
exactly one leaf. -/
def Obligations.LiteralReadingNeedsOneLastLeaf : Prop :=
  ∀ (levels : List Level) (last : Level) (t : Tree), buildTree .literal (levels ++ [last]) = some t →
    last.leaves.length = 1

/-! ### Host operations -/

/-- R200, R46: `L.Start` with a legal `max_code_length`, in any status, makes a running instance as tabled. -/
def Obligations.LStartMakesAFreshInstance : Prop :=
  ∀ (s : State) (blockMode : Bool) (m : Nat) (payload : Bytes), 9 ≤ m → m ≤ 16 →
    ∃ t, exec (.lStart blockMode m payload) s = .next t ∧ t.reply = .started ∧
      t.l.ctl = { status := .run, err := none } ∧ t.l.blockMode = blockMode ∧ t.l.maxCodeLength = m ∧
      t.l.codeLength = 9 ∧ t.l.table = initialTable blockMode ∧ t.l.lastChunk = none ∧ t.l.gvalid = false ∧
      t.l.payload = payload ∧ t.l.pcur = 0 ∧ t.l.out = [] ∧ t.l.seam = false ∧
      t.h = s.h ∧ t.agenda = s.agenda ∧ t.task = s.task

/-- R207: `L.StartCodes` is `L.Start` with the payload replaced by a sequence of codes, none of them taken yet. -/
def Obligations.LStartCodesMakesASeamInstance : Prop :=
  ∀ (s : State) (blockMode : Bool) (m : Nat) (codes : List Nat), 9 ≤ m → m ≤ 16 →
    ∃ t, exec (.lStartCodes blockMode m codes) s = .next t ∧ t.reply = .started ∧
      t.l.ctl = { status := .run, err := none } ∧ t.l.blockMode = blockMode ∧ t.l.maxCodeLength = m ∧
      t.l.codeLength = 9 ∧ t.l.table = initialTable blockMode ∧ t.l.lastChunk = none ∧ t.l.gvalid = false ∧
      t.l.out = [] ∧ t.l.seam = true ∧ t.l.codes = codes ∧ t.l.ccur = 0 ∧ t.h = s.h ∧ t.agenda = s.agenda ∧
      t.task = s.task

/-- R200, R224, D7: a `max_code_length` outside 9 to 16 raises FormatError `CONFIG_RANGE`: the status becomes `FAULT`,
nothing of the old output survives, engine H is untouched. -/
def Obligations.LStartOutOfRangeFaults : Prop :=
  ∀ (s : State) (blockMode : Bool) (m : Nat) (payload : Bytes) (codes : List Nat) (i : Instr), m < 9 ∨ 16 < m →
    (i = .lStart blockMode m payload ∨ i = .lStartCodes blockMode m codes) →
    ∃ t, exec i s = .next t ∧
      t.l.ctl = { status := .fault, err := some { kind := .formatError, cause := .configRange } } ∧
      t.reply = .fault (some { kind := .formatError, cause := .configRange }) ∧
      t.l.out = [] ∧ t.h = s.h ∧ t.agenda = s.agenda ∧ t.task = s.task

/-- R203, R46, R176: `H.Start`, in any status, with a level table that describes a tree makes a running instance at the
root of that tree; any other level table raises FormatError `TREE_LEVELS_MALFORMED`. Engine L is untouched. -/
def Obligations.HStartBuildsTheTreeOrFaults : Prop :=
  ∀ (s : State) (levels : List Level) (payload : Bytes),
    (∀ tree, buildTree .canonical levels = some tree →
      ∃ t, exec (.hStart levels payload) s = .next t ∧ t.reply = .started ∧
        t.h.ctl = { status := .run, err := none } ∧ t.h.levels = levels ∧ t.h.tree = tree ∧ t.h.node = tree ∧
        t.h.payload = payload ∧ t.h.pcur = 0 ∧ t.h.bleft = 0 ∧ t.h.out = [] ∧ t.l = s.l ∧ t.agenda = s.agenda ∧
        t.task = s.task) ∧
    (buildTree .canonical levels = none →
      ∃ t, exec (.hStart levels payload) s = .next t ∧
        t.h.ctl = { status := .fault, err := some { kind := .formatError, cause := .treeLevelsMalformed } } ∧
        t.reply = .fault (some { kind := .formatError, cause := .treeLevelsMalformed }) ∧
        t.h.out = [] ∧ t.l = s.l ∧ t.agenda = s.agenda ∧ t.task = s.task)

/-- R173, R228, D16: a level table above a bound that a model fixes, either of the two or both, raises `SIZE_BOUND` before
the counts are run, and a table within whatever bounds are fixed is built or raises `TREE_LEVELS_MALFORMED`. -/
def Obligations.SizeBoundIsCheckedBeforeTheCounts : Prop :=
  ∀ (reading : Config.TreeReading) (maxLevels maxLeaves : Option Nat) (levels : List Level),
    (((∃ m, maxLevels = some m ∧ m < levels.length) ∨
        ∃ m, maxLeaves = some m ∧ ∃ lv ∈ levels, m < lv.leaves.length) →
      treeOrCause reading maxLevels maxLeaves levels = .error .sizeBound) ∧
    ((∀ m, maxLevels = some m → levels.length ≤ m) →
      (∀ m, maxLeaves = some m → ∀ lv ∈ levels, lv.leaves.length ≤ m) →
      treeOrCause reading maxLevels maxLeaves levels =
        match buildTree reading levels with
        | some t => .ok t
        | none => .error .treeLevelsMalformed)

/-- R205, R206: before any `Start`, `Pull` and `DecodeAll` are refused; after the end every pull answers `End` and
after a fault the same fault. In all these cases no state changes but the answer. -/
def Obligations.PullsOfAStoppedEngineAreSticky : Prop :=
  ∀ (s : State) (e : Engine) (c : Control), (c = match e with | .l => s.l.ctl | .h => s.h.ctl) →
    (c.status = .idle → exec (.pull e) s = .next { s with reply := .refused } ∧
      exec (.decodeAll e) s = .next { s with reply := .refused }) ∧
    (c.status = .done → exec (.pull e) s = .next { s with reply := .ended } ∧
      exec (.decodeAll e) s = .next { s with reply := .ok [] }) ∧
    (c.status = .fault → exec (.pull e) s = .next { s with reply := .fault c.err } ∧
      exec (.decodeAll e) s = .next { s with reply := .error c.err })

/-- R202: a pull of a running engine runs its steps, through any that are silent, up to and with the first that is not,
whose outcome it answers: a chunk or a byte, the end, or a fault. -/
def Obligations.PullRunsToTheFirstStepThatAnswers : Prop :=
  ∀ s : State, s.Inv →
    (s.l.ctl.status = .run →
      ∃ (n : Nat) (l l' : EngineL) (r : Result Bytes) (answer : Reply), silentStepsL n s.l = some l ∧
        stepL l = .next (l', r) ∧ ((∃ chunk, r = .emitted chunk) ∨ r = .ended ∨ r = .faulted) ∧
        replyL l' r = some answer ∧ exec (.pull .l) s = .next { s with l := l', reply := answer }) ∧
    (s.h.ctl.status = .run →
      ∃ (n : Nat) (h h' : EngineH) (r : Result Byte) (answer : Reply), silentStepsH n s.h = some h ∧
        stepH h = .next (h', r) ∧ ((∃ b, r = .emitted b) ∨ r = .ended ∨ r = .faulted) ∧
        replyH h' r = some answer ∧ exec (.pull .h) s = .next { s with h := h', reply := answer })

/-- R204: `DecodeAll` of a running engine always completes, and is the loop of pulls that defines it: pulls that emit,
then one that answers `End` or the fault; the machine it leaves is the one after that last pull, answering the
concatenation of what the pulls emitted, or the error alone. Everything emitted from that point on stands in the output;
the engine is `DONE` or in `FAULT`. -/
def Obligations.DecodeAllConcatenatesOrReportsTheError : Prop :=
  ∀ s : State, s.Inv →
    (∀ e : Engine, (match e with | .l => s.l.ctl | .h => s.h.ctl).status = .run →
      ∃ (n : Nat) (u v t : State) (buf : Bytes), emittingPulls e n s = some (u, buf) ∧
        exec (.pull e) u = .next v ∧ exec (.decodeAll e) s = .next t ∧
        ((v.reply = .ended ∧ t = { v with reply := .ok buf }) ∨
          (∃ er, v.reply = .fault (some er) ∧ t = { v with reply := .error (some er) }))) ∧
    (s.l.ctl.status = .run → ∃ t, exec (.decodeAll .l) s = .next t ∧ t.h = s.h ∧ t.agenda = s.agenda ∧
      ∃ new, t.l.out = s.l.out ++ new ∧
        ((t.l.ctl.status = .done ∧ t.reply = .ok new.flatten) ∨
          (t.l.ctl.status = .fault ∧ ∃ er, t.l.ctl.err = some er ∧ t.reply = .error (some er)))) ∧
    (s.h.ctl.status = .run → ∃ t, exec (.decodeAll .h) s = .next t ∧ t.l = s.l ∧ t.agenda = s.agenda ∧
      ∃ new, t.h.out = s.h.out ++ new ∧
        ((t.h.ctl.status = .done ∧ t.reply = .ok new) ∨
          (t.h.ctl.status = .fault ∧ ∃ er, t.h.ctl.err = some er ∧ t.reply = .error (some er))))

/-- R44, R209: a status read answers the register's fields, each at its bits, and has no side effect. -/
def Obligations.StatusReadShowsTheFieldsAndChangesNothing : Prop :=
  ∀ s : State,
    (∀ r, ∃ v, exec (.statusRead r) s = .next { s with reply := .value v }) ∧
    (∃ v, exec (.statusRead .lCfg) s = .next { s with reply := .value (.lCfg v) } ∧
      v.getLsbD 0 = s.l.blockMode ∧ (s.l.maxCodeLength < 32 → (v.extractLsb' 1 5).toNat = s.l.maxCodeLength)) ∧
    (∃ v, exec (.statusRead .lStatus) s = .next { s with reply := .value (.lStatus v) } ∧
      (v.extractLsb' 0 2).toNat = s.l.ctl.status.number ∧
      (∀ er, s.l.ctl.err = some er →
        (v.extractLsb' 2 2).toNat = er.kind.number ∧ (v.extractLsb' 4 4).toNat = er.cause.number) ∧
      (s.l.ctl.err = none → v.extractLsb' 2 6 = 0)) ∧
    (∃ v, exec (.statusRead .hStatus) s = .next { s with reply := .value (.hStatus v) } ∧
      (v.extractLsb' 0 2).toNat = s.h.ctl.status.number ∧
      (∀ er, s.h.ctl.err = some er →
        (v.extractLsb' 2 2).toNat = er.kind.number ∧ (v.extractLsb' 4 4).toNat = er.cause.number) ∧
      (s.h.ctl.err = none → v.extractLsb' 2 6 = 0)) ∧
    (∃ v, exec (.statusRead .lCodeLength) s = .next { s with reply := .value (.lCodeLength v) } ∧
      (s.l.codeLength < 32 → v.toNat = s.l.codeLength)) ∧
    (∃ v, exec (.statusRead .lTableLen) s = .next { s with reply := .value (.lTableLen v) } ∧
      (s.l.table.length < 65536 → v.toNat = s.l.table.length))

/-! ### Frames and whole-machine rules -/

/-- R27, R43, R50, R55, R58: what an LZW code leaves alone: engine H, the parameters, the input and every position in
it, the buffered bytes; every table index reads as before (unless the code is `CLR`), and the output only grows, by
nothing for `CLR` and `BAD`. Only `CLR` says that the pull goes on, and only `CLR` leaves the answer to the host. -/
def Obligations.LzwCodesKeepEverythingElse : Prop :=
  ∀ (i : Instr) (s t : State), i.isCode = true → exec i s = .next t →
    t.h = s.h ∧ t.agenda = s.agenda ∧
    t.l.blockMode = s.l.blockMode ∧ t.l.maxCodeLength = s.l.maxCodeLength ∧ t.l.payload = s.l.payload ∧
    t.l.pcur = s.l.pcur ∧ t.l.group = s.l.group ∧ t.l.gpos = s.l.gpos ∧ t.l.seam = s.l.seam ∧
    t.l.codes = s.l.codes ∧ t.l.ccur = s.l.ccur ∧
    (i ≠ .clr → ∀ k, k < s.l.table.length → t.l.tableRead k = s.l.tableRead k) ∧
    (t.l.out = s.l.out ∨ ∃ chunk, t.l.out = s.l.out ++ [chunk]) ∧
    (i = .clr ∨ (∃ c, i = .bad c) → t.l.out = s.l.out) ∧
    (i = .clr → t.l.ctl = s.l.ctl ∧ t.reply = s.reply) ∧ (i ≠ .clr → t.task = s.task) ∧
    ((∃ c, i = .bad c) → t.l.table = s.l.table ∧ t.l.codeLength = s.l.codeLength ∧
      t.l.lastChunk = s.l.lastChunk ∧ t.l.gvalid = s.l.gvalid)

/-- R57, R43, R190: what a Huffman bit and a builder slot leave alone: engine L, the level table, the tree, the payload
and every position in it; a bit leaves the builder, a slot leaves the status, the traversal and the output. -/
def Obligations.HuffmanBitsAndSlotsKeepEverythingElse : Prop :=
  ∀ (i : Instr) (s t : State),
    (i = .left ∨ i = .right ∨ i = .slotPlaceholder ∨ (∃ b, i = .slotLeaf b) ∨ i = .slotEof) →
    exec i s = .next t →
    t.l = s.l ∧ t.agenda = s.agenda ∧ t.h.levels = s.h.levels ∧ t.h.tree = s.h.tree ∧ t.h.payload = s.h.payload ∧
    t.h.pcur = s.h.pcur ∧ t.h.cur = s.h.cur ∧ t.h.bleft = s.h.bleft ∧ t.h.ctl.err = s.h.ctl.err ∧
    (i = .left ∨ i = .right → t.h.builder = s.h.builder ∧
      (t.h.out = s.h.out ∨ ∃ b, t.h.out = s.h.out ++ [b]) ∧
      (t.task = s.task ∨ t.task = some (.pull .h) ∧ t.reply = s.reply)) ∧
    (i ≠ .left → i ≠ .right → t.h.ctl = s.h.ctl ∧ t.h.node = s.h.node ∧ t.h.out = s.h.out ∧ t.reply = s.reply ∧
      t.task = s.task ∧ t.h.builder.slots = s.h.builder.slots ∧ t.h.builder.cur = s.h.builder.cur ∧
      t.h.builder.count = s.h.builder.count ∧ t.h.builder.reading = s.h.builder.reading)

/-- R43: an instruction of one engine reads and writes no element of the other: what it does to its own engine, and
what it answers, is the same whatever the other engine holds. -/
def Obligations.EnginesShareNoState : Prop :=
  ∀ (i : Instr) (s t : State),
    (i.onL = true → exec i s = .next t → t.h = s.h ∧ t.agenda = s.agenda ∧
      ∀ h, exec i { s with h := h } = .next { t with h := h }) ∧
    (i.onH = true → exec i s = .next t → t.l = s.l ∧ t.agenda = s.agenda ∧
      ∀ l, exec i { s with l := l } = .next { t with l := l })

/-- R9: an instruction of engine L and one of engine H can be issued in either order, with the same two engines in the
end. -/
def Obligations.StepsOfTheTwoEnginesCommute : Prop :=
  ∀ (i j : Instr) (s a b : State), i.onL = true → j.onH = true → exec i s = .next a → exec j a = .next b →
    ∃ c d, exec j s = .next c ∧ exec i c = .next d ∧ d.l = b.l ∧ d.h = b.h ∧ d.agenda = b.agenda

/-- R29, R51, R209, R33: except by their `Start`, the parameters and the input of a running instance never change: not
by any instruction, a whole pull or a whole decode included; nor does the Huffman tree. -/
def Obligations.OnlyStartWritesParametersInputAndTree : Prop :=
  ∀ (i : Instr) (s t : State), exec i s = .next t →
    (i.startsL = false → t.l.blockMode = s.l.blockMode ∧ t.l.maxCodeLength = s.l.maxCodeLength ∧
      t.l.payload = s.l.payload ∧ t.l.codes = s.l.codes ∧ t.l.seam = s.l.seam) ∧
    (i.startsH = false → t.h.levels = s.h.levels ∧ t.h.tree = s.h.tree ∧ t.h.payload = s.h.payload)

/-- R40, R52, R120: except by a `Start` of the engine or by hardware reset, no instruction and no step moves a stream
position backwards: for engine L the cursor and the position in the buffered group, for engine H the cursor and the bits
left of the byte being consumed, and in the test seam the number of codes taken; and a cursor within its input stays
within it. -/
def Obligations.StreamPositionsNeverMoveBack : Prop :=
  ∀ s t : State,
    (∀ i : Instr, exec i s = .next t →
      (i.startsL = false → s.l.consumed ≤ t.l.consumed ∧ s.l.pcur ≤ t.l.pcur ∧ s.l.ccur ≤ t.l.ccur ∧
        (s.l.pcur ≤ s.l.payload.length → t.l.pcur ≤ t.l.payload.length) ∧
        (s.l.ccur ≤ s.l.codes.length → t.l.ccur ≤ t.l.codes.length)) ∧
      (i.startsH = false → s.h.consumed ≤ t.h.consumed ∧ s.h.pcur ≤ t.h.pcur ∧
        (s.h.pcur ≤ s.h.payload.length → t.h.pcur ≤ t.h.payload.length))) ∧
    (step s = .next t →
      (s.replacesL = false → s.l.consumed ≤ t.l.consumed ∧ s.l.pcur ≤ t.l.pcur ∧ s.l.ccur ≤ t.l.ccur ∧
        (s.l.pcur ≤ s.l.payload.length → t.l.pcur ≤ t.l.payload.length) ∧
        (s.l.ccur ≤ s.l.codes.length → t.l.ccur ≤ t.l.codes.length)) ∧
      (s.replacesH = false → s.h.consumed ≤ t.h.consumed ∧ s.h.pcur ≤ t.h.pcur ∧
        (s.h.pcur ≤ s.h.payload.length → t.h.pcur ≤ t.h.payload.length)))

/-- R58, R226: what has been emitted stays: except by their `Start`, no instruction withdraws or changes anything of an
output stream. -/
def Obligations.EmittedPrefixStands : Prop :=
  ∀ (i : Instr) (s t : State), exec i s = .next t →
    (i.startsL = false → s.l.out <+: t.l.out) ∧ (i.startsH = false → s.h.out <+: t.h.out)

/-- R30, R206, R225, R231: `DONE` and `FAULT` are left only by `Start` or hardware reset, and until then nothing of the
engine changes (the builder apart, R37). -/
def Obligations.OnlyStartOrResetLeavesDoneOrFault : Prop :=
  ∀ s t : State, step s = .next t →
    (s.l.ctl.status = .done ∨ s.l.ctl.status = .fault → t.l = s.l ∨ s.replacesL = true) ∧
    (s.h.ctl.status = .done ∨ s.h.ctl.status = .fault → t.h = { s.h with builder := t.h.builder } ∨
      s.replacesH = true)

/-! ### The step -/

/-- The step runs the instruction it fetches, on the state with what the fetch consumes consumed: the class of the next
LZW code or the next Huffman bit in a step of a pull, the builder's next slot in an `H.Start` that is carried out slot by
slot, a host transaction when no operation is in progress. With none in progress and nothing to come, nothing happens; a
hardware reset puts both engines in their reset state. The agenda and the task in progress are the model's own
(notes/assumptions/1.md); of the state after hardware reset only the statuses and the errors are the spec's (R250), the
other values are the model's choice (notes/assumptions/4.md, and 3.md for the counters of free values). -/
def Obligations.StepRunsTheDecodedInstruction : Prop :=
  ∀ (s s' : State) (rest : List Turn),
    (∀ l c, s.pullStep = some (.l, s') → s.l.ctl.status = .run → s.l.nextCode = (l, .code c) →
      step s = exec (decodeCode l.blockMode l.table.length c) { s' with l := l }) ∧
    (∀ h b, s.pullStep = some (.h, s') → s.h.ctl.status = .run → s.h.readBit = some (h, b) →
      step s = exec (decodeBit b) { s' with h := h }) ∧
    (∀ levels payload k b, s.task = some (.build levels payload) → s.h.builder.takeSlot = some (k, b) →
      step s = exec (decodeSlot k) { s with h := { s.h with builder := b } }) ∧
    (∀ op, s.task = none → s.agenda = .host op :: rest → step s = exec (decodeOp op) { s with agenda := rest }) ∧
    (s.task = none → s.agenda = .hardReset :: rest →
      step s = .next
        { s with
          l := { EngineL.reset with draws := s.l.draws }
          h := { EngineH.reset with draws := s.h.draws }
          agenda := rest }) ∧
    (s.task = none → s.agenda = [] → step s = .next s)

/-- R202, R203, R165, R236, R265: a step of a pull is one step of its engine, `L.Step()` or `H.Step()`; the pull is complete
with the step's reply, and goes on after a silent step. So a pull carried out step by step, and an `H.Start` carried out
slot by slot, with nothing between its steps, come in the end to what the one transition comes to. (Carrying an operation
out in several steps is the model's own, notes/assumptions/1.md.) -/
def Obligations.EngineTurnIsOneStepOfThePull : Prop :=
  ∀ s : State,
    (∀ s', s.pullStep = some (.l, s') → s.l.Ok → s.l.ctl.status = .run →
      ∃ l r, stepL s.l = .next (l, r) ∧
        (r = .silent → step s = .next { s' with l := l, task := some (.pull .l) }) ∧
        (∀ answer, replyL l r = some answer → step s = .next { s' with l := l, reply := answer })) ∧
    (∀ s', s.pullStep = some (.h, s') → s.h.Ok → s.h.ctl.status = .run →
      ∃ h r, stepH s.h = .next (h, r) ∧
        (r = .silent → step s = .next { s' with h := h, task := some (.pull .h) }) ∧
        (∀ answer, replyH h r = some answer → step s = .next { s' with h := h, reply := answer })) ∧
    (∀ e rest, s.Inv → s.task = none → s.agenda = .stepwise (.pull e) :: rest →
      ∃ n t u, step s = .next t ∧ finishTask n t = some u ∧ exec (.pull e) { s with agenda := rest } = .next u) ∧
    (∀ levels payload rest, s.task = none → s.agenda = .stepwise (.build levels payload) :: rest →
      ∃ n t u, step s = .next t ∧ finishTask n t = some u ∧
        exec (.hStart levels payload) { s with agenda := rest } = .next u)

/-- R250, R45: after hardware reset both engines are `IDLE` without an error, and the invariant holds. -/
def Obligations.ResetMeetsTheInvariant : Prop :=
  State.reset.Inv ∧ Memory.wf State.reset = true ∧
    State.reset.l.ctl = { status := .idle, err := none } ∧ State.reset.h.ctl = { status := .idle, err := none } ∧
    ∀ s : State, s.hardReset.l.ctl = { status := .idle, err := none } ∧
      s.hardReset.h.ctl = { status := .idle, err := none }

/-- R24, R22, R26, R28, R33, R34, R44, R145, R165: every step keeps the invariant, and the storage spaces well formed; an
`H.Start` carried out slot by slot (notes/assumptions/1.md) keeps its builder in the assembly of its level table. -/
def Obligations.EveryStepKeepsTheInvariant : Prop :=
  ∀ s t : State, s.Inv → step s = .next t → t.Inv ∧ Memory.wf t = true

/-- R202, R222, R223: from every state that meets the invariant the next step answers a next state: no payload, level
table or code, however malformed, stops the machine. -/
def Obligations.NoStepFromTheInvariantStops : Prop :=
  ∀ s : State, s.Inv → ∃ t, step s = .next t

/-- R10, S1: decoding the same payload with the same parameters gives the same answer and the same output, whatever
the engine did before. -/
def Obligations.DecodingIsDeterministic : Prop :=
  ∀ (s s' t t' : State) (i : Instr) (e : Engine),
    (e = .l ∧ i.startsL = true ∨ e = .h ∧ i.startsH = true) →
    exec i s = .next t → exec i s' = .next t' → t.reply = .started →
    ∃ u u', exec (.decodeAll e) t = .next u ∧ exec (.decodeAll e) t' = .next u' ∧ u.reply = u'.reply ∧
      (e = .l → u.l.out = u'.l.out ∧ u.l.table = u'.l.table) ∧ (e = .h → u.h.out = u'.h.out)

/-- R208: decoding a payload made of whole groups, whether it ends normally or in a FormatError, gives the same answer,
output and final DecoderState as the test seam on the sequence of the codes it decodes, a code that faults among them. -/
def Obligations.SeamEqualsThePackedForm : Prop :=
  ∀ (s t u : State) (blockMode : Bool) (m : Nat) (payload : Bytes),
    exec (.lStart blockMode m payload) s = .next t → exec (.decodeAll .l) t = .next u →
    u.reply ≠ .error (some { kind := .unexpectedEndOfStream, cause := .truncatedGroup }) →
    ∃ t' u', exec (.lStartCodes blockMode m (codesRead t.l.budget t.l)) s = .next t' ∧
      exec (.decodeAll .l) t' = .next u' ∧ u'.reply = u.reply ∧ u'.l.ctl = u.l.ctl ∧ u'.l.out = u.l.out ∧
      u'.l.table = u.l.table ∧ u'.l.codeLength = u.l.codeLength ∧ u'.l.lastChunk = u.l.lastChunk
end

