-- ==== Sys2Proof/Laws/State.lean ====
section
/-! SUPPORT. One lemma per field per update of the state, so that no proof unfolds a record update. -/

namespace Sys2Proof.Machine

/-! ### The machine -/

@[simp] theorem State.setL_l (s : State) (l : EngineL) : (s.setL l).l = l := rfl

@[simp] theorem State.setL_h (s : State) (l : EngineL) : (s.setL l).h = s.h := rfl

@[simp] theorem State.setL_agenda (s : State) (l : EngineL) : (s.setL l).agenda = s.agenda := rfl

@[simp] theorem State.setL_task (s : State) (l : EngineL) : (s.setL l).task = s.task := rfl

@[simp] theorem State.setL_reply (s : State) (l : EngineL) : (s.setL l).reply = s.reply := rfl

@[simp] theorem State.setL_setL (s : State) (l l' : EngineL) : (s.setL l).setL l' = s.setL l' := rfl

@[simp] theorem State.setH_l (s : State) (h : EngineH) : (s.setH h).l = s.l := rfl

@[simp] theorem State.setH_h (s : State) (h : EngineH) : (s.setH h).h = h := rfl

@[simp] theorem State.setH_agenda (s : State) (h : EngineH) : (s.setH h).agenda = s.agenda := rfl

@[simp] theorem State.setH_task (s : State) (h : EngineH) : (s.setH h).task = s.task := rfl

@[simp] theorem State.setH_reply (s : State) (h : EngineH) : (s.setH h).reply = s.reply := rfl

@[simp] theorem State.setH_setH (s : State) (h h' : EngineH) : (s.setH h).setH h' = s.setH h' := rfl

@[simp] theorem State.setReply_l (s : State) (r : Reply) : (s.setReply r).l = s.l := rfl

@[simp] theorem State.setReply_h (s : State) (r : Reply) : (s.setReply r).h = s.h := rfl

@[simp] theorem State.setReply_agenda (s : State) (r : Reply) : (s.setReply r).agenda = s.agenda := rfl

@[simp] theorem State.setReply_task (s : State) (r : Reply) : (s.setReply r).task = s.task := rfl

@[simp] theorem State.setReply_reply (s : State) (r : Reply) : (s.setReply r).reply = r := rfl

@[simp] theorem State.setReply_setReply (s : State) (r r' : Reply) : (s.setReply r).setReply r' = s.setReply r' := rfl

@[simp] theorem State.setAgenda_l (s : State) (a : List Turn) : (s.setAgenda a).l = s.l := rfl

@[simp] theorem State.setAgenda_h (s : State) (a : List Turn) : (s.setAgenda a).h = s.h := rfl

@[simp] theorem State.setAgenda_agenda (s : State) (a : List Turn) : (s.setAgenda a).agenda = a := rfl

@[simp] theorem State.setAgenda_task (s : State) (a : List Turn) : (s.setAgenda a).task = s.task := rfl

@[simp] theorem State.setAgenda_reply (s : State) (a : List Turn) : (s.setAgenda a).reply = s.reply := rfl

@[simp] theorem State.setAgenda_setAgenda (s : State) (a a' : List Turn) : (s.setAgenda a).setAgenda a' = s.setAgenda a' := rfl

@[simp] theorem State.setTask_l (s : State) (t : Option Task) : (s.setTask t).l = s.l := rfl

@[simp] theorem State.setTask_h (s : State) (t : Option Task) : (s.setTask t).h = s.h := rfl

@[simp] theorem State.setTask_agenda (s : State) (t : Option Task) : (s.setTask t).agenda = s.agenda := rfl

@[simp] theorem State.setTask_task (s : State) (t : Option Task) : (s.setTask t).task = t := rfl

@[simp] theorem State.setTask_reply (s : State) (t : Option Task) : (s.setTask t).reply = s.reply := rfl

@[simp] theorem State.setTask_setTask (s : State) (t t' : Option Task) : (s.setTask t).setTask t' = s.setTask t' := rfl

@[simp] theorem State.settle_some (s : State) (e : Engine) (r : Reply) : s.settle e (some r) = s.setReply r := rfl

@[simp] theorem State.settle_none (s : State) (e : Engine) : s.settle e none = s.setTask (some (.pull e)) := rfl

@[simp] theorem State.settle_l (s : State) (e : Engine) (r : Option Reply) : (s.settle e r).l = s.l := by
  cases r <;> rfl

@[simp] theorem State.settle_h (s : State) (e : Engine) (r : Option Reply) : (s.settle e r).h = s.h := by
  cases r <;> rfl

@[simp] theorem State.settle_agenda (s : State) (e : Engine) (r : Option Reply) : (s.settle e r).agenda = s.agenda := by
  cases r <;> rfl

@[simp] theorem State.hardReset_l (s : State) : s.hardReset.l = { EngineL.reset with draws := s.l.draws } := rfl

@[simp] theorem State.hardReset_h (s : State) : s.hardReset.h = { EngineH.reset with draws := s.h.draws } := rfl

@[simp] theorem State.hardReset_agenda (s : State) : s.hardReset.agenda = s.agenda := rfl

@[simp] theorem State.hardReset_task (s : State) : s.hardReset.task = none := rfl

@[simp] theorem State.hardReset_reply (s : State) : s.hardReset.reply = s.reply := rfl

/-! ### Engine status -/

@[simp] theorem Control.raise_status (c : Control) (k : ErrKind) (x : Cause) : (c.raise k x).status = .fault := rfl

@[simp] theorem Control.raise_err (c : Control) (k : ErrKind) (x : Cause) : (c.raise k x).err = some { kind := k, cause := x } := rfl

@[simp] theorem Control.start_status (c : Control) : c.start.status = .run := rfl

@[simp] theorem Control.start_err (c : Control) : c.start.err = none := rfl

@[simp] theorem Control.finish_status (c : Control) : c.finish.status = .done := rfl

@[simp] theorem Control.finish_err (c : Control) : c.finish.err = c.err := rfl

/-! ### Engine L -/

@[simp] theorem EngineL.raise_ctl (l : EngineL) (k : ErrKind) (x : Cause) : (l.raise k x).ctl = l.ctl.raise k x := rfl

@[simp] theorem EngineL.raise_blockMode (l : EngineL) (k : ErrKind) (x : Cause) : (l.raise k x).blockMode = l.blockMode := rfl

@[simp] theorem EngineL.raise_maxCodeLength (l : EngineL) (k : ErrKind) (x : Cause) : (l.raise k x).maxCodeLength = l.maxCodeLength := rfl

@[simp] theorem EngineL.raise_codeLength (l : EngineL) (k : ErrKind) (x : Cause) : (l.raise k x).codeLength = l.codeLength := rfl

@[simp] theorem EngineL.raise_table (l : EngineL) (k : ErrKind) (x : Cause) : (l.raise k x).table = l.table := rfl

@[simp] theorem EngineL.raise_lastChunk (l : EngineL) (k : ErrKind) (x : Cause) : (l.raise k x).lastChunk = l.lastChunk := rfl

@[simp] theorem EngineL.raise_gvalid (l : EngineL) (k : ErrKind) (x : Cause) : (l.raise k x).gvalid = l.gvalid := rfl

@[simp] theorem EngineL.raise_group (l : EngineL) (k : ErrKind) (x : Cause) : (l.raise k x).group = l.group := rfl

@[simp] theorem EngineL.raise_gpos (l : EngineL) (k : ErrKind) (x : Cause) : (l.raise k x).gpos = l.gpos := rfl

@[simp] theorem EngineL.raise_payload (l : EngineL) (k : ErrKind) (x : Cause) : (l.raise k x).payload = l.payload := rfl

@[simp] theorem EngineL.raise_pcur (l : EngineL) (k : ErrKind) (x : Cause) : (l.raise k x).pcur = l.pcur := rfl

@[simp] theorem EngineL.raise_out (l : EngineL) (k : ErrKind) (x : Cause) : (l.raise k x).out = l.out := rfl

@[simp] theorem EngineL.raise_seam (l : EngineL) (k : ErrKind) (x : Cause) : (l.raise k x).seam = l.seam := rfl

@[simp] theorem EngineL.raise_codes (l : EngineL) (k : ErrKind) (x : Cause) : (l.raise k x).codes = l.codes := rfl

@[simp] theorem EngineL.raise_ccur (l : EngineL) (k : ErrKind) (x : Cause) : (l.raise k x).ccur = l.ccur := rfl

@[simp] theorem EngineL.raise_draws (l : EngineL) (k : ErrKind) (x : Cause) : (l.raise k x).draws = l.draws := rfl

@[simp] theorem EngineL.finish_ctl (l : EngineL) : (l.finish).ctl = l.ctl.finish := rfl

@[simp] theorem EngineL.finish_blockMode (l : EngineL) : (l.finish).blockMode = l.blockMode := rfl

@[simp] theorem EngineL.finish_maxCodeLength (l : EngineL) : (l.finish).maxCodeLength = l.maxCodeLength := rfl

@[simp] theorem EngineL.finish_codeLength (l : EngineL) : (l.finish).codeLength = l.codeLength := rfl

@[simp] theorem EngineL.finish_table (l : EngineL) : (l.finish).table = l.table := rfl

@[simp] theorem EngineL.finish_lastChunk (l : EngineL) : (l.finish).lastChunk = l.lastChunk := rfl

@[simp] theorem EngineL.finish_gvalid (l : EngineL) : (l.finish).gvalid = l.gvalid := rfl

@[simp] theorem EngineL.finish_group (l : EngineL) : (l.finish).group = l.group := rfl

@[simp] theorem EngineL.finish_gpos (l : EngineL) : (l.finish).gpos = l.gpos := rfl

@[simp] theorem EngineL.finish_payload (l : EngineL) : (l.finish).payload = l.payload := rfl

@[simp] theorem EngineL.finish_pcur (l : EngineL) : (l.finish).pcur = l.pcur := rfl

@[simp] theorem EngineL.finish_out (l : EngineL) : (l.finish).out = l.out := rfl

@[simp] theorem EngineL.finish_seam (l : EngineL) : (l.finish).seam = l.seam := rfl

@[simp] theorem EngineL.finish_codes (l : EngineL) : (l.finish).codes = l.codes := rfl

@[simp] theorem EngineL.finish_ccur (l : EngineL) : (l.finish).ccur = l.ccur := rfl

@[simp] theorem EngineL.finish_draws (l : EngineL) : (l.finish).draws = l.draws := rfl

@[simp] theorem EngineL.tableAppend_ctl (l : EngineL) (s : Bytes) : (l.tableAppend s).ctl = l.ctl := rfl

@[simp] theorem EngineL.tableAppend_blockMode (l : EngineL) (s : Bytes) : (l.tableAppend s).blockMode = l.blockMode := rfl

@[simp] theorem EngineL.tableAppend_maxCodeLength (l : EngineL) (s : Bytes) : (l.tableAppend s).maxCodeLength = l.maxCodeLength := rfl

@[simp] theorem EngineL.tableAppend_codeLength (l : EngineL) (s : Bytes) : (l.tableAppend s).codeLength = l.codeLength := rfl

@[simp] theorem EngineL.tableAppend_table (l : EngineL) (s : Bytes) : (l.tableAppend s).table = l.table ++ [.bytes s] := rfl

@[simp] theorem EngineL.tableAppend_lastChunk (l : EngineL) (s : Bytes) : (l.tableAppend s).lastChunk = l.lastChunk := rfl

@[simp] theorem EngineL.tableAppend_gvalid (l : EngineL) (s : Bytes) : (l.tableAppend s).gvalid = l.gvalid := rfl

@[simp] theorem EngineL.tableAppend_group (l : EngineL) (s : Bytes) : (l.tableAppend s).group = l.group := rfl

@[simp] theorem EngineL.tableAppend_gpos (l : EngineL) (s : Bytes) : (l.tableAppend s).gpos = l.gpos := rfl

@[simp] theorem EngineL.tableAppend_payload (l : EngineL) (s : Bytes) : (l.tableAppend s).payload = l.payload := rfl

@[simp] theorem EngineL.tableAppend_pcur (l : EngineL) (s : Bytes) : (l.tableAppend s).pcur = l.pcur := rfl

@[simp] theorem EngineL.tableAppend_out (l : EngineL) (s : Bytes) : (l.tableAppend s).out = l.out := rfl

@[simp] theorem EngineL.tableAppend_seam (l : EngineL) (s : Bytes) : (l.tableAppend s).seam = l.seam := rfl

@[simp] theorem EngineL.tableAppend_codes (l : EngineL) (s : Bytes) : (l.tableAppend s).codes = l.codes := rfl

@[simp] theorem EngineL.tableAppend_ccur (l : EngineL) (s : Bytes) : (l.tableAppend s).ccur = l.ccur := rfl

@[simp] theorem EngineL.tableAppend_draws (l : EngineL) (s : Bytes) : (l.tableAppend s).draws = l.draws := rfl

@[simp] theorem EngineL.lzwInit_ctl (l : EngineL) : (l.lzwInit).ctl = l.ctl := rfl

@[simp] theorem EngineL.lzwInit_blockMode (l : EngineL) : (l.lzwInit).blockMode = l.blockMode := rfl

@[simp] theorem EngineL.lzwInit_maxCodeLength (l : EngineL) : (l.lzwInit).maxCodeLength = l.maxCodeLength := rfl

@[simp] theorem EngineL.lzwInit_codeLength (l : EngineL) : (l.lzwInit).codeLength = initCodeLength := rfl

@[simp] theorem EngineL.lzwInit_table (l : EngineL) : (l.lzwInit).table = initialTable l.blockMode := rfl

@[simp] theorem EngineL.lzwInit_lastChunk (l : EngineL) : (l.lzwInit).lastChunk = none := rfl

@[simp] theorem EngineL.lzwInit_gvalid (l : EngineL) : (l.lzwInit).gvalid = l.gvalid := rfl

@[simp] theorem EngineL.lzwInit_group (l : EngineL) : (l.lzwInit).group = l.group := rfl

@[simp] theorem EngineL.lzwInit_gpos (l : EngineL) : (l.lzwInit).gpos = l.gpos := rfl

@[simp] theorem EngineL.lzwInit_payload (l : EngineL) : (l.lzwInit).payload = l.payload := rfl

@[simp] theorem EngineL.lzwInit_pcur (l : EngineL) : (l.lzwInit).pcur = l.pcur := rfl

@[simp] theorem EngineL.lzwInit_out (l : EngineL) : (l.lzwInit).out = l.out := rfl

@[simp] theorem EngineL.lzwInit_seam (l : EngineL) : (l.lzwInit).seam = l.seam := rfl

@[simp] theorem EngineL.lzwInit_codes (l : EngineL) : (l.lzwInit).codes = l.codes := rfl

@[simp] theorem EngineL.lzwInit_ccur (l : EngineL) : (l.lzwInit).ccur = l.ccur := rfl

@[simp] theorem EngineL.lzwInit_draws (l : EngineL) : (l.lzwInit).draws = l.draws := rfl

@[simp] theorem EngineL.emit_ctl (l : EngineL) (s : Bytes) : (l.emit s).ctl = l.ctl := rfl

@[simp] theorem EngineL.emit_blockMode (l : EngineL) (s : Bytes) : (l.emit s).blockMode = l.blockMode := rfl

@[simp] theorem EngineL.emit_maxCodeLength (l : EngineL) (s : Bytes) : (l.emit s).maxCodeLength = l.maxCodeLength := rfl

@[simp] theorem EngineL.emit_codeLength (l : EngineL) (s : Bytes) : (l.emit s).codeLength = l.codeLength := rfl

@[simp] theorem EngineL.emit_table (l : EngineL) (s : Bytes) : (l.emit s).table = l.table := rfl

@[simp] theorem EngineL.emit_lastChunk (l : EngineL) (s : Bytes) : (l.emit s).lastChunk = l.lastChunk := rfl

@[simp] theorem EngineL.emit_gvalid (l : EngineL) (s : Bytes) : (l.emit s).gvalid = l.gvalid := rfl

@[simp] theorem EngineL.emit_group (l : EngineL) (s : Bytes) : (l.emit s).group = l.group := rfl

@[simp] theorem EngineL.emit_gpos (l : EngineL) (s : Bytes) : (l.emit s).gpos = l.gpos := rfl

@[simp] theorem EngineL.emit_payload (l : EngineL) (s : Bytes) : (l.emit s).payload = l.payload := rfl

@[simp] theorem EngineL.emit_pcur (l : EngineL) (s : Bytes) : (l.emit s).pcur = l.pcur := rfl

@[simp] theorem EngineL.emit_out (l : EngineL) (s : Bytes) : (l.emit s).out = l.out ++ [s] := rfl

@[simp] theorem EngineL.emit_seam (l : EngineL) (s : Bytes) : (l.emit s).seam = l.seam := rfl

@[simp] theorem EngineL.emit_codes (l : EngineL) (s : Bytes) : (l.emit s).codes = l.codes := rfl

@[simp] theorem EngineL.emit_ccur (l : EngineL) (s : Bytes) : (l.emit s).ccur = l.ccur := rfl

@[simp] theorem EngineL.emit_draws (l : EngineL) (s : Bytes) : (l.emit s).draws = l.draws := rfl

@[simp] theorem EngineL.remember_ctl (l : EngineL) (s : Bytes) : (l.remember s).ctl = l.ctl := rfl

@[simp] theorem EngineL.remember_blockMode (l : EngineL) (s : Bytes) : (l.remember s).blockMode = l.blockMode := rfl

@[simp] theorem EngineL.remember_maxCodeLength (l : EngineL) (s : Bytes) : (l.remember s).maxCodeLength = l.maxCodeLength := rfl

@[simp] theorem EngineL.remember_codeLength (l : EngineL) (s : Bytes) : (l.remember s).codeLength = l.codeLength := rfl

@[simp] theorem EngineL.remember_table (l : EngineL) (s : Bytes) : (l.remember s).table = l.table := rfl

@[simp] theorem EngineL.remember_lastChunk (l : EngineL) (s : Bytes) : (l.remember s).lastChunk = some s := rfl

@[simp] theorem EngineL.remember_gvalid (l : EngineL) (s : Bytes) : (l.remember s).gvalid = l.gvalid := rfl

@[simp] theorem EngineL.remember_group (l : EngineL) (s : Bytes) : (l.remember s).group = l.group := rfl

@[simp] theorem EngineL.remember_gpos (l : EngineL) (s : Bytes) : (l.remember s).gpos = l.gpos := rfl

@[simp] theorem EngineL.remember_payload (l : EngineL) (s : Bytes) : (l.remember s).payload = l.payload := rfl

@[simp] theorem EngineL.remember_pcur (l : EngineL) (s : Bytes) : (l.remember s).pcur = l.pcur := rfl

@[simp] theorem EngineL.remember_out (l : EngineL) (s : Bytes) : (l.remember s).out = l.out := rfl

@[simp] theorem EngineL.remember_seam (l : EngineL) (s : Bytes) : (l.remember s).seam = l.seam := rfl

@[simp] theorem EngineL.remember_codes (l : EngineL) (s : Bytes) : (l.remember s).codes = l.codes := rfl

@[simp] theorem EngineL.remember_ccur (l : EngineL) (s : Bytes) : (l.remember s).ccur = l.ccur := rfl

@[simp] theorem EngineL.remember_draws (l : EngineL) (s : Bytes) : (l.remember s).draws = l.draws := rfl

/-! ### Engine H -/

@[simp] theorem EngineH.raise_ctl (h : EngineH) (k : ErrKind) (x : Cause) : (h.raise k x).ctl = h.ctl.raise k x := rfl

@[simp] theorem EngineH.raise_levels (h : EngineH) (k : ErrKind) (x : Cause) : (h.raise k x).levels = h.levels := rfl

@[simp] theorem EngineH.raise_tree (h : EngineH) (k : ErrKind) (x : Cause) : (h.raise k x).tree = h.tree := rfl

@[simp] theorem EngineH.raise_node (h : EngineH) (k : ErrKind) (x : Cause) : (h.raise k x).node = h.node := rfl

@[simp] theorem EngineH.raise_cur (h : EngineH) (k : ErrKind) (x : Cause) : (h.raise k x).cur = h.cur := rfl

@[simp] theorem EngineH.raise_bleft (h : EngineH) (k : ErrKind) (x : Cause) : (h.raise k x).bleft = h.bleft := rfl

@[simp] theorem EngineH.raise_payload (h : EngineH) (k : ErrKind) (x : Cause) : (h.raise k x).payload = h.payload := rfl

@[simp] theorem EngineH.raise_pcur (h : EngineH) (k : ErrKind) (x : Cause) : (h.raise k x).pcur = h.pcur := rfl

@[simp] theorem EngineH.raise_out (h : EngineH) (k : ErrKind) (x : Cause) : (h.raise k x).out = h.out := rfl

@[simp] theorem EngineH.raise_builder (h : EngineH) (k : ErrKind) (x : Cause) : (h.raise k x).builder = h.builder := rfl

@[simp] theorem EngineH.raise_draws (h : EngineH) (k : ErrKind) (x : Cause) : (h.raise k x).draws = h.draws := rfl

@[simp] theorem EngineH.finish_ctl (h : EngineH) : (h.finish).ctl = h.ctl.finish := rfl

@[simp] theorem EngineH.finish_levels (h : EngineH) : (h.finish).levels = h.levels := rfl

@[simp] theorem EngineH.finish_tree (h : EngineH) : (h.finish).tree = h.tree := rfl

@[simp] theorem EngineH.finish_node (h : EngineH) : (h.finish).node = h.node := rfl

@[simp] theorem EngineH.finish_cur (h : EngineH) : (h.finish).cur = h.cur := rfl

@[simp] theorem EngineH.finish_bleft (h : EngineH) : (h.finish).bleft = h.bleft := rfl

@[simp] theorem EngineH.finish_payload (h : EngineH) : (h.finish).payload = h.payload := rfl

@[simp] theorem EngineH.finish_pcur (h : EngineH) : (h.finish).pcur = h.pcur := rfl

@[simp] theorem EngineH.finish_out (h : EngineH) : (h.finish).out = h.out := rfl

@[simp] theorem EngineH.finish_builder (h : EngineH) : (h.finish).builder = h.builder := rfl

@[simp] theorem EngineH.finish_draws (h : EngineH) : (h.finish).draws = h.draws := rfl

@[simp] theorem EngineH.emit_ctl (h : EngineH) (b : Byte) : (h.emit b).ctl = h.ctl := rfl

@[simp] theorem EngineH.emit_levels (h : EngineH) (b : Byte) : (h.emit b).levels = h.levels := rfl

@[simp] theorem EngineH.emit_tree (h : EngineH) (b : Byte) : (h.emit b).tree = h.tree := rfl

@[simp] theorem EngineH.emit_node (h : EngineH) (b : Byte) : (h.emit b).node = h.node := rfl

@[simp] theorem EngineH.emit_cur (h : EngineH) (b : Byte) : (h.emit b).cur = h.cur := rfl

@[simp] theorem EngineH.emit_bleft (h : EngineH) (b : Byte) : (h.emit b).bleft = h.bleft := rfl

@[simp] theorem EngineH.emit_payload (h : EngineH) (b : Byte) : (h.emit b).payload = h.payload := rfl

@[simp] theorem EngineH.emit_pcur (h : EngineH) (b : Byte) : (h.emit b).pcur = h.pcur := rfl

@[simp] theorem EngineH.emit_out (h : EngineH) (b : Byte) : (h.emit b).out = h.out ++ [b] := rfl

@[simp] theorem EngineH.emit_builder (h : EngineH) (b : Byte) : (h.emit b).builder = h.builder := rfl

@[simp] theorem EngineH.emit_draws (h : EngineH) (b : Byte) : (h.emit b).draws = h.draws := rfl

/-! ### Starts, successful and not: the definite elements -/

@[simp] theorem EngineL.fresh_ctl (l : EngineL) (bm : Bool) (m : Nat) (p : Bytes) (sm : Bool) (cs : List Nat) : (l.fresh bm m p sm cs).ctl = l.ctl.start := rfl

@[simp] theorem EngineL.fresh_blockMode (l : EngineL) (bm : Bool) (m : Nat) (p : Bytes) (sm : Bool) (cs : List Nat) : (l.fresh bm m p sm cs).blockMode = bm := rfl

@[simp] theorem EngineL.fresh_maxCodeLength (l : EngineL) (bm : Bool) (m : Nat) (p : Bytes) (sm : Bool) (cs : List Nat) : (l.fresh bm m p sm cs).maxCodeLength = m := rfl

@[simp] theorem EngineL.fresh_codeLength (l : EngineL) (bm : Bool) (m : Nat) (p : Bytes) (sm : Bool) (cs : List Nat) : (l.fresh bm m p sm cs).codeLength = initCodeLength := rfl

@[simp] theorem EngineL.fresh_table (l : EngineL) (bm : Bool) (m : Nat) (p : Bytes) (sm : Bool) (cs : List Nat) : (l.fresh bm m p sm cs).table = initialTable bm := rfl

@[simp] theorem EngineL.fresh_lastChunk (l : EngineL) (bm : Bool) (m : Nat) (p : Bytes) (sm : Bool) (cs : List Nat) : (l.fresh bm m p sm cs).lastChunk = none := rfl

@[simp] theorem EngineL.fresh_gvalid (l : EngineL) (bm : Bool) (m : Nat) (p : Bytes) (sm : Bool) (cs : List Nat) : (l.fresh bm m p sm cs).gvalid = false := rfl

@[simp] theorem EngineL.fresh_payload (l : EngineL) (bm : Bool) (m : Nat) (p : Bytes) (sm : Bool) (cs : List Nat) : (l.fresh bm m p sm cs).payload = p := rfl

@[simp] theorem EngineL.fresh_pcur (l : EngineL) (bm : Bool) (m : Nat) (p : Bytes) (sm : Bool) (cs : List Nat) : (l.fresh bm m p sm cs).pcur = 0 := rfl

@[simp] theorem EngineL.fresh_out (l : EngineL) (bm : Bool) (m : Nat) (p : Bytes) (sm : Bool) (cs : List Nat) : (l.fresh bm m p sm cs).out = [] := rfl

@[simp] theorem EngineL.fresh_seam (l : EngineL) (bm : Bool) (m : Nat) (p : Bytes) (sm : Bool) (cs : List Nat) : (l.fresh bm m p sm cs).seam = sm := rfl

@[simp] theorem EngineL.fresh_codes (l : EngineL) (bm : Bool) (m : Nat) (p : Bytes) (sm : Bool) (cs : List Nat) : (l.fresh bm m p sm cs).codes = cs := rfl

@[simp] theorem EngineL.fresh_ccur (l : EngineL) (bm : Bool) (m : Nat) (p : Bytes) (sm : Bool) (cs : List Nat) : (l.fresh bm m p sm cs).ccur = 0 := rfl

@[simp] theorem EngineH.fresh_ctl (h : EngineH) (lv : List Level) (t : Tree) (p : Bytes) : (h.fresh lv t p).ctl = h.ctl.start := rfl

@[simp] theorem EngineH.fresh_levels (h : EngineH) (lv : List Level) (t : Tree) (p : Bytes) : (h.fresh lv t p).levels = lv := rfl

@[simp] theorem EngineH.fresh_tree (h : EngineH) (lv : List Level) (t : Tree) (p : Bytes) : (h.fresh lv t p).tree = t := rfl

@[simp] theorem EngineH.fresh_node (h : EngineH) (lv : List Level) (t : Tree) (p : Bytes) : (h.fresh lv t p).node = t := rfl

@[simp] theorem EngineH.fresh_bleft (h : EngineH) (lv : List Level) (t : Tree) (p : Bytes) : (h.fresh lv t p).bleft = 0 := rfl

@[simp] theorem EngineH.fresh_payload (h : EngineH) (lv : List Level) (t : Tree) (p : Bytes) : (h.fresh lv t p).payload = p := rfl

@[simp] theorem EngineH.fresh_pcur (h : EngineH) (lv : List Level) (t : Tree) (p : Bytes) : (h.fresh lv t p).pcur = 0 := rfl

@[simp] theorem EngineH.fresh_out (h : EngineH) (lv : List Level) (t : Tree) (p : Bytes) : (h.fresh lv t p).out = [] := rfl

@[simp] theorem EngineH.fresh_builder (h : EngineH) (lv : List Level) (t : Tree) (p : Bytes) : (h.fresh lv t p).builder = Builder.unused := rfl

@[simp] theorem EngineL.lost_ctl (l : EngineL) : l.lost.ctl = l.ctl := rfl

@[simp] theorem EngineL.lost_out (l : EngineL) : l.lost.out = [] := rfl

@[simp] theorem EngineH.lost_ctl (h : EngineH) : h.lost.ctl = h.ctl := rfl

@[simp] theorem EngineH.lost_out (h : EngineH) : h.lost.out = [] := rfl

@[simp] theorem EngineH.lost_levels (h : EngineH) : h.lost.levels = h.levels := rfl

end Sys2Proof.Machine
end

