-- ==== Sys2Proof/Laws/Lzw.lean ====
section
/-! SUPPORT. What the actions of engine L can do: one spec lemma each, cited instead of unfolding. -/

namespace Sys2Proof.Machine

/-! ### Small operations -/

theorem EngineL.append_eq (l : EngineL) (b : Byte) : l.append b = { l with table := tableAfter l b } := by
  obtain ⟨_, _, mx, _, tb, lc, _, _, _, _, _, _, _, _, _, _⟩ := l
  cases lc with
  | none => rfl
  | some p =>
    by_cases hr : tb.length < 2 ^ mx - 1 <;>
      simp [EngineL.append, tableAfter, EngineL.tableHasRoom, hr, EngineL.tableAppend, appendedEntry]

theorem EngineL.discardGroup_eq (l : EngineL) :
    l.discardGroup = { l with gvalid := if l.seam then l.gvalid else false } := by
  obtain ⟨_, _, _, _, _, _, _, _, _, _, _, _, sm, _, _, _⟩ := l
  cases sm <;> rfl

theorem EngineL.grow_eq (l : EngineL) :
    l.grow = { l with
      codeLength := if l.mustGrow then l.codeLength + 1 else l.codeLength
      gvalid := if l.mustGrow ∧ l.seam = false then false else l.gvalid } := by
  unfold EngineL.grow
  cases hg : l.mustGrow with
  | false => simp
  | true => cases l.seam <;> simp [EngineL.discardGroup_eq]

/-- R138 to R141: the four actions of an emitting step, as one record update. -/
theorem EngineL.emitStep_eq (l : EngineL) (chunk : Bytes) (b : Byte) : l.emitStep chunk b = l.afterEmit chunk b := by
  have ht : tableAfter (l.emit chunk) b = tableAfter l b := rfl
  have hg : ((l.emit chunk).append b).mustGrow = widens l b := by
    simp only [EngineL.append_eq, EngineL.mustGrow, widens, ht, EngineL.emit_codeLength, EngineL.emit_maxCodeLength,
      Bool.decide_and]
  unfold EngineL.emitStep EngineL.afterEmit
  rw [EngineL.grow_eq, hg, EngineL.append_eq, ht]
  rfl

theorem emitChunk_cons (b : Byte) (rest : Bytes) (l : EngineL) :
    emitChunk (b :: rest) l = .next (l.afterEmit (b :: rest) b, .emitted (b :: rest)) := by
  simp [emitChunk, EngineL.emitStep_eq]

/-- R133. -/
theorem clrStep_eq (l : EngineL) :
    clrStep l = .next ({ l with
      codeLength := 9, table := initialTable l.blockMode, lastChunk := none
      gvalid := if l.seam then l.gvalid else false }, .silent) := by
  simp [clrStep, EngineL.discardGroup_eq, EngineL.lzwInit, initCodeLength]

/-! ### What a code class can do -/

/-- A step that answers `next` on a code class is a dictionary reset, a raise, or an emission of a non-empty chunk. -/
inductive CodeEffect (l : EngineL) : EngineL → Result Bytes → Prop where
  | clr : CodeEffect l
      { l with
        codeLength := 9, table := initialTable l.blockMode, lastChunk := none
        gvalid := if l.seam then l.gvalid else false } .silent
  | raised (k : ErrKind) (c : Cause) (hk : k = c.kind) (hc : c.engine = .l) : CodeEffect l (l.raise k c) .faulted
  | emitted (b : Byte) (rest : Bytes) : CodeEffect l (l.afterEmit (b :: rest) b) (.emitted (b :: rest))

theorem emitChunk_effect {chunk : Bytes} {l l' : EngineL} {r : Result Bytes}
    (h : emitChunk chunk l = .next (l', r)) : CodeEffect l l' r := by
  cases chunk with
  | nil => cases h
  | cons b rest =>
    rw [emitChunk_cons] at h
    cases h
    exact .emitted b rest

theorem runClass_effect {c : CodeClass} {l l' : EngineL} {r : Result Bytes} (h : runClass l c = .next (l', r)) :
    CodeEffect l l' r := by
  cases c with
  | clr =>
    simp only [runClass, clrStep_eq] at h
    cases h
    exact .clr
  | kwk _ =>
    simp only [runClass, kwkStep] at h
    cases hl : l.lastChunk with
    | none =>
      simp only [hl, raiseL] at h
      cases h
      exact .raised _ _ rfl rfl
    | some p =>
      cases p with
      | nil => simp [hl, kwkChunk] at h
      | cons b rest =>
        simp only [hl, kwkChunk] at h
        exact emitChunk_effect h
  | lit b => exact emitChunk_effect (chunk := [b]) h
  | ref i =>
    simp only [runClass, refStep] at h
    cases ht : l.tableRead i with
    | ok chunk =>
      simp only [ht] at h
      exact emitChunk_effect h
    | error e => simp [ht] at h
  | bad _ =>
    simp only [runClass, badStep, raiseL] at h
    cases h
    exact .raised _ _ rfl rfl

/-- What an LZW code can do to the whole machine. -/
theorem exec_code_next {cls : CodeClass} {s t : State} (h : exec cls.instr s = .next t) :
    s.l.ctl.status = .run ∧ ∃ l r, runClass s.l cls = .next (l, r) ∧ t = (s.setL l).settle .l (replyL l r) := by
  have key : ∀ f : EngineL → Work EngineL Bytes, s.runL f = .next t → s.l.ctl.status = .run ∧
      ∃ l r, f s.l = .next (l, r) ∧ t = (s.setL l).settle .l (replyL l r) := by
    intro f hf
    unfold State.runL at hf
    split at hf
    · rename_i hr
      refine ⟨by simpa [Control.isRunning] using hr, ?_⟩
      unfold State.answerL at hf
      split at hf
      · rename_i l r he
        cases hf
        exact ⟨l, r, he, rfl⟩
      · cases hf
      · cases hf
    · cases hf
  cases cls with
  | clr => exact key clrStep h
  | kwk _ => exact key kwkStep h
  | lit b => exact key (litStep b) h
  | ref c => exact key (refStep c) h
  | bad _ => exact key badStep h

/-- An LZW code of a running engine does to the machine what its class does to engine L. -/
theorem exec_code_run (cls : CodeClass) {s : State} (hr : s.l.ctl.status = .run) :
    exec cls.instr s = s.answerL (runClass s.l cls) := by
  have key : ∀ f : EngineL → Work EngineL Bytes, s.runL f = s.answerL (f s.l) := by
    intro f
    unfold State.runL
    rw [if_pos (by simp [Control.isRunning, hr])]
  cases cls with
  | clr => exact key clrStep
  | kwk _ => exact key kwkStep
  | lit b => exact key (litStep b)
  | ref c => exact key (refStep c)
  | bad _ => exact key badStep

theorem isCode_instr {i : Instr} (h : i.isCode = true) : ∃ cls : CodeClass, i = cls.instr := by
  cases i with
  | clr => exact ⟨.clr, rfl⟩
  | kwk c => exact ⟨.kwk c, rfl⟩
  | lit b => exact ⟨.lit b, rfl⟩
  | ref c => exact ⟨.ref c, rfl⟩
  | bad c => exact ⟨.bad c, rfl⟩
  | left | right | slotPlaceholder | slotEof => cases h
  | slotLeaf | lStart | lStartCodes | hStart | pull | decodeAll | statusRead => cases h

end Sys2Proof.Machine
end

