-- ==== Sys2Proof/Laws/Reader.lean ====
section
/-! SUPPORT. What the two bit readers can do: their frames, and the closed form of a code inside a group. -/

namespace Sys2Proof.Machine

/-! ### PayloadRead -/

theorem payloadSlice_length (p : Bytes) (c n : Nat) : (payloadSlice p c n).length = min n (p.length - c) := by
  simp [payloadSlice]

/-! ### The frame of `next_code` -/

/-- What the reader of engine L may change: the buffer and the two cursors, which never move back nor pass the end of
their input; nor does the position in the payload move back (R40). -/
structure ReaderFrame (l l' : EngineL) : Prop where
  eq : l' = { l with gvalid := l'.gvalid, group := l'.group, gpos := l'.gpos, pcur := l'.pcur, ccur := l'.ccur }
  pcur : l.pcur ≤ l'.pcur
  pcurIn : l.pcur ≤ l.payload.length → l'.pcur ≤ l.payload.length
  ccur : l.ccur ≤ l'.ccur
  ccurIn : l.ccur ≤ l.codes.length → l'.ccur ≤ l.codes.length
  consumed : l.consumed ≤ l'.consumed

theorem ReaderFrame.rfl' (l : EngineL) : ReaderFrame l l := ⟨rfl, Nat.le_refl _, id, Nat.le_refl _, id, Nat.le_refl _⟩

theorem ReaderFrame.trans {a b c : EngineL} (h : ReaderFrame a b) (k : ReaderFrame b c) : ReaderFrame a c := by
  have hp : b.payload = a.payload := by rw [h.eq]
  have hc : b.codes = a.codes := by rw [h.eq]
  refine ⟨?_, h.pcur.trans k.pcur, fun x => ?_, h.ccur.trans k.ccur, fun x => ?_, h.consumed.trans k.consumed⟩
  · rw [k.eq, h.eq]
  · exact hp ▸ k.pcurIn (hp ▸ h.pcurIn x)
  · exact hc ▸ k.ccurIn (hc ▸ h.ccurIn x)

theorem EngineL.takeBit_frame (l : EngineL) : ReaderFrame l l.takeBit.1 := by
  refine ⟨rfl, Nat.le_refl _, id, Nat.le_refl _, id, ?_⟩
  cases hg : l.gvalid <;> simp only [EngineL.consumed, EngineL.takeBit, hg, Bool.false_eq_true, if_false, if_true] <;>
    omega

theorem EngineL.fillGroup_frame (l : EngineL) : ReaderFrame l l.fillGroup.1 := by
  have hl := payloadSlice_length l.payload l.pcur l.codeLength
  unfold EngineL.fillGroup
  split
  · exact .rfl' l
  · split
    · refine ⟨rfl, ?_, fun h => ?_, Nat.le_refl _, id, ?_⟩ <;>
        simp only [EngineL.payloadRead, EngineL.shortFill, EngineL.consumed, Bool.false_eq_true, if_false] <;> omega
    · refine ⟨rfl, ?_, fun h => ?_, Nat.le_refl _, id, ?_⟩ <;>
        simp only [EngineL.payloadRead, EngineL.consumed, if_true] <;> omega

theorem EngineL.readBit_frame (l : EngineL) : ReaderFrame l l.readBit.1 := by
  have h := l.fillGroup_frame
  unfold EngineL.readBit
  split
  · split <;> rename_i l' he <;> rw [he] at h
    · exact h.trans l'.takeBit_frame
    · exact h
    · exact h
  · exact l.takeBit_frame

theorem EngineL.readBits_frame (n : Nat) : ∀ (l : EngineL) (i c : Nat), ReaderFrame l (l.readBits i c n).1 := by
  induction n with
  | zero => exact fun l _ _ => .rfl' l
  | succ n ih =>
    intro l i c
    have h := l.readBit_frame
    unfold EngineL.readBits
    split <;> rename_i l' he <;> rw [he] at h
    · exact h.trans (ih _ _ _)
    · exact h
    · exact h

theorem EngineL.nextCode_frame (l : EngineL) : ReaderFrame l l.nextCode.1 := by
  unfold EngineL.nextCode
  split
  · unfold EngineL.nextSeamCode
    split
    · rename_i c hc
      refine ⟨rfl, Nat.le_refl _, id, Nat.le_succ _, fun _ => ?_, Nat.le_refl _⟩
      exact (List.getElem?_eq_some_iff.mp hc).1
    · exact .rfl' l
  · exact l.readBits_frame _ _ _

/-- The reader keeps everything but the buffer and the cursors. -/
theorem EngineL.nextCode_keeps {l l' : EngineL} {r : CodeResult} (h : l.nextCode = (l', r)) : ReaderFrame l l' := by
  have := l.nextCode_frame
  rwa [h] at this

/-! ### Bits inside a group -/

theorem EngineL.readBit_inside {l : EngineL} (hv : l.gvalid = true) (hp : l.gpos < 8 * l.group.length) :
    l.readBit = ({ l with gpos := l.gpos + 1 }, .bit (groupBit l.group l.gpos)) := by
  have : l.needsFill = false := by simp [EngineL.needsFill, hv]; omega
  simp [EngineL.readBit, this, EngineL.takeBit]

/-- R115: inside a buffered group, reading `n` bits adds their sum to the code and moves the position by `n`. -/
theorem EngineL.readBits_inside (n : Nat) : ∀ (l : EngineL) (i c : Nat), l.gvalid = true →
    l.gpos + n ≤ 8 * l.group.length →
    l.readBits i c n = ({ l with gpos := l.gpos + n },
      .code (c + ((List.range n).map fun k => groupBit l.group (l.gpos + k) * 2 ^ (i + k)).sum)) := by
  induction n with
  | zero => intro l i c _ _; simp [EngineL.readBits]
  | succ n ih =>
    intro l i c hv hp
    rw [EngineL.readBits, EngineL.readBit_inside hv (by omega)]
    rw [show l.gpos + (n + 1) = l.gpos + 1 + n by omega]
    refine (ih { l with gpos := l.gpos + 1 } (i + 1) (c + groupBit l.group l.gpos * 2 ^ i) hv
      (by dsimp only; omega)).trans ?_
    have hs : (List.range (n + 1)).map (fun k => groupBit l.group (l.gpos + k) * 2 ^ (i + k)) =
        groupBit l.group l.gpos * 2 ^ i ::
          (List.range n).map (fun k => groupBit l.group (l.gpos + 1 + k) * 2 ^ (i + 1 + k)) := by
      rw [List.range_succ_eq_map, List.map_cons, List.map_map]
      simp only [Nat.add_zero, List.cons.injEq, true_and]
      refine List.map_congr_left fun k _ => ?_
      simp only [Function.comp, Nat.succ_eq_add_one]
      rw [show l.gpos + (k + 1) = l.gpos + 1 + k by omega, show i + (k + 1) = i + 1 + k by omega]
    simp only [hs, List.sum_cons]
    rw [Nat.add_assoc c]

/-- R118: a code read from its first bit inside a buffered group is the code at its position. -/
theorem EngineL.nextCode_inside {l : EngineL} {j : Nat} (hs : l.seam = false) (hv : l.gvalid = true)
    (hg : l.gpos = j * l.codeLength) (hp : (j + 1) * l.codeLength ≤ 8 * l.group.length) :
    l.nextCode = ({ l with gpos := (j + 1) * l.codeLength }, .code (codeAt l.group l.codeLength j)) := by
  have hm : (j + 1) * l.codeLength = l.gpos + l.codeLength := by rw [Nat.succ_mul, hg]
  rw [EngineL.nextCode, if_neg (by simp [hs]), EngineL.readBits_inside _ _ _ _ hv (by omega), hm]
  simp [codeAt, hg]

/-! ### A code that needs a fill (R112 to R114) -/

theorem EngineL.fillGroup_exhausted {l : EngineL} (h : l.payload.length ≤ l.pcur) :
    l.fillGroup = (l, .exhausted) := by
  have hl := payloadSlice_length l.payload l.pcur l.codeLength
  unfold EngineL.fillGroup
  rw [if_pos (by simp only [EngineL.payloadRead]; omega)]

theorem EngineL.fillGroup_short {l : EngineL} (h : l.pcur < l.payload.length)
    (hw : l.payload.length - l.pcur < l.codeLength) :
    l.fillGroup = ({ l with pcur := l.payload.length, gvalid := false }, .truncated) := by
  have hl := payloadSlice_length l.payload l.pcur l.codeLength
  unfold EngineL.fillGroup
  rw [if_neg (by simp only [EngineL.payloadRead]; omega), if_pos (by simp only [EngineL.payloadRead]; omega)]
  simp only [EngineL.payloadRead, EngineL.shortFill]
  rw [hl, show l.pcur + min l.codeLength (l.payload.length - l.pcur) = l.payload.length by omega]

theorem EngineL.fillGroup_whole {l : EngineL} (h1 : 1 ≤ l.codeLength)
    (hw : l.codeLength ≤ l.payload.length - l.pcur) :
    l.fillGroup = ({ l with
      pcur := l.pcur + l.codeLength, group := payloadSlice l.payload l.pcur l.codeLength, gpos := 0
      gvalid := true }, .filled) := by
  have hl := payloadSlice_length l.payload l.pcur l.codeLength
  unfold EngineL.fillGroup
  rw [if_neg (by simp only [EngineL.payloadRead]; omega), if_neg (by simp only [EngineL.payloadRead]; omega)]
  simp only [EngineL.payloadRead]
  rw [hl, show min l.codeLength (l.payload.length - l.pcur) = l.codeLength by omega]

theorem EngineL.nextCode_exhausted {l : EngineL} (hs : l.seam = false) (h1 : 1 ≤ l.codeLength)
    (hf : l.needsFill = true) (h : l.payload.length ≤ l.pcur) : l.nextCode = (l, .exhausted) := by
  obtain ⟨n, hn⟩ : ∃ n, l.codeLength = n + 1 := ⟨l.codeLength - 1, by omega⟩
  rw [EngineL.nextCode, if_neg (by simp [hs]), hn, EngineL.readBits, EngineL.readBit, if_pos hf,
    EngineL.fillGroup_exhausted h]

theorem EngineL.nextCode_truncated {l : EngineL} (hs : l.seam = false) (hf : l.needsFill = true)
    (h : l.pcur < l.payload.length) (hw : l.payload.length - l.pcur < l.codeLength) :
    l.nextCode = ({ l with pcur := l.payload.length, gvalid := false }, .truncated) := by
  obtain ⟨n, hn⟩ : ∃ n, l.codeLength = n + 1 := ⟨l.codeLength - 1, by omega⟩
  rw [EngineL.nextCode, if_neg (by simp [hs]), hn, EngineL.readBits, EngineL.readBit, if_pos hf,
    EngineL.fillGroup_short h hw]
  rw [← hn]

theorem EngineL.nextCode_filled {l : EngineL} (hs : l.seam = false) (h1 : 1 ≤ l.codeLength)
    (hf : l.needsFill = true) (hw : l.codeLength ≤ l.payload.length - l.pcur) :
    l.nextCode = ({ l with
        pcur := l.pcur + l.codeLength, group := payloadSlice l.payload l.pcur l.codeLength
        gpos := l.codeLength, gvalid := true },
      .code (codeAt (payloadSlice l.payload l.pcur l.codeLength) l.codeLength 0)) := by
  have hl := payloadSlice_length l.payload l.pcur l.codeLength
  let m : EngineL := { l with
    pcur := l.pcur + l.codeLength, group := payloadSlice l.payload l.pcur l.codeLength, gpos := 0, gvalid := true }
  have hb : l.readBit = m.readBit := by
    have hm : m.needsFill = false := by simp only [EngineL.needsFill, m, hl]; simp; omega
    rw [EngineL.readBit, if_pos hf, EngineL.fillGroup_whole h1 hw, EngineL.readBit, if_neg (by simp [hm])]
  obtain ⟨n, hn⟩ : ∃ n, l.codeLength = n + 1 := ⟨l.codeLength - 1, by omega⟩
  have : l.nextCode = m.nextCode := by
    rw [EngineL.nextCode, EngineL.nextCode, if_neg (by simp [hs]), if_neg (by simp [m, hs])]
    rw [show m.codeLength = l.codeLength from rfl, hn, EngineL.readBits, EngineL.readBits, hb]
  rw [this, EngineL.nextCode_inside (l := m) (j := 0) hs rfl (by simp [m]) (by simp only [m, hl]; omega)]
  simp [m]

/-! ### The reader of engine H -/

/-- What `HufReadBit` does: it uses one bit of the byte being consumed, or of the next payload byte. -/
theorem EngineH.readBit_cases (h : EngineH) :
    (h.bleft = 0 ∧ h.payload.length ≤ h.pcur ∧ h.readBit = none) ∨
    (h.bleft = 0 ∧ ∃ b, h.payload[h.pcur]? = some b ∧
      h.readBit = some ({ h with pcur := h.pcur + 1, cur := b, bleft := 7 }, byteBit b 7)) ∨
    (∃ n, h.bleft = n + 1 ∧ h.readBit = some ({ h with bleft := n }, byteBit h.cur n)) := by
  by_cases hb : h.bleft = 0
  · by_cases hp : h.payload.length ≤ h.pcur
    · refine .inl ⟨hb, hp, ?_⟩
      simp [EngineH.readBit, EngineH.fetchByte, hb, EngineH.payloadRead, payloadSlice, List.drop_eq_nil_of_le hp]
    · refine .inr (.inl ⟨hb, h.payload[h.pcur], List.getElem?_eq_getElem (by omega), ?_⟩)
      have hd : payloadSlice h.payload h.pcur 1 = [h.payload[h.pcur]] := by
        rw [payloadSlice, List.drop_eq_getElem_cons (by omega)]
        rfl
      simp [EngineH.readBit, EngineH.fetchByte, hb, EngineH.payloadRead, hd]
  · obtain ⟨n, hn⟩ : ∃ n, h.bleft = n + 1 := ⟨h.bleft - 1, by omega⟩
    exact .inr (.inr ⟨n, hn, by simp [EngineH.readBit, EngineH.fetchByte, hn]⟩)

end Sys2Proof.Machine
end

