-- ==== Sys2Proof/Laws/Table.lean ====
section
/-! SUPPORT. The storage spaces keep their form: the DictionaryTable under initialisation and append, the payload under
a read, the output under an emit (spec/20_memory.md R52, R54, R55, R58). -/

namespace Sys2Proof.Machine

/-! ### The initial table (R131) -/

theorem singletons_length : singletons.length = 256 := by simp [singletons]

theorem initialTable_length (bm : Bool) : (initialTable bm).length = if bm then 257 else 256 := by
  cases bm <;> simp [initialTable, singletons_length]

theorem initialTable_singleton (bm : Bool) {i : Nat} (h : i < 256) :
    (initialTable bm)[i]? = some (.bytes [BitVec.ofNat 8 i]) := by
  have : singletons[i]? = some (.bytes [BitVec.ofNat 8 i]) := by simp [singletons, h]
  cases bm
  · exact this
  · simp only [initialTable, if_true]
    rw [List.getElem?_append_left (by simpa [singletons_length] using h), this]

theorem initialTable_sentinel : (initialTable true)[256]? = some .reserved := by
  simp only [initialTable, if_true]
  rw [List.getElem?_append_right (by simp [singletons_length])]
  simp [singletons_length]

/-! ### A well-formed table (R24) -/

theorem tableWf_iff {bm : Bool} {m : Nat} {t : List Entry} :
    tableWf bm m t = true ↔
      ∃ more, t = initialTable bm ++ more ∧ (∀ e ∈ more, e.isChunk = true) ∧ t.length ≤ 2 ^ m - 1 := by
  unfold tableWf
  rw [Bool.and_eq_true, Bool.and_eq_true, List.isPrefixOf_iff_prefix, List.all_eq_true, decide_eq_true_eq]
  constructor
  · rintro ⟨⟨⟨more, rfl⟩, hc⟩, hl⟩
    exact ⟨more, rfl, by simpa using hc, hl⟩
  · rintro ⟨more, rfl, hc, hl⟩
    exact ⟨⟨⟨more, rfl⟩, by simpa using hc⟩, hl⟩

theorem tableWf_initial {bm : Bool} {m : Nat} (h : 9 ≤ m) : tableWf bm m (initialTable bm) = true := by
  refine tableWf_iff.mpr ⟨[], by simp, by simp, ?_⟩
  have := Nat.pow_le_pow_right (n := 2) (by omega) h
  rw [initialTable_length]
  split <;> omega

/-- R55: `TableAppend` of a non-empty byte sequence to a table with room keeps it well formed. -/
theorem tableWf_append {bm : Bool} {m : Nat} {t : List Entry} (h : tableWf bm m t = true)
    (hr : t.length < 2 ^ m - 1) (b : Byte) (rest : Bytes) :
    tableWf bm m (t ++ [.bytes (b :: rest)]) = true := by
  obtain ⟨more, rfl, hc, -⟩ := tableWf_iff.mp h
  refine tableWf_iff.mpr ⟨more ++ [.bytes (b :: rest)], by simp, ?_, by rw [List.length_append, List.length_singleton]; omega⟩
  intro e he
  rcases List.mem_append.mp he with he | he
  · exact hc e he
  · rw [List.mem_singleton.mp he]
    rfl

theorem tableWf_length {bm : Bool} {m : Nat} {t : List Entry} (h : tableWf bm m t = true) :
    (if bm then 257 else 256) ≤ t.length ∧ t.length ≤ 2 ^ m - 1 := by
  obtain ⟨more, rfl, -, hl⟩ := tableWf_iff.mp h
  exact ⟨by rw [List.length_append, initialTable_length]; omega, hl⟩

/-- R24 (f), R86 (a): every entry but the sentinel is a non-empty byte sequence. -/
theorem tableWf_entry {bm : Bool} {m : Nat} {t : List Entry} (h : tableWf bm m t = true) {i : Nat}
    (hi : i < t.length) (hn : ¬ (bm = true ∧ i = 256)) : ∃ b rest, t[i]? = some (.bytes (b :: rest)) := by
  obtain ⟨more, rfl, hc, -⟩ := tableWf_iff.mp h
  by_cases h8 : i < 256
  · exact ⟨_, _, by rw [List.getElem?_append_left (by rw [initialTable_length]; split <;> omega),
      initialTable_singleton bm h8]⟩
  · have hge : (initialTable bm).length ≤ i := by
      rw [initialTable_length]
      cases bm
      · simpa using h8
      · simp only [true_and] at hn
        simp only [if_true]
        omega
    rw [List.getElem?_append_right hge]
    rw [List.length_append] at hi
    have hlt : i - (initialTable bm).length < more.length := by omega
    rw [List.getElem?_eq_getElem hlt]
    have := hc _ (List.getElem_mem hlt)
    cases he : more[i - (initialTable bm).length] with
    | reserved => rw [he] at this; cases this
    | bytes s =>
      cases s with
      | nil => rw [he] at this; cases this
      | cons b rest => exact ⟨b, rest, rfl⟩

/-! ### Engine L's spaces under the operations -/

theorem EngineL.storageWf_iff {l : EngineL} : l.storageWf = true ↔
    l.pcur ≤ l.payload.length ∧ l.ccur ≤ l.codes.length ∧ tableWf l.blockMode l.maxCodeLength l.table = true ∧
      ∀ c ∈ l.out, c ≠ [] := by
  simp [EngineL.storageWf, and_assoc, List.all_eq_true]

theorem EngineL.storageWf_payloadRead {l : EngineL} (h : l.storageWf = true) (n : Nat) :
    (l.payloadRead n).1.storageWf = true := by
  obtain ⟨hp, hrest⟩ := EngineL.storageWf_iff.mp h
  refine EngineL.storageWf_iff.mpr ⟨?_, hrest⟩
  have := payloadSlice_length l.payload l.pcur n
  simp only [EngineL.payloadRead]
  omega

theorem EngineL.storageWf_tableAppend {l : EngineL} (h : l.storageWf = true) (hr : l.tableHasRoom = true) (b : Byte)
    (rest : Bytes) : (l.tableAppend (b :: rest)).storageWf = true := by
  obtain ⟨hp, hc, ht, ho⟩ := EngineL.storageWf_iff.mp h
  exact EngineL.storageWf_iff.mpr ⟨hp, hc, tableWf_append ht (by simpa [EngineL.tableHasRoom] using hr) b rest, ho⟩

theorem EngineL.storageWf_lzwInit {l : EngineL} (h : l.storageWf = true) (hm : 9 ≤ l.maxCodeLength) :
    l.lzwInit.storageWf = true := by
  obtain ⟨hp, hc, -, ho⟩ := EngineL.storageWf_iff.mp h
  exact EngineL.storageWf_iff.mpr ⟨hp, hc, tableWf_initial hm, ho⟩

theorem EngineL.storageWf_emit {l : EngineL} (h : l.storageWf = true) (b : Byte) (rest : Bytes) :
    (l.emit (b :: rest)).storageWf = true := by
  obtain ⟨hp, hc, ht, ho⟩ := EngineL.storageWf_iff.mp h
  refine EngineL.storageWf_iff.mpr ⟨hp, hc, ht, fun c hm => ?_⟩
  rcases List.mem_append.mp hm with hm | hm
  · exact ho c hm
  · rw [List.mem_singleton.mp hm]
    exact List.cons_ne_nil _ _

theorem EngineH.storageWf_payloadRead {h : EngineH} (hw : h.storageWf = true) (n : Nat) :
    (h.payloadRead n).1.storageWf = true := by
  have hl := payloadSlice_length h.payload h.pcur n
  have hp : h.pcur ≤ h.payload.length := of_decide_eq_true hw
  refine decide_eq_true (p := h.pcur + (payloadSlice h.payload h.pcur n).length ≤ h.payload.length) ?_
  omega

/-- The reset state's spaces are well formed: no engine has an instance. -/
theorem Memory.wf_reset : Memory.wf State.reset = true := rfl

/-- A state whose running engines have well-formed spaces has well-formed memory. -/
theorem State.Inv.memory_wf {s : State} (h : s.Inv) : Memory.wf s = true := by
  have hl := h.runL
  have hh := h.runH
  unfold Memory.wf Control.isRunning
  cases h1 : s.l.ctl.status <;> cases h2 : s.h.ctl.status <;> simp
  all_goals first
    | exact (hl h1).storage
    | exact (hh h2).storage
    | exact ⟨(hl h1).storage, (hh h2).storage⟩

/-! ### The table after an emitting step -/

theorem tableAfter_length (l : EngineL) (b : Byte) (hb : l.table.length ≤ 2 ^ l.maxCodeLength - 1) :
    (tableAfter l b).length =
      if l.lastChunk = none then l.table.length else min (l.table.length + 1) (2 ^ l.maxCodeLength - 1) := by
  unfold tableAfter
  cases hp : l.lastChunk with
  | none => rw [if_pos rfl]
  | some p =>
    rw [if_neg (by simp)]
    dsimp only
    split
    · rw [List.length_append, List.length_singleton]
      omega
    · omega

/-- R55, R139: no entry already in the table changes. -/
theorem tableAfter_old (l : EngineL) (b : Byte) {k : Nat} (hk : k < l.table.length) :
    (tableAfter l b)[k]? = l.table[k]? := by
  unfold tableAfter
  split
  · split
    · rw [List.getElem?_append_left hk]
    · rfl
  · rfl

theorem tableAfter_wf {l : EngineL} {b : Byte} (h : tableWf l.blockMode l.maxCodeLength l.table = true) :
    tableWf l.blockMode l.maxCodeLength (tableAfter l b) = true := by
  unfold tableAfter
  split
  · split
    · rename_i p _ hr
      cases p with
      | nil => exact tableWf_append h hr b []
      | cons c rest => exact tableWf_append h hr c (rest ++ [b])
    · exact h
  · exact h

end Sys2Proof.Machine
end

