-- ==== Sys2Proof/Laws/Invariant.lean ====
section
/-! SUPPORT. What a step of a running engine L does to its invariant and to its budget: reading a code keeps the one and
uses up some of the other; the code classes keep the invariant and never add to the budget. -/

namespace Sys2Proof.Machine

/-! ### Reading a code -/

/-- The budget of engine L without its final 1: the bits, or the seam's elements, not yet consumed. -/
theorem EngineL.budget_seam {l : EngineL} (h : l.seam = true) : l.budget = l.codes.length - l.ccur + 1 := by
  simp [EngineL.budget, h]

theorem EngineL.budget_payload {l : EngineL} (h : l.seam = false) :
    l.budget = 8 * (l.payload.length - l.pcur) + (if l.gvalid then 8 * l.group.length - l.gpos else 0) + 1 := by
  simp [EngineL.budget, h]

/-- R28: a position that is a multiple of the width and not at the end of a group stands before one of its codes. -/
theorem codePosition {w g n : Nat} (hd : w ∣ g) (hn : n = w) (hg : g < 8 * n) :
    ∃ j, j < 8 ∧ g = j * w := by
  obtain ⟨j, rfl⟩ := hd
  subst hn
  exact ⟨j, by rcases Nat.lt_or_ge j 8 with h | h; exact h; exact absurd hg (by nlinarith), Nat.mul_comm ..⟩

/-- R110 under the invariant: a code, and then the invariant holds and the budget has shrunk; or the end, which changes
nothing; or a truncated group. -/
theorem EngineL.Ok.nextCode {l : EngineL} (h : l.Ok) :
    (∃ l' c, l.nextCode = (l', .code c) ∧ l'.Ok ∧ l'.budget < l.budget ∧ l'.ctl = l.ctl) ∨
    l.nextCode = (l, .exhausted) ∨
    l.nextCode = ({ l with pcur := l.payload.length, gvalid := false }, .truncated) := by
  obtain ⟨hpc, hcc, htw, hout⟩ := EngineL.storageWf_iff.mp h.storage
  rcases Bool.eq_false_or_eq_true l.seam with hs | hs
  case' inl =>
    unfold EngineL.nextCode
    rw [if_pos hs]
    unfold EngineL.nextSeamCode
    split
    · rename_i c hc
      have hlt := (List.getElem?_eq_some_iff.mp hc).1
      refine .inl ⟨_, c, rfl, ?_, ?_, rfl⟩
      · exact ⟨EngineL.storageWf_iff.mpr ⟨hpc, hlt, htw, hout⟩, h.maxLegal, h.width, h.belowWidth, h.leastWidth,
          h.lastNonempty, h.first, h.group, h.seamNoGroup⟩
      · rw [EngineL.budget_seam hs, EngineL.budget_seam (l := { l with ccur := l.ccur + 1 }) hs]
        dsimp only
        omega
    · exact .inr (.inl rfl)
  case' inr =>
    have hw := h.width
    by_cases hf : l.needsFill = true
    · by_cases hp : l.payload.length ≤ l.pcur
      · exact .inr (.inl (EngineL.nextCode_exhausted hs (by omega) hf hp))
      by_cases hq : l.payload.length - l.pcur < l.codeLength
      · exact .inr (.inr (EngineL.nextCode_truncated hs hf (by omega) hq))
      refine .inl ⟨_, _, EngineL.nextCode_filled hs (by omega) hf (by omega), ?_, ?_, rfl⟩
      · refine ⟨EngineL.storageWf_iff.mpr ⟨?_, hcc, htw, hout⟩, h.maxLegal, h.width, h.belowWidth, h.leastWidth,
          h.lastNonempty, h.first, fun _ => ⟨?_, ?_, Nat.dvd_refl _⟩, fun hx => absurd (hs.symm.trans hx) (by simp)⟩
        · dsimp only; omega
        · dsimp only; rw [payloadSlice_length]; omega
        · dsimp only; rw [payloadSlice_length]; omega
      · have hl := payloadSlice_length l.payload l.pcur l.codeLength
        rw [EngineL.budget_payload hs, EngineL.budget_payload (by exact hs)]
        dsimp only
        rw [if_pos rfl, hl]
        omega
    · have hv : l.gvalid = true := by
        cases hv : l.gvalid with
        | true => rfl
        | false => exact absurd (by simp [EngineL.needsFill, hv]) hf
      have hlt : l.gpos < 8 * l.group.length := by
        simpa [EngineL.needsFill, hv] using hf
      obtain ⟨hgl, hgp, hgd⟩ := h.group hv
      obtain ⟨j, hj, hje⟩ := codePosition hgd hgl hlt
      have hb : (j + 1) * l.codeLength ≤ 8 * l.group.length := by rw [hgl]; exact Nat.mul_le_mul_right _ hj
      refine .inl ⟨_, _, EngineL.nextCode_inside hs hv hje hb, ?_, ?_, rfl⟩
      · exact ⟨EngineL.storageWf_iff.mpr ⟨hpc, hcc, htw, hout⟩, h.maxLegal, h.width, h.belowWidth, h.leastWidth,
          h.lastNonempty, h.first, fun _ => ⟨hgl, hb, Nat.dvd_mul_left ..⟩,
          fun hx => absurd (hs.symm.trans hx) (by simp)⟩
      · rw [EngineL.budget_payload hs, EngineL.budget_payload (by exact hs)]
        dsimp only
        rw [if_pos hv, if_pos hv]
        have : (j + 1) * l.codeLength = l.gpos + l.codeLength := by rw [Nat.succ_mul, hje]
        omega

/-! ### The code classes -/

theorem EngineL.Ok.maxRange {l : EngineL} (h : l.Ok) : 9 ≤ l.maxCodeLength ∧ l.maxCodeLength ≤ 16 := by
  simpa [maxCodeLengthLegal, initCodeLength, maxCodeLengthLimit] using h.maxLegal

/-- R133: `CLR` keeps the invariant. -/
theorem EngineL.Ok.clr {l : EngineL} (h : l.Ok) : EngineL.Ok { l with
    codeLength := 9, table := initialTable l.blockMode, lastChunk := none
    gvalid := if l.seam then l.gvalid else false } := by
  obtain ⟨hpc, hcc, -, hout⟩ := EngineL.storageWf_iff.mp h.storage
  have hm := h.maxRange
  have hg : (if l.seam then l.gvalid else false) = false := by
    cases hs : l.seam with
    | true => exact h.seamNoGroup hs
    | false => rfl
  refine ⟨EngineL.storageWf_iff.mpr ⟨hpc, hcc, tableWf_initial hm.1, hout⟩, h.maxLegal, ⟨Nat.le_refl _, hm.1⟩, ?_,
    .inl rfl, by simp, fun _ => rfl, fun hv => absurd (hg.symm.trans hv) (by simp), fun _ => hg⟩
  dsimp only
  rw [initialTable_length]
  split <;> omega

/-- R138 to R141, R145: an emitting step keeps the invariant. -/
theorem EngineL.Ok.afterEmit {l : EngineL} (h : l.Ok) (b : Byte) (rest : Bytes) :
    (l.afterEmit (b :: rest) b).Ok := by
  obtain ⟨hpc, hcc, htw, hout⟩ := EngineL.storageWf_iff.mp h.storage
  have hm := h.maxRange
  have hw := h.width
  have hbw := h.belowWidth
  have hlw := h.leastWidth
  have htl := tableAfter_length l b (tableWf_length htw).2
  have hpow : 2 ^ (l.codeLength + 1) = 2 * 2 ^ l.codeLength := Nat.pow_succ'
  have hle : (tableAfter l b).length ≤ l.table.length + 1 := by
    rw [htl]; split <;> omega
  have hge : l.table.length ≤ (tableAfter l b).length := by
    have := (tableWf_length htw).2
    rw [htl]; split <;> omega
  refine ⟨EngineL.storageWf_iff.mpr ⟨hpc, hcc, tableAfter_wf htw, ?_⟩, h.maxLegal, ?_, ?_, ?_, by simp [EngineL.afterEmit],
    by simp [EngineL.afterEmit], ?_, ?_⟩
  · intro c hc
    rcases List.mem_append.mp hc with hc | hc
    · exact hout c hc
    · rw [List.mem_singleton.mp hc]; exact List.cons_ne_nil _ _
  · simp only [EngineL.afterEmit]
    split
    · rename_i hx
      have : l.codeLength < l.maxCodeLength := by simp [widens] at hx; exact hx.2
      omega
    · exact hw
  · simp only [EngineL.afterEmit]
    split
    · omega
    · rename_i hx
      by_cases hc : l.codeLength < l.maxCodeLength
      · simp [widens, hc] at hx; exact hx
      · have : l.codeLength = l.maxCodeLength := by omega
        rw [this] at hbw ⊢
        have := (tableWf_length (tableAfter_wf (b := b) htw)).2
        have : 0 < 2 ^ l.maxCodeLength := Nat.two_pow_pos _
        omega
  · simp only [EngineL.afterEmit]
    split
    · rename_i hx
      right
      simp [widens] at hx
      simpa using hx.1
    · rcases hlw with h9 | h9
      · exact .inl h9
      · exact .inr (by omega)
  · simp only [EngineL.afterEmit]
    intro hv
    split at hv
    · cases hv
    · rename_i hx
      cases hs : l.seam with
      | true => exact absurd (h.seamNoGroup hs) (by simp [hv])
      | false =>
        have : widens l b = false := by simpa [hs] using hx
        simpa [this] using h.group hv
  · intro hs
    have : l.gvalid = false := h.seamNoGroup hs
    simp [EngineL.afterEmit, this]

theorem CodeEffect.ok {l l' : EngineL} {r : Result Bytes} (e : CodeEffect l l' r) (h : l.Ok)
    (hr : l'.ctl.status = .run) : l'.Ok := by
  cases e with
  | clr => exact h.clr
  | raised k c hk hc => cases hr
  | emitted b rest => exact h.afterEmit b rest

/-- No code class adds to the budget: at most it drops the rest of the group (R133, R140). -/
theorem CodeEffect.budget_le {l l' : EngineL} {r : Result Bytes} (e : CodeEffect l l' r) : l'.budget ≤ l.budget := by
  cases e with
  | clr => cases hs : l.seam <;> simp [EngineL.budget, hs]
  | raised k c hk hc => exact Nat.le_refl _
  | emitted b rest =>
    cases hs : l.seam with
    | true => simp [EngineL.budget, EngineL.afterEmit, hs]
    | false =>
      rw [EngineL.budget_payload hs, EngineL.budget_payload (by exact hs)]
      simp only [EngineL.afterEmit, hs, and_true]
      cases widens l b <;> simp

/-- Under the invariant every code class answers a next state, with one of its effects (R149: the chunk is never
empty). -/
theorem EngineL.Ok.runClass {l : EngineL} (h : l.Ok) (c : Nat) :
    ∃ l' r, Machine.runClass l (classify l.blockMode l.table.length c) = .next (l', r) ∧ CodeEffect l l' r := by
  obtain ⟨-, -, htw, -⟩ := EngineL.storageWf_iff.mp h.storage
  suffices ∃ p, Machine.runClass l (classify l.blockMode l.table.length c) = .next p by
    obtain ⟨⟨l', r⟩, hp⟩ := this
    exact ⟨l', r, hp, runClass_effect hp⟩
  unfold classify
  split
  · exact ⟨_, rfl⟩
  split
  · simp only [Machine.runClass, kwkStep]
    cases hl : l.lastChunk with
    | none => exact ⟨_, rfl⟩
    | some p =>
      cases p with
      | nil => exact absurd hl h.lastNonempty
      | cons b rest => exact ⟨_, emitChunk_cons _ _ _⟩
  split
  · split
    · exact ⟨_, emitChunk_cons _ _ _⟩
    · rename_i hn _ hlt _
      obtain ⟨b, rest, he⟩ := tableWf_entry htw hlt (by simpa [clearCode] using hn)
      simp only [Machine.runClass, refStep, EngineL.tableRead, he]
      exact ⟨_, emitChunk_cons _ _ _⟩
  · exact ⟨_, rfl⟩

/-! ### A whole step of engine L -/

/-- R132 under the invariant: a step of a running engine L. It either leaves the engine running, with the invariant and a
smaller budget, or ends it, or raises. -/
theorem EngineL.Ok.step {l : EngineL} (h : l.Ok) (hr : l.ctl.status = .run) :
    ∃ l' r, stepL l = .next (l', r) ∧
      ((l'.ctl.status = .run ∧ l'.Ok ∧ l'.budget < l.budget ∧ l'.ctl = l.ctl ∧ (r = .silent ∧ l'.out = l.out ∨
          ∃ chunk, r = .emitted chunk ∧ l'.out = l.out ++ [chunk])) ∨
        (l' = l.finish ∧ r = .ended) ∨
        (l'.ctl.status = .fault ∧ l'.out = l.out ∧ r = .faulted ∧
          ∃ c : Cause, l'.ctl.err = some ⟨c.kind, c⟩ ∧ c.engine = .l)) := by
  unfold stepL
  rcases h.nextCode with ⟨m, c, hn, hm, hb, hctl⟩ | hn | hn
  · rw [hn]
    obtain ⟨l', r, he, hx⟩ := hm.runClass c
    have hout : m.out = l.out := by rw [(EngineL.nextCode_keeps hn).eq]
    refine ⟨l', r, he, ?_⟩
    have hbl := hx.budget_le
    have hok := hx.ok hm
    cases hx with
    | clr =>
      have hrun : m.ctl.status = .run := by rw [hctl, hr]
      exact .inl ⟨hrun, hok hrun, by omega, hctl, .inl ⟨rfl, hout⟩⟩
    | raised k c hk hc =>
      refine .inr (.inr ⟨rfl, hout, rfl, c, ?_, hc⟩)
      rw [← hk]
      rfl
    | emitted b rest =>
      have hrun : (m.afterEmit (b :: rest) b).ctl.status = .run := by
        show m.ctl.status = .run
        rw [hctl, hr]
      exact .inl ⟨hrun, hok hrun, by omega, hctl, .inr ⟨_, rfl, by rw [← hout]; rfl⟩⟩
  · rw [hn]
    exact ⟨_, _, rfl, .inr (.inl ⟨rfl, rfl⟩)⟩
  · rw [hn]
    exact ⟨_, _, rfl, .inr (.inr ⟨rfl, rfl, rfl, .truncatedGroup, rfl, rfl⟩)⟩

end Sys2Proof.Machine
end

