-- ==== Sys2Proof/Laws/Huffman.lean ====
section
/-! SUPPORT. What a step of engine H can do, and the subtrees a traversal stays in (spec/43_huffman_decoder.md R180 to
R190). -/

namespace Sys2Proof.Machine

/-! ### Subtrees -/

theorem hasSub_self (t : Tree) : t.hasSub t = true := by cases t <;> simp [Tree.hasSub]

theorem hasSub_child {t lt rt : Tree} (h : t.hasSub (.node lt rt) = true) (bit : Bool) :
    t.hasSub (if bit then rt else lt) = true := by
  induction t with
  | leaf b => simp [Tree.hasSub] at h
  | eof => simp [Tree.hasSub] at h
  | node l r ihl ihr =>
    have hc : Tree.node lt rt = .node l r ∨ l.hasSub (.node lt rt) = true ∨ r.hasSub (.node lt rt) = true := by
      simpa [Tree.hasSub, or_assoc] using h
    rcases hc with hc | hc | hc
    · cases hc
      cases bit <;> simp [Tree.hasSub, hasSub_self]
    · simp [Tree.hasSub, ihl hc]
    · simp [Tree.hasSub, ihr hc]

/-! ### Arrival and descent -/

/-- R182: at an internal node a bit arrives at the child it selects. -/
theorem bitStep_node {h : EngineH} {lt rt : Tree} (hn : h.node = .node lt rt) (bit : Bool) :
    bitStep bit h = arrive (if bit then rt else lt) h := by
  simp [bitStep, hn, childOf]

/-- What a bit can do to a running engine H: enter a node, emit and restart, or end. -/
inductive BitEffect (h : EngineH) : EngineH → Result Byte → Prop where
  | entered (x y : Tree) (hs : h.tree.hasSub h.node = true → h.tree.hasSub (.node x y) = true) :
      BitEffect h { h with node := .node x y } .silent
  | emitted (b : Byte) : BitEffect h { h with out := h.out ++ [b], node := h.tree } (.emitted b)
  | ended : BitEffect h h.finish .ended

theorem bitStep_effect {h h' : EngineH} {bit : Bool} {r : Result Byte} (he : bitStep bit h = .next (h', r)) :
    BitEffect h h' r := by
  unfold bitStep at he
  cases hn : h.node with
  | leaf b => simp [hn, childOf] at he
  | eof => simp [hn, childOf] at he
  | node lt rt =>
    simp only [hn, childOf] at he
    have hsub : h.tree.hasSub h.node = true → h.tree.hasSub (if bit then rt else lt) = true := fun hs =>
      hasSub_child (hn ▸ hs) bit
    cases hc : (if bit then rt else lt) with
    | node x y =>
      rw [hc] at he hsub
      cases he
      exact .entered x y hsub
    | leaf b =>
      rw [hc] at he
      cases he
      exact .emitted b
    | eof =>
      rw [hc] at he
      cases he
      exact .ended

theorem EngineH.Ok.bitStep {h : EngineH} (ok : h.Ok) (bit : Bool) :
    ∃ h' r, Machine.bitStep bit h = .next (h', r) ∧ BitEffect h h' r := by
  suffices ∃ p, Machine.bitStep bit h = .next p by
    obtain ⟨⟨h', r⟩, hp⟩ := this
    exact ⟨h', r, hp, bitStep_effect hp⟩
  have hi := ok.node.1
  cases hn : h.node with
  | leaf b => simp [hn, Tree.isInternal] at hi
  | eof => simp [hn, Tree.isInternal] at hi
  | node lt rt =>
    rw [bitStep_node hn]
    cases (if bit then rt else lt) <;> exact ⟨_, rfl⟩

theorem BitEffect.ok {h h' : EngineH} {r : Result Byte} (e : BitEffect h h' r) (ok : h.Ok) : h'.Ok := by
  cases e with
  | entered x y hs => exact ⟨ok.storage, ok.built, ok.root, ⟨rfl, hs ok.node.2⟩, ok.bits⟩
  | emitted b => exact ⟨ok.storage, ok.built, ok.root, ⟨ok.root, hasSub_self _⟩, ok.bits⟩
  | ended => exact ⟨ok.storage, ok.built, ok.root, ok.node, ok.bits⟩

theorem BitEffect.budget_eq {h h' : EngineH} {r : Result Byte} (e : BitEffect h h' r) : h'.budget = h.budget := by
  cases e <;> rfl

/-! ### Reading a bit -/

/-- R181, R188 under the invariant: a bit, and then the invariant holds and the budget is one less; or the end. -/
theorem EngineH.Ok.readBit {h : EngineH} (ok : h.Ok) :
    (h.budget = 1 ∧ h.readBit = none) ∨
    ∃ h' b, h.readBit = some (h', b) ∧ h'.Ok ∧ h'.budget + 1 = h.budget ∧ h'.ctl = h.ctl ∧ h'.out = h.out := by
  have hst : h.pcur ≤ h.payload.length := of_decide_eq_true ok.storage
  rcases h.readBit_cases with ⟨hb, hp, he⟩ | ⟨hb, b, hp, he⟩ | ⟨n, hb, he⟩
  · exact .inl ⟨by simp only [EngineH.budget]; omega, he⟩
  · have hlt := (List.getElem?_eq_some_iff.mp hp).1
    refine .inr ⟨_, _, he, ⟨?_, ok.built, ok.root, ok.node, by dsimp only; omega⟩, ?_, rfl, rfl⟩
    · simp only [EngineH.storageWf, decide_eq_true_eq]
      omega
    · simp only [EngineH.budget]
      omega
  · have := ok.bits
    refine .inr ⟨_, _, he, ⟨ok.storage, ok.built, ok.root, ok.node, by dsimp only; omega⟩, ?_, rfl, rfl⟩
    simp only [EngineH.budget]
    omega

/-! ### A whole step of engine H -/

/-- R182 under the invariant: a step of a running engine H. It either leaves the engine running, with the invariant and a
smaller budget, or ends it, or raises. -/
theorem EngineH.Ok.step {h : EngineH} (ok : h.Ok) (hr : h.ctl.status = .run) :
    ∃ h' r, stepH h = .next (h', r) ∧
      ((h'.ctl.status = .run ∧ h'.Ok ∧ h'.budget < h.budget ∧ h'.ctl = h.ctl ∧ (r = .silent ∧ h'.out = h.out ∨
          ∃ b, r = .emitted b ∧ h'.out = h.out ++ [b])) ∨
        (h'.ctl = h.ctl.finish ∧ h'.out = h.out ∧ r = .ended) ∨
        (h' = h.raise .unexpectedEndOfStream .truncatedTraversal ∧ r = .faulted)) := by
  unfold stepH
  rcases ok.readBit with ⟨-, he⟩ | ⟨m, b, he, hm, hbud, hctl, hout⟩
  · rw [he]
    exact ⟨_, _, rfl, .inr (.inr ⟨rfl, rfl⟩)⟩
  · rw [he]
    obtain ⟨h', r, hx, e⟩ := hm.bitStep b
    refine ⟨h', r, hx, ?_⟩
    have hok := e.ok hm
    have hb := e.budget_eq
    have hrun : m.ctl.status = .run := by rw [hctl, hr]
    cases e with
    | entered x y hs => exact .inl ⟨hrun, hok, by omega, hctl, .inl ⟨rfl, hout⟩⟩
    | emitted c => exact .inl ⟨hrun, hok, by omega, hctl, .inr ⟨c, rfl, by rw [← hout]⟩⟩
    | ended => exact .inr (.inl ⟨by rw [← hctl]; rfl, hout, rfl⟩)

end Sys2Proof.Machine
end

