-- ==== Sys2Proof/Laws/HostOps.lean ====
section
/-! SUPPORT. The loops of the host operations (spec/44_host_operations.md R202, R204): what a pull and a decode of a
running engine come to, once for both engines. -/

namespace Sys2Proof.Machine

/-! ### The loop of a pull -/

/-- Steps through silent ones, then one that is not silent: a pull as a finite run. -/
inductive PullRun {ε α : Type} (step : ε → Work ε α) : ε → ε → Result α → Prop where
  | last {e e' : ε} {r : Result α} (h : step e = .next (e', r)) (hr : r ≠ .silent) : PullRun step e e' r
  | more {e m e' : ε} {r : Result α} (h : step e = .next (m, .silent)) (k : PullRun step m e' r) :
      PullRun step e e' r

/-- A step of an engine with a measure: it keeps `ok` and takes from `budget` as long as it is silent or emits. -/
structure Steady {ε α : Type} (step : ε → Work ε α) (ok : ε → Prop) (budget : ε → Nat) : Prop where
  pos : ∀ e, 0 < budget e
  answers : ∀ e, ok e → ∃ e' r, step e = .next (e', r) ∧
    ((r = .silent ∨ ∃ x, r = .emitted x) ∧ ok e' ∧ budget e' < budget e ∨ r = .ended ∨ r = .faulted)

/-- R202: "The loop ends". -/
theorem Steady.pull {ε α : Type} {step : ε → Work ε α} {ok : ε → Prop} {budget : ε → Nat} (st : Steady step ok budget)
    (n : Nat) : ∀ e, ok e → budget e ≤ n → ∃ e' r, pullLoop step n e = .next (e', r) ∧ PullRun step e e' r ∧
      ((∃ x, r = .emitted x) ∧ ok e' ∧ budget e' < budget e ∨ r = .ended ∨ r = .faulted) := by
  induction n with
  | zero =>
    intro e _ hb
    have := st.pos e
    omega
  | succ n ih =>
    intro e he hb
    obtain ⟨m, r, hs, hr⟩ := st.answers e he
    rcases hr with ⟨hr | ⟨x, hr⟩, hm, hlt⟩ | hr | hr <;> subst hr
    · obtain ⟨e', r, hp, hrun, hx⟩ := ih m hm (by omega)
      refine ⟨e', r, by rw [pullLoop, hs]; exact hp, .more hs hrun, ?_⟩
      rcases hx with ⟨a, b, c⟩ | hx
      · exact .inl ⟨a, b, by omega⟩
      · exact .inr hx
    · exact ⟨m, _, by rw [pullLoop, hs], .last hs (by simp), .inl ⟨⟨x, rfl⟩, hm, hlt⟩⟩
    · exact ⟨m, _, by rw [pullLoop, hs], .last hs (by simp), .inr (.inl rfl)⟩
    · exact ⟨m, _, by rw [pullLoop, hs], .last hs (by simp), .inr (.inr rfl)⟩

/-- A property of the engine that every step of the run keeps. -/
theorem PullRun.keeps {ε α : Type} {step : ε → Work ε α} {P : ε → ε → Prop}
    (htrans : ∀ a b c, P a b → P b c → P a c) (hstep : ∀ a b r, step a = .next (b, r) → P a b) {e e' : ε}
    {r : Result α} (h : PullRun step e e' r) : P e e' := by
  induction h with
  | last h _ => exact hstep _ _ _ h
  | more h _ ih => exact htrans _ _ _ (hstep _ _ _ h) ih

/-- What a loop answers, it answers as a run, whatever the engine it starts from. -/
theorem pullLoop_run {ε α : Type} {step : ε → Work ε α} (n : Nat) : ∀ {e e' : ε} {r : Result α},
    pullLoop step n e = .next (e', r) → PullRun step e e' r := by
  induction n with
  | zero => intro e e' r h; cases h
  | succ n ih =>
    intro e e' r h
    rw [pullLoop] at h
    split at h <;> rename_i hs
    · exact .more hs (ih h)
    all_goals first
      | (cases h; exact .last hs (by simp))
      | cases h

/-! ### The two engines are steady -/

theorem EngineL.budget_pos (l : EngineL) : 0 < l.budget := by simp [EngineL.budget]

theorem EngineH.budget_pos (h : EngineH) : 0 < h.budget := by simp [EngineH.budget]

/-- A running engine L under its invariant. -/
def EngineL.Live (l : EngineL) : Prop := l.Ok ∧ l.ctl.status = .run

/-- A running engine H under its invariant. -/
def EngineH.Live (h : EngineH) : Prop := h.Ok ∧ h.ctl.status = .run

theorem steady_stepL : Steady stepL EngineL.Live EngineL.budget := by
  refine ⟨EngineL.budget_pos, fun l hl => ?_⟩
  obtain ⟨l', r, he, hx⟩ := hl.1.step hl.2
  refine ⟨l', r, he, ?_⟩
  rcases hx with ⟨hr, hok, hb, -, hx⟩ | ⟨-, hx⟩ | ⟨-, -, hx, -⟩
  · refine .inl ⟨?_, ⟨hok, hr⟩, hb⟩
    rcases hx with ⟨hx, -⟩ | ⟨c, hx, -⟩
    · exact .inl hx
    · exact .inr ⟨c, hx⟩
  · exact .inr (.inl hx)
  · exact .inr (.inr hx)

theorem steady_stepH : Steady stepH EngineH.Live EngineH.budget := by
  refine ⟨EngineH.budget_pos, fun h hl => ?_⟩
  obtain ⟨h', r, he, hx⟩ := hl.1.step hl.2
  refine ⟨h', r, he, ?_⟩
  rcases hx with ⟨hr, hok, hb, -, hx⟩ | ⟨-, -, hx⟩ | ⟨-, hx⟩
  · refine .inl ⟨?_, ⟨hok, hr⟩, hb⟩
    rcases hx with ⟨hx, -⟩ | ⟨c, hx, -⟩
    · exact .inl hx
    · exact .inr ⟨c, hx⟩
  · exact .inr (.inl hx)
  · exact .inr (.inr hx)

/-! ### Pull by status -/

theorem pullL_run {l : EngineL} (h : l.ctl.status = .run) : pullL l = pullLoop stepL l.budget l := by
  rw [pullL, h]; rfl

theorem pullH_run {e : EngineH} (h : e.ctl.status = .run) : pullH e = pullLoop stepH e.budget e := by
  rw [pullH, h]; rfl

theorem pullL_stopped (l : EngineL) (h : l.ctl.status ≠ .run) : ∃ r, pullL l = .next (l, r) ∧
    (l.ctl.status = .idle ∧ r = .refused ∨ l.ctl.status = .done ∧ r = .ended ∨ l.ctl.status = .fault ∧ r = .faulted) := by
  unfold pullL
  cases hs : l.ctl.status with
  | run => exact absurd hs h
  | idle => exact ⟨_, rfl, .inl ⟨rfl, rfl⟩⟩
  | done => exact ⟨_, rfl, .inr (.inl ⟨rfl, rfl⟩)⟩
  | fault => exact ⟨_, rfl, .inr (.inr ⟨rfl, rfl⟩)⟩

theorem pullH_stopped (e : EngineH) (h : e.ctl.status ≠ .run) : ∃ r, pullH e = .next (e, r) ∧
    (e.ctl.status = .idle ∧ r = .refused ∨ e.ctl.status = .done ∧ r = .ended ∨ e.ctl.status = .fault ∧ r = .faulted) := by
  unfold pullH
  cases hs : e.ctl.status with
  | run => exact absurd hs h
  | idle => exact ⟨_, rfl, .inl ⟨rfl, rfl⟩⟩
  | done => exact ⟨_, rfl, .inr (.inl ⟨rfl, rfl⟩)⟩
  | fault => exact ⟨_, rfl, .inr (.inr ⟨rfl, rfl⟩)⟩

/-! ### The loop of a decode -/

/-- R204: pulls that emit, then one that does not. -/
inductive GatherRun {ε α : Type} (pull : ε → Work ε α) (bytesOf : α → Bytes) : Bytes → ε → ε → Gathered → Prop where
  | ended {buf : Bytes} {e e' : ε} (h : pull e = .next (e', .ended)) : GatherRun pull bytesOf buf e e' (.ok buf)
  | faulted {buf : Bytes} {e e' : ε} (h : pull e = .next (e', .faulted)) : GatherRun pull bytesOf buf e e' .error
  | refused {buf : Bytes} {e e' : ε} (h : pull e = .next (e', .refused)) : GatherRun pull bytesOf buf e e' .refused
  | more {buf : Bytes} {e m e' : ε} {x : α} {g : Gathered} (h : pull e = .next (m, .emitted x))
      (k : GatherRun pull bytesOf (buf ++ bytesOf x) m e' g) : GatherRun pull bytesOf buf e e' g

theorem gather_run {ε α : Type} {pull : ε → Work ε α} {bytesOf : α → Bytes} (n : Nat) : ∀ {buf : Bytes} {e e' : ε}
    {g : Gathered}, gather pull bytesOf n buf e = .next (e', g) → GatherRun pull bytesOf buf e e' g := by
  induction n with
  | zero => intro buf e e' g h; cases h
  | succ n ih =>
    intro buf e e' g h
    rw [gather] at h
    split at h <;> rename_i hs
    · exact .more hs (ih h)
    · cases h; exact .ended hs
    · cases h; exact .faulted hs
    · cases h; exact .refused hs
    all_goals cases h

theorem GatherRun.keeps {ε α : Type} {pull : ε → Work ε α} {bytesOf : α → Bytes} {P : ε → ε → Prop}
    (htrans : ∀ a b c, P a b → P b c → P a c) (hstep : ∀ a b r, pull a = .next (b, r) → P a b) {buf : Bytes}
    {e e' : ε} {g : Gathered} (h : GatherRun pull bytesOf buf e e' g) : P e e' := by
  induction h with
  | ended h => exact hstep _ _ _ h
  | faulted h => exact hstep _ _ _ h
  | refused h => exact hstep _ _ _ h
  | more h _ ih => exact htrans _ _ _ (hstep _ _ _ h) ih

/-- The measure of a pull: what `gather` needs of it to end. -/
theorem gather_ends {ε α : Type} {pull : ε → Work ε α} {bytesOf : α → Bytes} {ok : ε → Prop} {budget : ε → Nat}
    (pos : ∀ e, 0 < budget e)
    (answers : ∀ e, ok e → ∃ e' r, pull e = .next (e', r) ∧
      ((∃ x, r = .emitted x) ∧ ok e' ∧ budget e' < budget e ∨ r = .ended ∨ r = .faulted)) (n : Nat) :
    ∀ buf e, ok e → budget e ≤ n → ∃ e' g, gather pull bytesOf n buf e = .next (e', g) ∧ g ≠ .refused := by
  induction n with
  | zero =>
    intro buf e _ hb
    have := pos e
    omega
  | succ n ih =>
    intro buf e he hb
    obtain ⟨m, r, hs, hr⟩ := answers e he
    rcases hr with ⟨⟨x, hr⟩, hm, hlt⟩ | hr | hr <;> subst hr
    · obtain ⟨e', g, hg, hx⟩ := ih (buf ++ bytesOf x) m hm (by omega)
      exact ⟨e', g, by rw [gather, hs]; exact hg, hx⟩
    · exact ⟨m, _, by rw [gather, hs], by simp⟩
    · exact ⟨m, _, by rw [gather, hs], by simp⟩

end Sys2Proof.Machine
end

