-- ==== Sys2Proof/Laws/Frame.lean ====
section
/-! SUPPORT. What a step, a pull and a decode of an engine leave alone, and what they do to its status and error; what a
`Start` makes. One lemma per shared operation. -/

namespace Sys2Proof.Machine

/-! ### Frames of engine L -/

/-- Kept by everything engine L does but a `Start`: the parameters and the input stay, the cursors do not move back nor
pass the end, nor does the position in the payload move back, and the output only grows. -/
structure FrameL (l l' : EngineL) : Prop where
  blockMode : l'.blockMode = l.blockMode
  maxCodeLength : l'.maxCodeLength = l.maxCodeLength
  payload : l'.payload = l.payload
  codes : l'.codes = l.codes
  seam : l'.seam = l.seam
  pcur : l.pcur ≤ l'.pcur
  ccur : l.ccur ≤ l'.ccur
  pcurIn : l.pcur ≤ l.payload.length → l'.pcur ≤ l.payload.length
  ccurIn : l.ccur ≤ l.codes.length → l'.ccur ≤ l.codes.length
  consumed : l.consumed ≤ l'.consumed
  out : l.out <+: l'.out

theorem FrameL.refl (l : EngineL) : FrameL l l :=
  ⟨rfl, rfl, rfl, rfl, rfl, Nat.le_refl _, Nat.le_refl _, id, id, Nat.le_refl _, List.prefix_refl _⟩

theorem FrameL.trans {a b c : EngineL} (h : FrameL a b) (k : FrameL b c) : FrameL a c := by
  refine ⟨k.blockMode.trans h.blockMode, k.maxCodeLength.trans h.maxCodeLength, k.payload.trans h.payload,
    k.codes.trans h.codes, k.seam.trans h.seam, h.pcur.trans k.pcur, h.ccur.trans k.ccur, fun x => ?_, fun x => ?_,
    h.consumed.trans k.consumed, h.out.trans k.out⟩
  · have := k.pcurIn (by rw [h.payload]; exact h.pcurIn x)
    rwa [h.payload] at this
  · have := k.ccurIn (by rw [h.codes]; exact h.ccurIn x)
    rwa [h.codes] at this

theorem ReaderFrame.frame {l l' : EngineL} (h : ReaderFrame l l') : FrameL l l' := by
  obtain ⟨e, a, b, c, d, m⟩ := h
  refine ⟨?_, ?_, ?_, ?_, ?_, a, c, b, d, m, ?_⟩
  all_goals rw [e]

theorem CodeEffect.frame {l l' : EngineL} {r : Result Bytes} (h : CodeEffect l l' r) : FrameL l l' := by
  cases h with
  | clr =>
    refine ⟨rfl, rfl, rfl, rfl, rfl, Nat.le_refl _, Nat.le_refl _, id, id, ?_, List.prefix_refl _⟩
    cases hs : l.seam <;> cases hg : l.gvalid <;> simp [EngineL.consumed, hg]
  | raised => exact ⟨rfl, rfl, rfl, rfl, rfl, Nat.le_refl _, Nat.le_refl _, id, id, Nat.le_refl _, List.prefix_refl _⟩
  | emitted b =>
    refine ⟨rfl, rfl, rfl, rfl, rfl, Nat.le_refl _, Nat.le_refl _, id, id, ?_, List.prefix_append _ _⟩
    by_cases hw : widens l b ∧ l.seam = false <;> cases hg : l.gvalid <;>
      simp [EngineL.consumed, EngineL.afterEmit, hw, hg]

theorem stepL_frame {l l' : EngineL} {r : Result Bytes} (h : stepL l = .next (l', r)) : FrameL l l' := by
  unfold stepL at h
  split at h <;> rename_i m he <;> have hf := (EngineL.nextCode_keeps he).frame
  · cases h; exact hf.trans ⟨rfl, rfl, rfl, rfl, rfl, Nat.le_refl _, Nat.le_refl _, id, id, Nat.le_refl _, List.prefix_refl _⟩
  · cases h; exact hf.trans ⟨rfl, rfl, rfl, rfl, rfl, Nat.le_refl _, Nat.le_refl _, id, id, Nat.le_refl _, List.prefix_refl _⟩
  · exact hf.trans (runClass_effect h).frame

theorem pullL_frame {l l' : EngineL} {r : Result Bytes} (h : pullL l = .next (l', r)) : FrameL l l' := by
  by_cases hr : l.ctl.status = .run
  · rw [pullL_run hr] at h
    exact (pullLoop_run _ h).keeps (P := FrameL) (fun _ _ _ => FrameL.trans) (fun _ _ _ => stepL_frame)
  · obtain ⟨r', h', -⟩ := pullL_stopped l hr
    rw [h'] at h
    cases h
    exact .refl _

theorem decodeAllL_frame {l l' : EngineL} {g : Gathered} (h : decodeAllL l = .next (l', g)) : FrameL l l' :=
  (gather_run _ h).keeps (P := FrameL) (fun _ _ _ => FrameL.trans) (fun _ _ _ => pullL_frame)

/-! ### Frames of engine H -/

/-- Kept by everything engine H does but a `Start` and a slot; see `FrameL`. -/
structure FrameH (h h' : EngineH) : Prop where
  levels : h'.levels = h.levels
  tree : h'.tree = h.tree
  payload : h'.payload = h.payload
  builder : h'.builder = h.builder
  pcur : h.pcur ≤ h'.pcur
  pcurIn : h.pcur ≤ h.payload.length → h'.pcur ≤ h.payload.length
  consumed : h.consumed ≤ h'.consumed
  out : h.out <+: h'.out

theorem FrameH.refl (h : EngineH) : FrameH h h := ⟨rfl, rfl, rfl, rfl, Nat.le_refl _, id, Nat.le_refl _, List.prefix_refl _⟩

theorem FrameH.trans {a b c : EngineH} (h : FrameH a b) (k : FrameH b c) : FrameH a c := by
  refine ⟨k.levels.trans h.levels, k.tree.trans h.tree, k.payload.trans h.payload, k.builder.trans h.builder,
    h.pcur.trans k.pcur, fun x => ?_, h.consumed.trans k.consumed, h.out.trans k.out⟩
  have := k.pcurIn (by rw [h.payload]; exact h.pcurIn x)
  rwa [h.payload] at this

theorem BitEffect.frame {h h' : EngineH} {r : Result Byte} (e : BitEffect h h' r) : FrameH h h' := by
  cases e with
  | entered => exact ⟨rfl, rfl, rfl, rfl, Nat.le_refl _, id, Nat.le_refl _, List.prefix_refl _⟩
  | emitted => exact ⟨rfl, rfl, rfl, rfl, Nat.le_refl _, id, Nat.le_refl _, List.prefix_append _ _⟩
  | ended => exact ⟨rfl, rfl, rfl, rfl, Nat.le_refl _, id, Nat.le_refl _, List.prefix_refl _⟩

theorem EngineH.readBit_frame {h h' : EngineH} {b : Bool} (e : h.readBit = some (h', b)) : FrameH h h' := by
  rcases h.readBit_cases with ⟨-, -, he⟩ | ⟨-, c, hp, he⟩ | ⟨n, hb, he⟩ <;> rw [he] at e <;> cases e
  · have := (List.getElem?_eq_some_iff.mp hp).1
    refine ⟨rfl, rfl, rfl, rfl, Nat.le_succ _, fun _ => this, ?_, List.prefix_refl _⟩
    simp only [EngineH.consumed]
    omega
  · refine ⟨rfl, rfl, rfl, rfl, Nat.le_refl _, id, ?_, List.prefix_refl _⟩
    simp only [EngineH.consumed]
    omega

theorem stepH_frame {h h' : EngineH} {r : Result Byte} (e : stepH h = .next (h', r)) : FrameH h h' := by
  unfold stepH at e
  split at e <;> rename_i he
  · cases e; exact ⟨rfl, rfl, rfl, rfl, Nat.le_refl _, id, Nat.le_refl _, List.prefix_refl _⟩
  · exact (EngineH.readBit_frame he).trans (bitStep_effect e).frame

theorem pullH_frame {h h' : EngineH} {r : Result Byte} (e : pullH h = .next (h', r)) : FrameH h h' := by
  by_cases hr : h.ctl.status = .run
  · rw [pullH_run hr] at e
    exact (pullLoop_run _ e).keeps (P := FrameH) (fun _ _ _ => FrameH.trans) (fun _ _ _ => stepH_frame)
  · obtain ⟨r', h', -⟩ := pullH_stopped h hr
    rw [h'] at e
    cases e
    exact .refl _

theorem decodeAllH_frame {h h' : EngineH} {g : Gathered} (e : decodeAllH h = .next (h', g)) : FrameH h h' :=
  (gather_run _ e).keeps (P := FrameH) (fun _ _ _ => FrameH.trans) (fun _ _ _ => pullH_frame)

/-! ### What reaches the whole machine -/

theorem State.answerL_next {s t : State} {w : Work EngineL Bytes} (h : s.answerL w = .next t) :
    ∃ l r, w = .next (l, r) ∧ t = (s.setL l).settle .l (replyL l r) := by
  unfold State.answerL at h
  split at h <;> cases h
  exact ⟨_, _, rfl, rfl⟩

theorem State.answerH_next {s t : State} {w : Work EngineH Byte} (h : s.answerH w = .next t) :
    ∃ e r, w = .next (e, r) ∧ t = (s.setH e).settle .h (replyH e r) := by
  unfold State.answerH at h
  split at h <;> cases h
  exact ⟨_, _, rfl, rfl⟩

/-- A Huffman bit needs a running engine H and has one of its effects. -/
theorem State.runH_next {s t : State} {bit : Bool} (h : s.runH (bitStep bit) = .next t) :
    s.h.ctl.status = .run ∧ ∃ e r, BitEffect s.h e r ∧ t = (s.setH e).settle .h (replyH e r) := by
  unfold State.runH at h
  split at h
  · rename_i hr
    obtain ⟨e, r, hx, rfl⟩ := State.answerH_next h
    exact ⟨by simpa [Control.isRunning] using hr, e, r, bitStep_effect hx, rfl⟩
  · cases h

/-- A slot writes the builder. -/
theorem State.runSlot_next {s t : State} {k : Slot} (h : s.runSlot k = .next t) :
    s.h.builder.stack ≠ [] ∧ t = s.setH { s.h with builder := s.h.builder.attachSlot k } := by
  unfold State.runSlot at h
  split at h
  · cases h
  · rename_i hs
    cases h
    exact ⟨by simp [hs], rfl⟩

/-- A slot writes nothing of the builder but its stack and its root. -/
theorem Builder.attachSlot_eq (b : Builder) (k : Slot) :
    b.attachSlot k = { b with stack := (b.attachSlot k).stack, built := (b.attachSlot k).built } := by
  cases k with
  | placeholder =>
    simp only [Builder.attachSlot, Builder.openChild]
    split <;> rfl
  | leaf v => rfl
  | eof => rfl

/-! ### Status and error -/

theorem Control.Ok.raise (c : Control) {e : Engine} {cause : Cause} (h : cause.engine = e) :
    (c.raise cause.kind cause).Ok e := by
  simp [Control.Ok, Control.raise, h]

theorem Control.Ok.finish {e : Engine} {c : Control} (h : c.Ok e) (hr : c.status = .run) : c.finish.Ok e := by
  obtain ⟨st, er⟩ := c
  cases hr
  simpa [Control.Ok, Control.finish] using h

theorem Control.Ok.start (c : Control) (e : Engine) : c.start.Ok e := by simp [Control.Ok, Control.start]

/-- What the invariant says of engine L alone. -/
def EngineL.Good (l : EngineL) : Prop := l.ctl.Ok .l ∧ (l.ctl.status = .run → l.Ok)

/-- What the invariant says of engine H alone. -/
def EngineH.Good (h : EngineH) : Prop := h.ctl.Ok .h ∧ (h.ctl.status = .run → h.Ok)

theorem State.inv_iff {s : State} : s.Inv ↔ s.l.Good ∧ s.h.Good ∧
    ∀ levels payload, s.task = some (.build levels payload) → s.h.builder.assembling levels :=
  ⟨fun h => ⟨⟨h.ctlL, h.runL⟩, ⟨h.ctlH, h.runH⟩, h.build⟩, fun h => ⟨h.1.1, h.2.1.1, h.1.2, h.2.1.2, h.2.2⟩⟩

theorem CodeEffect.good {l l' : EngineL} {r : Result Bytes} (e : CodeEffect l l' r) (h : l.Good)
    (hr : l.ctl.status = .run) : l'.Good := by
  refine ⟨?_, e.ok (h.2 hr)⟩
  cases e with
  | clr => exact h.1
  | raised k c hk hc => subst hk; exact Control.Ok.raise l.ctl hc
  | emitted => exact h.1

theorem BitEffect.good {h h' : EngineH} {r : Result Byte} (e : BitEffect h h' r) (g : h.Good)
    (hr : h.ctl.status = .run) : h'.Good := by
  refine ⟨?_, fun _ => e.ok (g.2 hr)⟩
  cases e with
  | entered => exact g.1
  | emitted => exact g.1
  | ended => exact Control.Ok.finish g.1 hr

/-! ### `Start` -/

/-- R200, R207: whatever its arguments, a `Start` of engine L leaves a state that meets the invariant. -/
theorem startL_good (bm : Bool) (m : Nat) (p : Bytes) (sm : Bool) (cs : List Nat) (l : EngineL) :
    (startL bm m p sm cs l).Good := by
  unfold startL
  split
  · rename_i h
    have h' : 9 ≤ m ∧ m ≤ 16 := by simpa [maxCodeLengthLegal, initCodeLength, maxCodeLengthLimit] using h
    refine ⟨Control.Ok.start l.ctl _, fun _ => ⟨?_, h, ⟨Nat.le_refl _, h'.1⟩, ?_, .inl rfl, ?_, fun _ => rfl,
      fun x => (nomatch x), fun _ => rfl⟩⟩
    · exact EngineL.storageWf_iff.mpr ⟨Nat.zero_le _, Nat.zero_le _, tableWf_initial h'.1,
        by simp [EngineL.fresh, EngineL.lzwInit]⟩
    · simp only [EngineL.fresh, EngineL.lzwInit, initialTable_length, initCodeLength]
      split <;> omega
    · simp [EngineL.fresh, EngineL.lzwInit]
  · exact ⟨Control.Ok.raise (cause := .configRange) l.ctl rfl, fun x => nomatch x⟩

/-! ### A step of a pull -/

/-- A step of a pull of engine L fetches as engine L does, in a state that differs only in what the model itself keeps. -/
theorem fetch_pullL {s s' : State} (h : s.pullStep = some (.l, s')) :
    s' = { s with agenda := s'.agenda, task := none } ∧ fetch s = fetchL s' := by
  unfold State.pullStep at h
  split at h <;> rename_i ht
  · cases h
    exact ⟨rfl, by rw [fetch, ht]; rfl⟩
  · cases h
  · split at h <;> rename_i ha <;> cases h
    exact ⟨by rw [← ht], by simp only [fetch, ht, fetchMove, ha, State.setAgenda]⟩

/-- As `fetch_pullL`, for engine H. -/
theorem fetch_pullH {s s' : State} (h : s.pullStep = some (.h, s')) :
    s' = { s with agenda := s'.agenda, task := none } ∧ fetch s = fetchH s' := by
  unfold State.pullStep at h
  split at h <;> rename_i ht
  · cases h
    exact ⟨rfl, by rw [fetch, ht]; rfl⟩
  · cases h
  · split at h <;> rename_i ha <;> cases h
    exact ⟨by rw [← ht], by simp only [fetch, ht, fetchMove, ha, State.setAgenda]⟩

/-! ### Placed words (notes/assumptions/2.md) -/

/-- A word of more than one byte placed for the next step runs as the code it is. -/
theorem step_placed_code (s : State) {nbits w : Nat} (h : 8 < nbits) :
    step (s.withFetchWord nbits w) =
      exec (decodeCode wordBlockMode wordTableLen w)
        ((s.setL { s.l.beforeCode w with ccur := 3 }).setTask none) := by
  have : ¬ nbits ≤ 8 := by omega
  have hl : (initialTable wordBlockMode).length + 1 = wordTableLen := by
    rw [initialTable_length]
    rfl
  simp [State.withFetchWord, State.placeWord, this, step, fetch, fetchTask, fetchL, EngineL.beforeCode, State.setTask,
    State.setL, Control.start, Control.isRunning, EngineL.nextCode, EngineL.nextSeamCode, hl]

/-- A word of one byte placed for the next step runs as the bit it is. -/
theorem step_placed_bit (s : State) {nbits w : Nat} (h : nbits ≤ 8) :
    step (s.withFetchWord nbits w) =
      exec (decodeBit (byteBit (BitVec.ofNat 8 w) 0)) ((s.setH { s.h.beforeBit w with bleft := 0 }).setTask none) := by
  simp only [State.withFetchWord, State.placeWord, if_pos h]
  rfl

end Sys2Proof.Machine
end

