-- ==== Sys2Proof/Laws/PerInstr.lean ====
section
/-! SUPPORT. One family over the instructions as syntax: the encoder keeps the format that spec/opcode_table.json gives
each row. -/

namespace Sys2Proof.Laws.EncodedForm

/-- The item an instruction encodes to has the instruction's format. -/
def Statement (i : Instr) : Prop := (encode i).format = i.format

theorem clr : Statement .clr := rfl
theorem kwk (c : Nat) : Statement (.kwk c) := rfl
theorem lit (b : Byte) : Statement (.lit b) := rfl
theorem ref (c : Nat) : Statement (.ref c) := rfl
theorem bad (c : Nat) : Statement (.bad c) := rfl
theorem left : Statement .left := rfl
theorem right : Statement .right := rfl
theorem slotPlaceholder : Statement .slotPlaceholder := rfl
theorem slotLeaf (b : Byte) : Statement (.slotLeaf b) := rfl
theorem slotEof : Statement .slotEof := rfl
theorem lStart (bm : Bool) (m : Nat) (p : Bytes) : Statement (.lStart bm m p) := rfl
theorem lStartCodes (bm : Bool) (m : Nat) (cs : List Nat) : Statement (.lStartCodes bm m cs) := rfl
theorem hStart (lv : List Level) (p : Bytes) : Statement (.hStart lv p) := rfl
theorem pull (e : Engine) : Statement (.pull e) := rfl
theorem decodeAll (e : Engine) : Statement (.decodeAll e) := rfl
theorem statusRead (r : Reg) : Statement (.statusRead r) := rfl

end Sys2Proof.Laws.EncodedForm
end

