-- ==== Sys2Proof/Laws/TreeBuilder.lean ====
section
/-! SUPPORT. The counts and the slot lists of the tree builder (spec/42_tree_builder.md R161 to R164, R171), and one step
of its assembly (R165). -/

namespace Sys2Proof.Machine

/-! ### Counting -/

theorem countAfter_nil (c : Int) : countAfter c [] = c := rfl

theorem countAfter_cons (c : Int) (lv : Level) (rest : List Level) :
    countAfter c (lv :: rest) = countAfter (nextCount c lv) rest := rfl

/-- R171: a count that is not positive stays so. -/
theorem countAfter_nonpos (levels : List Level) : ∀ c : Int, c ≤ 0 → countAfter c levels ≤ 0 := by
  induction levels with
  | nil => exact fun c h => h
  | cons lv rest ih =>
    intro c h
    rw [countAfter_cons]
    refine ih _ ?_
    unfold nextCount
    omega

/-- R171, R174: the counts of a table that counts to one are positive. -/
theorem countAfter_pos {levels : List Level} {c : Int} (h : countAfter c levels = 1) : 1 ≤ c := by
  by_cases hc : c ≤ 0
  · have := countAfter_nonpos levels c hc
    omega
  · omega

/-! ### Slot lists -/

theorem slotLists_one (c : Int) (lv : Level) : slotLists c [lv] = [leafSlots lv ++ [.eof]] := rfl

theorem slotLists_cons (c : Int) (lv next : Level) (rest : List Level) :
    slotLists c (lv :: next :: rest) =
      (placeholders (nextCount c lv) ++ leafSlots lv) :: slotLists (nextCount c lv) (next :: rest) := rfl

theorem slotLists_length (levels : List Level) : ∀ c : Int, (slotLists c levels).length = levels.length := by
  induction levels with
  | nil => exact fun _ => rfl
  | cons lv rest ih =>
    intro c
    cases rest with
    | nil => rfl
    | cons next more => rw [slotLists_cons, List.length_cons, ih]; rfl

theorem leafSlots_length (lv : Level) : (leafSlots lv).length = lv.leaves.length := by simp [leafSlots]

theorem placeholders_length (n : Int) : (placeholders n).length = n.toNat := by simp [placeholders]

/-- R163, R164: the first list of a table that counts to one has a slot for each child position, `2 * c` of them. -/
theorem slotLists_head_length {c : Int} {levels : List Level} {slots : List Slot} {deeper : List (List Slot)}
    (h : countAfter c levels = 1) (hs : slotLists c levels = slots :: deeper) : (slots.length : Int) = 2 * c := by
  cases levels with
  | nil => cases hs
  | cons lv rest =>
    cases rest with
    | nil =>
      rw [slotLists_one] at hs
      cases hs
      rw [countAfter_cons, countAfter_nil, nextCount] at h
      rw [List.length_append, leafSlots_length, List.length_singleton]
      omega
    | cons next more =>
      rw [slotLists_cons] at hs
      cases hs
      rw [countAfter_cons] at h
      have hp := countAfter_pos h
      rw [List.length_append, placeholders_length, leafSlots_length]
      unfold nextCount at hp ⊢
      omega

/-! ### One step of the assembly -/

/-- R165: taking a slot moves the read position of the top node's list by one, and changes nothing else. -/
theorem Builder.takeSlot_some {b b' : Builder} {k : Slot} (h : b.takeSlot = some (k, b')) :
    ∃ top rest, b.stack = top :: rest ∧ (b.slots.getD top.level [])[b.cur.getD top.level 0]? = some k ∧
      b' = { b with cur := b.cur.set top.level (b.cur.getD top.level 0 + 1) } := by
  unfold Builder.takeSlot at h
  split at h
  · cases h
  · rename_i top rest hs
    split at h
    · rename_i j hj
      cases h
      exact ⟨top, rest, hs, hj, rfl⟩
    · cases h

theorem Builder.assemble_done {b : Builder} (n : Nat) (h : b.stack = []) : b.assemble n = some b := by
  cases n with
  | zero => simp [Builder.assemble, h]
  | succ n => simp [Builder.assemble, h]

theorem Builder.assemble_step {b b' : Builder} {k : Slot} (n : Nat) (h : b.takeSlot = some (k, b')) :
    b.assemble (n + 1) = (b'.attachSlot k).assemble n := by
  obtain ⟨top, rest, hs, -, -⟩ := Builder.takeSlot_some h
  rw [Builder.assemble, hs]
  simp [h]

/-- Taking and attaching one slot more. -/
theorem Builder.after_snoc {k : Slot} {c c' : Builder} (hc : c.takeSlot = some (k, c')) (n : Nat) : ∀ {b : Builder},
    b.after n = some c → b.after (n + 1) = some (c'.attachSlot k) := by
  induction n with
  | zero =>
    rintro b ⟨⟩
    simp [Builder.after, hc]
  | succ n ih =>
    intro b h
    rw [Builder.after] at h
    split at h <;> rename_i ht
    · rw [Builder.after, ht]
      exact ih h
    · cases h

/-- The read positions, one for each list and none past its end: each slot is taken at most once. -/
def Builder.Counted (b : Builder) (n : Nat) : Prop :=
  b.cur.length = b.slots.length ∧ (∀ i, b.cur.getD i 0 ≤ (b.slots.getD i []).length) ∧ b.cur.sum = n

theorem sum_set_succ (l : List Nat) : ∀ i, i < l.length → (l.set i (l.getD i 0 + 1)).sum = l.sum + 1 := by
  induction l with
  | nil => intro i h; simp at h
  | cons a l ih =>
    intro i h
    cases i with
    | zero => simp; omega
    | succ i =>
      have := ih i (by simpa using h)
      simp only [List.set_cons_succ, List.sum_cons, List.getD_cons_succ, this]
      omega

theorem sum_le_of_getD (l : List Nat) : ∀ m : List Nat, l.length = m.length → (∀ i, l.getD i 0 ≤ m.getD i 0) →
    l.sum ≤ m.sum := by
  induction l with
  | nil => intro m _ _; simp
  | cons a l ih =>
    intro m hl h
    cases m with
    | nil => simp at hl
    | cons b m =>
      have h0 := h 0
      have := ih m (by simpa using hl) fun i => by simpa using h (i + 1)
      simp only [List.getD_cons_zero] at h0
      simp only [List.sum_cons]
      omega

theorem Builder.attachSlot_lists (b : Builder) (k : Slot) :
    (b.attachSlot k).slots = b.slots ∧ (b.attachSlot k).cur = b.cur ∧ (b.attachSlot k).reading = b.reading := by
  rw [b.attachSlot_eq k]
  exact ⟨rfl, rfl, rfl⟩

theorem Builder.Counted.take {b b' : Builder} {k : Slot} {n : Nat} (h : b.Counted n) (ht : b.takeSlot = some (k, b')) :
    (b'.attachSlot k).Counted (n + 1) := by
  obtain ⟨top, rest, -, hk, rfl⟩ := Builder.takeSlot_some ht
  obtain ⟨hl, hp, hs⟩ := h
  have hlt : top.level < b.slots.length := by
    by_contra hge
    rw [List.getD_eq_default _ _ (by omega)] at hk
    simp at hk
  have hpos := (List.getElem?_eq_some_iff.mp hk).1
  obtain ⟨e₁, e₂, -⟩ := Builder.attachSlot_lists { b with cur := b.cur.set top.level (b.cur.getD top.level 0 + 1) } k
  refine ⟨?_, fun i => ?_, ?_⟩
  · rw [e₁, e₂]
    simpa using hl
  · rw [e₁, e₂]
    by_cases hi : top.level = i
    · subst hi
      simp [List.getD_eq_getElem?_getD, hl, hlt] at hpos ⊢
      omega
    · have := hp i
      simp only [List.getD_eq_getElem?_getD] at this ⊢
      rwa [List.getElem?_set_ne hi]
  · rw [e₂, ← hs]
    exact sum_set_succ _ _ (by omega)

theorem Builder.Counted.le {b : Builder} {n : Nat} (h : b.Counted n) : n ≤ b.slotCount := by
  rw [← h.2.2]
  refine sum_le_of_getD _ _ (by simpa using h.1) fun i => ?_
  have := h.2.1 i
  simp only [List.getD_eq_getElem?_getD, List.getElem?_map] at this ⊢
  cases hg : b.slots[i]? <;> simpa [hg] using this

theorem Builder.after_done {c : Builder} (hc : c.stack = []) (n : Nat) : ∀ {b : Builder} (m : Nat), b.after n = some c →
    n ≤ m → b.assemble m = some c := by
  induction n with
  | zero =>
    rintro b m ⟨⟩ -
    exact Builder.assemble_done m hc
  | succ n ih =>
    intro b m h hm
    obtain ⟨m, rfl⟩ : ∃ k, m = k + 1 := ⟨m - 1, by omega⟩
    rw [Builder.after] at h
    split at h <;> rename_i ht
    · rw [Builder.assemble_step m ht]
      exact ih m h (by omega)
    · cases h

theorem Builder.Counted.after (n : Nat) : ∀ {b c : Builder} {m : Nat}, b.Counted m → b.after n = some c →
    c.Counted (m + n) ∧ c.slotCount = b.slotCount := by
  induction n with
  | zero =>
    rintro b c m h ⟨⟩
    exact ⟨h, rfl⟩
  | succ n ih =>
    intro b c m h ha
    rw [Builder.after] at ha
    split at ha
    · rename_i k b' ht
      obtain ⟨h₁, h₂⟩ := ih (h.take ht) ha
      obtain ⟨top, rest, -, -, rfl⟩ := Builder.takeSlot_some ht
      refine ⟨by rwa [Nat.add_comm n 1, ← Nat.add_assoc], h₂.trans ?_⟩
      simp only [Builder.slotCount, (Builder.attachSlot_lists _ k).1]
    · cases ha

/-- A builder is ready with nothing taken. -/
theorem readyBuilder_counted {r : Config.TreeReading} {levels : List Level} {b : Builder}
    (h : readyBuilder r levels = some b) : b.Counted 0 := by
  have key : ∀ r c slots, (Builder.begin r c slots).Counted 0 := by
    intro r c slots
    refine ⟨by simp [Builder.begin], fun i => ?_, by simp [Builder.begin]⟩
    simp only [Builder.begin, List.getD_eq_getElem?_getD]
    by_cases hi : i < slots.length <;> simp [hi]
  cases r <;> simp only [readyBuilder, readyCanonical, readyLiteral] at h
  · split at h
    · cases h
    · split at h <;> cases h
      exact key _ _ _
  · split at h <;> cases h
    exact key _ _ _

/-- R165: a slot more is a step of the assembly. -/
theorem Builder.assembling.step {b b' : Builder} {k : Slot} {levels : List Level} (h : b.assembling levels)
    (ht : b.takeSlot = some (k, b')) : (b'.attachSlot k).assembling levels := by
  obtain ⟨n, b₀, hr, ha⟩ := h
  exact ⟨n + 1, b₀, hr, Builder.after_snoc ht n ha⟩

/-- R165: an assembly that ends with no node open has built the level table's tree. -/
theorem Builder.assembling.buildTree {b : Builder} {levels : List Level} {t : Tree} (h : b.assembling levels)
    (hs : b.stack = []) (ht : b.root = some t) : buildTree Config.treeReading levels = some t := by
  obtain ⟨n, b₀, hr, ha⟩ := h
  obtain ⟨hc, hn⟩ := (readyBuilder_counted hr).after n ha
  have := hc.le
  rw [Machine.buildTree, hr, Option.bind_some, Builder.tree, Builder.after_done hs n _ ha (by omega), Option.bind_some, ht]

/-- R166: a finished child becomes the first child of the node on top, or finishes that node. -/
theorem attachChild_first (t : Tree) (level : Nat) (rest : List OpenNode) :
    attachChild t (⟨level, none⟩ :: rest) = (⟨level, some t⟩ :: rest, none) := rfl

theorem attachChild_second (t l : Tree) (level : Nat) (rest : List OpenNode) :
    attachChild t (⟨level, some l⟩ :: rest) = attachChild (.node l t) rest := rfl

/-- The root is built exactly when no node is left open. -/
theorem attachChild_built (stack : List OpenNode) : ∀ t : Tree,
    (attachChild t stack).1 = [] ↔ (attachChild t stack).2.isSome = true := by
  induction stack with
  | nil => simp [attachChild]
  | cons top rest ih =>
    intro t
    obtain ⟨level, left⟩ := top
    cases left with
    | none => simp [attachChild]
    | some l => rw [attachChild_second]; exact ih _

/-- The root of a tree with a node still open below it is internal (R169 a). -/
theorem attachChild_internal (stack : List OpenNode) : ∀ {t r : Tree}, stack ≠ [] →
    (attachChild t stack).2 = some r → r.isInternal = true := by
  induction stack with
  | nil => exact fun h _ => absurd rfl h
  | cons top rest ih =>
    intro t r _ hr
    obtain ⟨level, left⟩ := top
    cases left with
    | none => cases hr
    | some l =>
      rw [attachChild_second] at hr
      cases rest with
      | nil => cases hr; rfl
      | cons x y => exact ih (by simp) hr

end Sys2Proof.Machine
end

