-- ==== Sys2Proof/Tests/Slice0.lean ====
section
/-! SUPPORT. Tests. Expected values are those of spec/95_test_vectors.md and spec/30_encoding.md, named at each test. Then,
for each statement with hypotheses, a witness that meets them. -/

namespace Sys2Proof.Tests

open Sys2Proof Sys2Proof.Machine

set_option maxRecDepth 4000

/-! ### Helpers -/

/-- The state after an outcome, if it is a next state. -/
def after : Host.Outcome State Fault Refusal → Option State
  | .next s => some s
  | .fault _ => none
  | .refused _ => none

theorem of_after {o : Host.Outcome State Fault Refusal} {s : State} (h : after o = some s) : o = .next s := by
  cases o with
  | next t => exact congrArg _ (Option.some.inj h)
  | fault r => cases h
  | refused r => cases h

/-- The state after some instructions, one after the other. -/
def run : List Instr → State → Option State
  | [], s => some s
  | i :: rest, s => (after (exec i s)).bind (run rest)

/-- The reply after some instructions. -/
def replyOf (is : List Instr) (s : State) : Option Reply := (run is s).map State.reply

/-- A running engine L in block mode with one more entry, before a payload of two groups (P2 of
spec/95_test_vectors.md, whose first two codes are 65 and 66). -/
def lRun : EngineL :=
  { EngineL.reset with
    ctl := { status := .run, err := none }, blockMode := true, maxCodeLength := 16, codeLength := 9
    table := initialTable true ++ [.bytes [65, 66]], lastChunk := some [66]
    payload := [0x41, 0x84, 0x04, 0x04, 0xf8, 0xff, 0xff, 0xff, 0xff, 0x58, 0xb2, 0x04, 0x14, 0xa8, 0x05, 0x0b, 0x16, 0x82]
    group := [0x41, 0x84, 0x04, 0x04, 0xf8, 0xff, 0xff, 0xff, 0xff], gvalid := true, gpos := 18, pcur := 9
    out := [[65], [66]] }

/-- A running engine H on the tree of `LEVELS [[a], [b]]` (V5.2). -/
def hRun : EngineH :=
  { EngineH.reset with
    ctl := { status := .run, err := none }, levels := [{ leaves := [97] }, { leaves := [98] }]
    tree := .node (.node (.leaf 98) .eof) (.leaf 97), node := .node (.node (.leaf 98) .eof) (.leaf 97)
    payload := [0x88] }

/-- Both engines running. -/
def sRun : State := { State.reset with l := lRun, h := hRun }

/-- Engine L before its first code (R148). -/
def lFirst (bm : Bool) : EngineL :=
  { EngineL.reset with
    ctl := { status := .run, err := none }, blockMode := bm, maxCodeLength := 16, codeLength := 9
    table := initialTable bm, seam := true, codes := [65, 66] }

/-- Engine L with a full table at `max_code_length` 9 (V3.23). -/
def lFull : EngineL :=
  { lFirst false with
    maxCodeLength := 9, table := initialTable false ++ List.replicate 255 (.bytes [65, 65]), lastChunk := some [65] }

/-- The builder of `H.Start` on `LEVELS [[a], [b]]`, at its start. -/
def bStart : Builder := Builder.begin .canonical 1 (slotLists 1 [{ leaves := [97] }, { leaves := [98] }])

/-! ### Well-formedness: ill-formed terms are refused (R54, R85) -/

theorem test_wf_kwk_low : (Instr.kwk 255).wf = false := by decide
theorem test_wf_kwk_high : (Instr.kwk 65536).wf = false := by decide
theorem test_wf_ref_low : (Instr.ref 255).wf = false := by decide
theorem test_wf_ref_high : (Instr.ref 65535).wf = false := by decide
theorem test_wf_bad_low : (Instr.bad 256).wf = false := by decide
theorem test_wf_bounds : (Instr.kwk 256).wf = true ∧ (Instr.kwk 65535).wf = true ∧ (Instr.ref 65534).wf = true ∧
    (Instr.bad 257).wf = true := by decide
theorem test_selected_sentinel : (Instr.ref 256).selectedIn true 258 = false ∧
    (Instr.ref 256).selectedIn false 258 = true := by decide
theorem test_selected_clr : Instr.clr.selectedIn false 258 = false := by decide
theorem test_selected_kwk : (Instr.kwk 257).selectedIn true 258 = false := by decide
theorem test_selected_bad : (Instr.bad 258).selectedIn true 258 = false := by decide

/-! ### Decoding, words written out from spec/opcode_table.json and R85, R88, R90 -/

theorem test_word_clr : decodeTableWord 16 0b0000000100000000 = some .clr := by decide
theorem test_word_lit : decodeTableWord 16 0b0000000001000001 = some (.lit 65) := by decide
theorem test_word_ref : decodeTableWord 16 0b0000000100000001 = some (.ref 257) := by decide
theorem test_word_kwk : decodeTableWord 16 0b0000000100000010 = some (.kwk 258) := by decide
theorem test_word_bad : decodeTableWord 16 0b1111111111111111 = some (.bad 65535) := by decide
theorem test_word_left : decodeTableWord 1 0 = some .left := by decide
theorem test_word_right : decodeTableWord 1 1 = some .right := by decide
theorem test_word_rejected : decodeTableWord 8 3 = none ∧ decodeTableWord 24 0 = none := by decide
theorem test_slots : decodeSlot .placeholder = .slotPlaceholder ∧ decodeSlot (.leaf 97) = .slotLeaf 97 ∧
    decodeSlot .eof = .slotEof := by decide
theorem test_ops : decodeOp (.lStart true 16 []) = .lStart true 16 [] ∧
    decodeOp (.lStartCodes false 9 [65]) = .lStartCodes false 9 [65] ∧
    decodeOp (.hStart [] [1]) = .hStart [] [1] ∧ decodeOp (.pull .h) = .pull .h ∧
    decodeOp (.decodeAll .l) = .decodeAll .l ∧ decodeOp (.statusRead .lCfg) = .statusRead .lCfg := by decide
theorem test_encodeWord : encodeWord .clr = some [0x00, 0x01] ∧ encodeWord (.lit 0x41) = some [0x41, 0x00] ∧
    encodeWord .right = some [1] ∧ encodeWord .slotEof = none := by decide

/-- The first code without block mode: 256 is `KWK` (V3.3), 257 `BAD` (V3.4); after two codes 256 is `REF` (P1). -/
theorem test_classify : decodeCode false 256 256 = .kwk 256 ∧ decodeCode false 256 257 = .bad 257 ∧
    decodeCode false 257 256 = .ref 256 ∧ decodeCode true 257 256 = .clr ∧ decodeCode true 257 255 = .lit 255 := by decide

/-! ### Packing (V2.1, V2.2, V2.5, V6.7) -/

theorem test_pack_9 : packGroup 9 [1, 2, 3, 4, 5, 6, 7, 8] = [0x01, 0x04, 0x0c, 0x20, 0x50, 0xc0, 0xc0, 0x01, 0x04] := by
  decide
theorem test_unpack_9 : (List.range 8).map (codeAt [0x01, 0x04, 0x0c, 0x20, 0x50, 0xc0, 0xc0, 0x01, 0x04] 9) =
    [1, 2, 3, 4, 5, 6, 7, 8] := by decide
theorem test_unpack_10 : (List.range 8).map (codeAt [0x01, 0x08, 0x30, 0x00, 0x01, 0x05, 0x18, 0x70, 0x00, 0x02] 10) =
    [1, 2, 3, 4, 5, 6, 7, 8] := by decide
theorem test_packBits : packBits [true, false, false, false, true, false, false, true, true, false, true, false, false,
    true, true] = [0x89, 0xa6] := by decide

/-! ### LZW codes, one step each -/

/-- P2, step 4: `CLR` in mid-group. -/
theorem test_clr : (after (exec .clr sRun)).map (fun t => (t.l.table.length, t.l.codeLength, t.l.lastChunk, t.l.gvalid,
    t.l.out.length)) = some (257, 9, none, false, 2) := by decide
/-- P2, step 3: code 257 emits "AB" and appends 258 = "BA". -/
theorem test_ref : (after (exec (.ref 257) sRun)).map (fun t => (t.reply, t.l.table[258]?)) =
    some (.chunk [65, 66], some (.bytes [66, 65])) := by decide
theorem test_ref_sentinel : after (exec (.ref 256) sRun) = none := by decide
/-- V3.10, in block mode: `KWK` after "B" emits "BB". -/
theorem test_kwk : (after (exec (.kwk 258) sRun)).map (fun t => (t.reply, t.l.table[258]?)) =
    some (.chunk [66, 66], some (.bytes [66, 66])) := by decide
/-- V3.3. -/
theorem test_kwk_no_prior : (after (exec (.kwk 256) { sRun with l := lFirst false })).map (fun t => (t.reply, t.l.table.length)) =
    some (.fault (some ⟨.formatError, .kwkwkNoPrior⟩), 256) := by decide
/-- P1, step 1: the first code appends nothing. -/
theorem test_lit_first : (after (exec (.lit 65) { sRun with l := lFirst false })).map
    (fun t => (t.reply, t.l.table.length, t.l.lastChunk)) = some (.chunk [65], 256, some [65]) := by decide
/-- V4.4: `TL` reaches 512 and the code length 10 after the append, and the group is dropped. -/
theorem test_lit_grows : (after (exec (.lit 65) { sRun with l := { lFull with maxCodeLength := 16, seam := false } })).map
    (fun t => (t.l.table.length, t.l.codeLength, t.l.gvalid)) = some (512, 10, false) := by decide
/-- V3.4. -/
theorem test_bad : (after (exec (.bad 257) { sRun with l := lFirst false })).map
    (fun t => (t.reply, t.l.out, t.l.ctl.status)) =
    some (.fault (some ⟨.formatError, .codeOutOfRange⟩), [], .fault) := by decide

/-! ### Huffman bits, one step each (V5.2: b = 00, EOF = 01, a = 1) -/

theorem test_left : (after (exec .left sRun)).map (fun t => (t.task, t.h.node)) =
    some (some (.pull .h), .node (.leaf 98) .eof) := by decide
theorem test_right : (after (exec .right sRun)).map (fun t => (t.reply, t.h.node, t.h.out)) =
    some (.byte 97, hRun.tree, [97]) := by decide
theorem test_right_eof : (after (exec .right { sRun with h := { hRun with node := .node (.leaf 98) .eof } })).map
    (fun t => (t.reply, t.h.ctl.status)) = some (.ended, .done) := by decide

/-! ### Builder slots (R166; V5.2) -/

theorem test_slot_p : (after (exec .slotPlaceholder { sRun with h := { hRun with builder := bStart } })).map
    (fun t => t.h.builder.stack) = some [⟨1, none⟩, ⟨0, none⟩] := by decide
theorem test_slot_leaf : (after (exec (.slotLeaf 98) { sRun with h := { hRun with builder :=
    { bStart with stack := [⟨1, none⟩, ⟨0, none⟩] } } })).map (fun t => t.h.builder.stack) =
    some [⟨1, some (.leaf 98)⟩, ⟨0, none⟩] := by decide
theorem test_slot_eof : (after (exec .slotEof { sRun with h := { hRun with builder :=
    { bStart with stack := [⟨1, some (.leaf 98)⟩, ⟨0, none⟩] } } })).map (fun t => t.h.builder.stack) =
    some [⟨0, some (.node (.leaf 98) .eof)⟩] := by decide
/-- V5.4, V5.6 under the canonical reading. -/
theorem test_tree_v5_4 : buildTree .canonical [⟨[]⟩, ⟨[97, 98, 99]⟩] =
    some (.node (.node (.leaf 97) (.leaf 98)) (.node (.leaf 99) .eof)) := by decide
theorem test_tree_v5_6 : buildTree .canonical [⟨[]⟩, ⟨[97, 98, 99]⟩, ⟨[100]⟩] =
    some (.node (.node (.node (.leaf 100) .eof) (.leaf 97)) (.node (.leaf 98) (.leaf 99))) := by decide
/-- V5.2 and V5.4 under the literal reading. -/
theorem test_tree_literal : buildTree .literal [⟨[97]⟩, ⟨[98]⟩] = some (.node (.node (.leaf 97) (.leaf 98)) .eof) ∧
    buildTree .literal [⟨[]⟩, ⟨[97, 98, 99]⟩] = none := by decide
/-- V5.10, V5.11, V5.16, V5.17. -/
theorem test_tree_rejected : buildTree .canonical [⟨[97, 98]⟩] = none ∧ buildTree .canonical [⟨[]⟩] = none ∧
    buildTree .canonical [⟨[]⟩, ⟨[97, 98]⟩, ⟨[99]⟩] = none ∧ buildTree .canonical [] = none := by decide

/-! ### Host operations -/

/-- V3.21, V3.22. -/
theorem test_lStart_range : replyOf [.lStart true 8 []] State.reset = some (.fault (some ⟨.formatError, .configRange⟩)) ∧
    replyOf [.lStart true 17 []] State.reset = some (.fault (some ⟨.formatError, .configRange⟩)) := by decide
/-- V7.6 (P1). -/
theorem test_lStart_p1 : replyOf [.lStart false 16 [0x41, 0x84, 0x00, 0x14, 0x38, 0x64, 0x60, 0xc0, 0x20], .decodeAll .l]
    State.reset = some (.ok [65, 66, 65, 66, 65, 66, 65, 67, 65, 66, 65, 67, 66, 65, 65]) := by decide +kernel
/-- V7.3, V7.4. -/
theorem test_lStartCodes : replyOf [.lStartCodes false 16 [65], .pull .l, .pull .l, .pull .l] State.reset = some .ended ∧
    replyOf [.lStartCodes false 16 [65, 258], .pull .l, .pull .l, .statusRead .lStatus] State.reset =
      some (.value (.lStatus 0b00100111)) := by decide +kernel
/-- V7.8 (S6), V7.9. -/
theorem test_hStart : replyOf [.hStart [⟨[0x41]⟩] [0x20], .decodeAll .h] State.reset = some (.ok [0x41, 0x41]) ∧
    replyOf [.hStart [⟨[97, 98]⟩] [0], .pull .h] State.reset =
      some (.fault (some ⟨.formatError, .treeLevelsMalformed⟩)) := by decide +kernel
/-- V7.10: the fourth pull of P2 runs the `CLR` and the code 88. Here from the state before P2's third code. -/
theorem test_pull_p2 : (run [.pull .l, .pull .l] sRun).map (fun t => (t.reply, t.l.table.length, t.l.codeLength)) =
    some (.chunk [88], 257, 9) := by decide +kernel
/-- V7.1, V7.2. -/
theorem test_pull_idle : replyOf [.pull .l] State.reset = some .refused ∧
    replyOf [.decodeAll .h] State.reset = some .refused := by decide
/-- V7.7. -/
theorem test_decodeAll_truncated : (run [.lStart false 16 [0x41, 0x82, 0x04, 0x09, 0x12, 0x24, 0x48, 0x90, 0x20, 0x41],
    .decodeAll .l] State.reset).map (fun t => (t.reply, t.l.out.length, t.l.pcur)) =
    some (.error (some ⟨.unexpectedEndOfStream, .truncatedGroup⟩), 8, 10) := by decide +kernel
/-- R44: `L_CFG` and `L_TABLE_LEN`. -/
theorem test_statusRead : replyOf [.statusRead .lCfg] sRun = some (.value (.lCfg 0b100001)) ∧
    replyOf [.statusRead .lTableLen] sRun = some (.value (.lTableLen 258)) := by decide

/-! ### The step -/

/-- P2, step 3, as the one step of a pull. -/
theorem test_step_code : (after (step { sRun with task := some (.pull .l) })).map
    (fun t => (t.reply, t.task, t.l.gpos)) = some (.chunk [65, 66], none, 27) := by decide +kernel
/-- V5.2: the bit 1 is "a". -/
theorem test_step_bit : (after (step { sRun with agenda := [.stepwise (.pull .h)] })).map
    (fun t => (t.reply, t.task, t.h.bleft)) = some (.byte 97, none, 7) := by decide +kernel
/-- V7.10: `CLR` leaves the pull in progress; the next step is its next code, 88, whatever the host has still to come. -/
theorem test_stepwise_pull : (after (exec .clr { sRun with agenda := [.host (.statusRead .lCodeLength)] })).bind
    (fun t => (finishTask 1 t).map fun u => (t.task, u.reply, u.task, u.agenda.length)) =
    some (some (.pull .l), .chunk [88], none, 1) := by decide +kernel
/-- V5.2, slot by slot: a tree that is built, and `[a, b]` alone (V5.10), which is not. -/
theorem test_stepwise_start :
    ((after (step { sRun with agenda := [.stepwise (.build hRun.levels [0x88])] })).bind (finishTask 5)).map
      (fun t => (t.reply, t.h.tree)) = some (.started, .node (.node (.leaf 98) .eof) (.leaf 97)) ∧
    ((after (step { sRun with agenda := [.stepwise (.build [⟨[97, 98]⟩] [0])] })).bind (finishTask 0)).map State.reply =
      some (.fault (some ⟨.formatError, .treeLevelsMalformed⟩)) := by decide +kernel
theorem test_placed_words : (after (step (State.reset.withFetchWord 16 0x100))).map (fun t => (t.task, t.l.table.length)) =
      some (some (.pull .l), 257) ∧
    (after (step (State.reset.withFetchWord 16 0x41))).map State.reply = some (.chunk [0x41]) ∧
    (after (step (State.reset.withFetchWord 16 0x102))).map State.reply = some (.chunk [66, 66]) ∧
    (after (step (State.reset.withFetchWord 8 1))).map State.reply = some .ended := by decide +kernel

/-! ### Witnesses: states and operands that meet the statements' hypotheses -/

theorem lRun_ok : lRun.Ok where
  storage := by decide +kernel
  maxLegal := by decide
  width := by decide
  belowWidth := by decide +kernel
  leastWidth := .inl rfl
  lastNonempty := by decide
  first := fun h => nomatch h
  group := by decide
  seamNoGroup := by decide

theorem hRun_ok : hRun.Ok where
  storage := by decide
  built := by decide
  root := by decide
  node := by decide
  bits := by decide

theorem lFirst_ok (bm : Bool) : (lFirst bm).Ok where
  storage := by cases bm <;> decide +kernel
  maxLegal := rfl
  width := by cases bm <;> decide
  belowWidth := by cases bm <;> decide +kernel
  leastWidth := .inl rfl
  lastNonempty := by cases bm <;> decide
  first := fun _ => rfl
  group := fun h => nomatch h
  seamNoGroup := fun _ => rfl

theorem ctl_run_ok (e : Engine) : Control.Ok e { status := .run, err := none } := by simp [Control.Ok]

theorem sRun_inv : sRun.Inv := ⟨ctl_run_ok _, ctl_run_ok _, fun _ => lRun_ok, fun _ => hRun_ok, nofun⟩

theorem sFirst_inv (bm : Bool) : State.Inv { sRun with l := lFirst bm } :=
  ⟨ctl_run_ok _, ctl_run_ok _, fun _ => lFirst_ok bm, fun _ => hRun_ok, nofun⟩

/-- In the middle of an `H.Start` on `hRun`'s level table: one slot is attached. -/
def sBuild : State :=
  { sRun with h := { hRun with builder := { bStart with cur := [1, 0], stack := [⟨1, none⟩, ⟨0, none⟩] } }
              task := some (.build hRun.levels [0x88]) }

theorem sBuild_inv : sBuild.Inv where
  ctlL := ctl_run_ok _
  ctlH := ctl_run_ok _
  runL := fun _ => lRun_ok
  runH := fun _ => ⟨hRun_ok.storage, hRun_ok.built, hRun_ok.root, hRun_ok.node, hRun_ok.bits⟩
  build := by
    rintro _ _ ⟨⟩
    exact ⟨1, bStart, by decide, by decide⟩

/-- EveryCodeHasExactlyTheClassOfItsRow: each clause at a boundary. -/
theorem witness_classes : (if true then 257 else 256) ≤ 258 ∧ classify true 258 256 = .clr ∧
    classify true 258 258 = .kwk 258 ∧ classify true 258 255 = .lit 255 ∧ classify true 258 257 = .ref 257 ∧
    classify true 258 259 = .bad 259 ∧ (if false then 257 else 256) ≤ 256 ∧ classify false 256 256 = .kwk 256 := by decide

/-- DecodeOfEncodeIsTheInstruction. -/
theorem witness_encode : ∀ i ∈ [Instr.clr, .kwk 258, .lit 255, .ref 257, .bad 259, .left, .right, .slotPlaceholder,
    .slotLeaf 0, .slotEof, .lStart true 16 [1], .lStartCodes false 9 [2], .hStart [⟨[3]⟩] [4], .pull .l, .decodeAll .h,
    .statusRead .hStatus], i.wf = true ∧ i.selectedIn true 258 = true := by decide

/-- PackedGroupGivesBackItsEightCodes, at both ends of the widths. -/
theorem witness_group : ([0, 511, 1, 2, 3, 4, 5, 511] : List Nat).length = 8 ∧
    (∀ c ∈ ([0, 511, 1, 2, 3, 4, 5, 511] : List Nat), c < 2 ^ 9) ∧
    (∀ c ∈ ([0, 65535, 1, 2, 3, 4, 5, 65535] : List Nat), c < 2 ^ 16) := by decide

/-- HuffmanReadsMostSignificantBitFirst, HuffmanTruncationFaults, PayloadReadReturnsTheNextBytes (each case of
`HufReadBit`). -/
theorem witness_bits : hRun.bleft = 0 ∧ hRun.pcur = 0 ∧ hRun.ctl.status = .run ∧
    ({ hRun with payload := [] } : EngineH).payload.length ≤ hRun.pcur ∧ hRun.pcur ≤ hRun.payload.length ∧
    hRun.payload[hRun.pcur]? = some 0x88 ∧ ({ hRun with bleft := 1 } : EngineH).bleft = 0 + 1 := by decide

/-- LzwEndsAtAGroupBoundary, ShortLastGroupFaultsAtItsFill, HuffmanTruncationFaults, EngineTurnIsOneStepOfThePull,
StepRunsTheDecodedInstruction: a pull in progress, and one that the host issues, on each engine. -/
theorem witness_pullStep : ∀ e : Engine,
    ({ sRun with task := some (.pull e) } : State).pullStep = some (e, sRun) ∧
    ({ sRun with agenda := [.stepwise (.pull e)] } : State).pullStep = some (e, sRun) := fun _ => ⟨rfl, rfl⟩

/-- PayloadReadReturnsTheNextBytes, GroupFillHasItsThreeOutcomes, NextCodeFillsAtACodeBoundary,
DiscardDropsTheRestOfTheGroup, LzwEndsAtAGroupBoundary, ShortLastGroupFaultsAtItsFill: a whole group left, none left, and
one byte less than a group. -/
theorem witness_fill : lRun.seam = false ∧ lRun.ctl.status = .run ∧ 1 ≤ lRun.codeLength ∧
    lRun.pcur ≤ lRun.payload.length ∧ lRun.codeLength ≤ lRun.payload.length - lRun.pcur ∧
    lRun.pcur + lRun.codeLength ≤ lRun.payload.length ∧
    ({ lRun with pcur := 18, gpos := 72 } : EngineL).pcur = lRun.payload.length ∧
    ({ lRun with pcur := 18, gpos := 72 } : EngineL).gpos = 8 * lRun.group.length ∧
    0 < lRun.payload.length - ({ lRun with pcur := 10, gvalid := false } : EngineL).pcur ∧
    lRun.payload.length - ({ lRun with pcur := 10, gvalid := false } : EngineL).pcur < lRun.codeLength := by decide

/-- NextCodeIsTheNextFieldOfTheGroup, at the first and the last code. -/
theorem witness_field : lRun.seam = false ∧ lRun.gvalid = true ∧ lRun.group.length = lRun.codeLength ∧
    ({ lRun with gpos := 0 } : EngineL).gpos = 0 * lRun.codeLength ∧
    ({ lRun with gpos := 63 } : EngineL).gpos = 7 * lRun.codeLength := by decide

/-- SeamDeliversTheSuppliedCodes, DiscardDropsTheRestOfTheGroup: a code left, and none. -/
theorem witness_seam : (lFirst true).seam = true ∧ (lFirst true).codes[(lFirst true).ccur]? = some 65 ∧
    (lFirst true).codes.length ≤ ({ lFirst true with ccur := 2 } : EngineL).ccur := by decide

/-- LzwInitWritesExactlyTheDecoderState. -/
theorem witness_init : lRun.blockMode = true ∧ 255 < 256 := by decide

/-- ClrResetsTheDictionaryAndEmitsNothing, LitEmitsItsByte, RefEmitsItsTableEntry, KwkRepeatsTheFirstByteOrRaises,
BadRaisesCodeOutOfRange. -/
theorem witness_codes : sRun.l.ctl.status = .run ∧ sRun.l.table[257]? = some (.bytes [65, 66]) ∧
    sRun.l.lastChunk = some [66] ∧ sRun.l.table.length < 259 ∧ ¬ (sRun.l.blockMode = true ∧ 259 = 256) ∧
    (lFirst false).ctl.status = .run ∧ (lFirst false).lastChunk = none := by decide

/-- EmittingStepAppendsAtMostOneEntry: an append, a full table, and no previous chunk. -/
theorem witness_append :
    (∃ t, exec (.lit 66) sRun = .next t ∧ t.reply = .chunk [66] ∧ sRun.l.lastChunk = some [66]) ∧
    sRun.l.table.length < 2 ^ sRun.l.maxCodeLength - 1 ∧
    (∃ t, exec (.lit 66) { sRun with l := lFull } = .next t ∧ t.reply = .chunk [66]) ∧
    lFull.table.length = 2 ^ lFull.maxCodeLength - 1 ∧
    (∃ t, exec (.lit 66) { sRun with l := lFirst true } = .next t ∧ t.reply = .chunk [66] ∧
      (lFirst true).lastChunk = none) :=
  ⟨⟨_, rfl, rfl, rfl⟩, by decide +kernel, ⟨_, rfl, rfl⟩, by decide +kernel, ⟨_, rfl, rfl, rfl⟩⟩

/-- WidthGrowsWhenTheTableReachesIt: it grows; the table is too short; the width is the largest. -/
theorem witness_width :
    (∃ t, exec (.lit 66) { sRun with l := { lFull with maxCodeLength := 16 } } = .next t ∧ t.reply = .chunk [66] ∧
      2 ^ lFull.codeLength ≤ t.l.table.length ∧ lFull.codeLength < 16) ∧
    (∃ t, exec (.lit 66) sRun = .next t ∧ t.reply = .chunk [66] ∧ ¬ 2 ^ sRun.l.codeLength ≤ t.l.table.length) ∧
    (∃ t, exec (.lit 66) { sRun with l := lFull } = .next t ∧ t.reply = .chunk [66] ∧
      ¬ lFull.codeLength < lFull.maxCodeLength) :=
  ⟨⟨_, rfl, rfl, by decide +kernel, by decide⟩, ⟨_, rfl, rfl, by decide +kernel⟩, ⟨_, rfl, rfl, by decide⟩⟩

/-- KwkWithAFullTableGrowsTheChunk. -/
theorem witness_full : lFull.ctl.status = .run ∧ lFull.lastChunk = some [65] ∧
    lFull.table.length = 2 ^ lFull.maxCodeLength - 1 ∧ lFull.codeLength = lFull.maxCodeLength ∧
    9 ≤ lFull.maxCodeLength ∧ 511 < 2 ^ lFull.codeLength := by decide +kernel

/-- FirstCodeIsALiteralOrAClear, in and out of block mode, at the boundary codes. -/
theorem witness_first : (∀ bm, State.Inv { sRun with l := lFirst bm }) ∧
    (∀ bm, (lFirst bm).ctl.status = .run ∧ (lFirst bm).lastChunk = none ∧ (lFirst bm).blockMode = bm) ∧
    (if (lFirst true).blockMode then 257 else 256) = 257 ∧ (if (lFirst false).blockMode then 257 else 256) < 257 :=
  ⟨sFirst_inv, fun _ => ⟨rfl, rfl, rfl⟩, rfl, by decide⟩

/-- HuffmanBitDescendsEmitsOrEnds: a node, a leaf, and the end. -/
theorem witness_descend : sRun.h.ctl.status = .run ∧ sRun.h.node = .node (.node (.leaf 98) .eof) (.leaf 97) ∧
    (if false then Tree.leaf 97 else .node (.leaf 98) .eof) = .node (.leaf 98) .eof ∧
    (if true then Tree.leaf 97 else .node (.leaf 98) .eof) = .leaf 97 ∧
    (if true then Tree.eof else .leaf 98) = .eof := by decide

/-- HuffmanDecodesWhatThePathsEncode: "ab", then EOF, then padding (V5.2: a = 1, b = 00, EOF = 01). -/
theorem witness_huffman : buildTree .canonical hRun.levels = some hRun.tree ∧
    (∀ p ∈ [([true], (97 : Byte)), ([false, false], 98)], Tree.follow hRun.tree p.1 = some (.leaf p.2)) ∧
    Tree.follow hRun.tree [false, true] = some .eof ∧
    payloadBits [0x88] = ([([true], (97 : Byte)), ([false, false], 98)].map Prod.fst).flatten ++ [false, true] ++
      [false, false, false] ∧
    (after (exec (.hStart hRun.levels [0x88]) sRun)).isSome = true := by decide +kernel

/-- TruncatedHuffmanPayloadFails: "abaaa", then the payload ends inside a code. -/
theorem witness_truncated :
    (∀ p ∈ [([true], (97 : Byte)), ([false, false], 98), ([true], 97), ([true], 97), ([true], 97), ([true], 97)],
      Tree.follow hRun.tree p.1 = some (.leaf p.2)) ∧
    Tree.follow hRun.tree [false] = some (.node (.leaf 98) .eof) ∧ (Tree.node (.leaf 98) .eof).isInternal = true ∧
    payloadBits [0x9e] =
      ([([true], (97 : Byte)), ([false, false], 98), ([true], 97), ([true], 97), ([true], 97), ([true], 97)].map
        Prod.fst).flatten ++ [false] := by decide +kernel

/-- InstructionsStopByNameOutsideTheirPreconditions: each clause. -/
theorem witness_stops : State.reset.l.ctl.status ≠ .run ∧ State.reset.h.ctl.status ≠ .run ∧
    sRun.l.ctl.status = .run ∧ sRun.l.table.length ≤ 258 ∧ sRun.l.table[256]? = some .reserved ∧
    ({ lRun with table := [.bytes []] } : EngineL).table[0]? = some (.bytes []) ∧
    ({ lRun with lastChunk := some [] } : EngineL).lastChunk = some [] ∧
    sRun.h.ctl.status = .run ∧ ({ hRun with node := .eof } : EngineH).node.isInternal = false ∧
    State.reset.h.builder.stack = [] := by decide +kernel

/-- SlotsAttachToTheOpenNode: an open node without and with a first child. -/
theorem witness_slots : bStart.stack = ⟨0, none⟩ :: [] ∧
    ({ bStart with stack := [⟨1, some (.leaf 98)⟩, ⟨0, none⟩] } : Builder).stack = ⟨1, some (.leaf 98)⟩ :: [⟨0, none⟩] := by
  decide

/-- AssemblyBuildsTheClosedFormTree, BuiltTreeHasOneEofLeaf, LeafPathsAreTheNumeralsOfTheirSlots (each kind of slot),
HStartBuildsTheTreeOrFaults. -/
theorem witness_tree : buildTree .canonical hRun.levels = some hRun.tree ∧ buildTree .canonical [⟨[]⟩] = none ∧
    (slotLists 1 hRun.levels)[0]? = some [.placeholder, .leaf 97] ∧
    (slotLists 1 hRun.levels)[1]? = some [.leaf 98, .eof] := by decide

/-- LiteralReadingNeedsOneLastLeaf. -/
theorem witness_literal : buildTree .literal ([⟨[97]⟩] ++ [⟨[98]⟩]) = some (.node (.node (.leaf 97) (.leaf 98)) .eof) := by
  decide

/-- LStartMakesAFreshInstance, LStartCodesMakesASeamInstance, LStartOutOfRangeFaults: both ends. -/
theorem witness_range : 9 ≤ 9 ∧ 9 ≤ 16 ∧ 16 ≤ 16 ∧ (8 < 9 ∨ 16 < 8) ∧ (17 < 9 ∨ 16 < 17) := by decide

/-- SizeBoundIsCheckedBeforeTheCounts: too many levels, too many leaves, and neither. -/
theorem witness_bound : (∃ m, some 1 = some m ∧ m < hRun.levels.length) ∧
    (∃ m, some 0 = some m ∧ ∃ lv ∈ hRun.levels, m < lv.leaves.length) ∧
    (∀ m, some 2 = some m → hRun.levels.length ≤ m) ∧ (∀ m, none = some m → hRun.levels.length ≤ m) ∧
    (∀ m, some 1 = some m → ∀ lv ∈ hRun.levels, lv.leaves.length ≤ m) :=
  ⟨⟨1, rfl, by decide⟩, ⟨0, rfl, by decide⟩, by rintro _ ⟨⟩; decide, nofun, by rintro _ ⟨⟩; decide⟩

/-- PullsOfAStoppedEngineAreSticky, OnlyStartOrResetLeavesDoneOrFault: each status, on each engine. -/
theorem witness_stopped : State.reset.l.ctl.status = .idle ∧ State.reset.h.ctl.status = .idle ∧
    (lRun.finish).ctl.status = .done ∧ (hRun.finish).ctl.status = .done ∧
    (lRun.raise .formatError .codeOutOfRange).ctl.status = .fault ∧
    (hRun.raise .unexpectedEndOfStream .truncatedTraversal).ctl.status = .fault ∧
    (∃ t, step { sRun with l := lRun.finish, h := hRun.finish, agenda := [.stepwise (.pull .l)] } = .next t) ∧
    (∃ t, step { sBuild with l := lRun.finish, h := hRun.finish } = .next t) :=
  ⟨rfl, rfl, rfl, rfl, rfl, rfl, ⟨_, rfl⟩, _, rfl⟩

/-- PullRunsToTheFirstStepThatAnswers, DecodeAllConcatenatesOrReportsTheError, NoStepFromTheInvariantStops,
EngineTurnIsOneStepOfThePull. -/
theorem witness_running : sRun.Inv ∧ sRun.l.Ok ∧ sRun.h.Ok ∧ sRun.l.ctl.status = .run ∧ sRun.h.ctl.status = .run :=
  ⟨sRun_inv, lRun_ok, hRun_ok, rfl, rfl⟩

/-- DecodeAllConcatenatesOrReportsTheError: pulls that emit, then one that answers the end (V7.3's code and one more) or the
error (V7.4). -/
theorem witness_pulls :
    (emittingPulls .l 2 { sRun with l := lFirst true }).map (fun p => (p.2, (after (exec (.pull .l) p.1)).map State.reply)) =
      some ([65, 66], some .ended) ∧
    (emittingPulls .l 1 { sRun with l := { lFirst true with codes := [65, 258] } }).map
      (fun p => (p.2, (after (exec (.pull .l) p.1)).map State.reply)) =
      some ([65], some (.fault (some ⟨.formatError, .codeOutOfRange⟩))) := by decide +kernel

/-- EngineTurnIsOneStepOfThePull: the operations that are carried out in several steps. -/
theorem witness_stepwise : ∀ t ∈ [Machine.Task.pull .l, .pull .h, .build hRun.levels [0x88]],
    ({ sRun with agenda := [.stepwise t] } : State).task = none ∧
    ({ sRun with agenda := [.stepwise t] } : State).agenda = .stepwise t :: [] ∧
    State.Inv { sRun with agenda := [.stepwise t] } := fun _ _ =>
  ⟨rfl, rfl, ctl_run_ok _, ctl_run_ok _, fun _ => lRun_ok, fun _ => hRun_ok, nofun⟩

/-- StatusReadShowsTheFieldsAndChangesNothing: in range, with and without an error. -/
theorem witness_status : sRun.l.maxCodeLength < 32 ∧ sRun.l.codeLength < 32 ∧ sRun.l.table.length < 65536 ∧
    sRun.l.ctl.err = none ∧ sRun.h.ctl.err = none ∧
    (lRun.raise .formatError .codeOutOfRange).ctl.err = some ⟨.formatError, .codeOutOfRange⟩ ∧
    (hRun.raise .unexpectedEndOfStream .truncatedTraversal).ctl.err =
      some ⟨.unexpectedEndOfStream, .truncatedTraversal⟩ := by decide +kernel

/-- LzwCodesKeepEverythingElse, OnlyStartWritesParametersInputAndTree, StreamPositionsNeverMoveBack, EmittedPrefixStands:
one of each code. -/
theorem witness_code_frame : ∀ i ∈ [Instr.clr, .kwk 258, .lit 66, .ref 257, .bad 259],
    i.isCode = true ∧ i.startsL = false ∧ i.startsH = false ∧ i.onL = true ∧ (after (exec i sRun)).isSome = true ∧
      sRun.l.pcur ≤ sRun.l.payload.length ∧ sRun.l.ccur ≤ sRun.l.codes.length := by
  decide +kernel

/-- StreamPositionsNeverMoveBack: steps that replace neither instance. -/
theorem witness_positions : ∀ m ∈ [Turn.host (.pull .l), .stepwise (.pull .h)],
    ({ sRun with agenda := [m] } : State).replacesL = false ∧ ({ sRun with agenda := [m] } : State).replacesH = false ∧
      (after (step { sRun with agenda := [m] })).isSome = true := by decide +kernel

/-- HuffmanBitsAndSlotsKeepEverythingElse, EnginesShareNoState. -/
theorem witness_bit_frame : ∀ i ∈ [Instr.left, .right, .slotPlaceholder, .slotLeaf 98, .slotEof],
    i.onH = true ∧ i.startsH = false ∧
      (after (exec i { sRun with h := { hRun with builder := bStart } })).isSome = true ∧
      sRun.h.pcur ≤ sRun.h.payload.length := by decide +kernel

/-- StepsOfTheTwoEnginesCommute. -/
theorem witness_commute : (Instr.lit 66).onL = true ∧ Instr.right.onH = true ∧
    (run [.lit 66, .right] sRun).isSome = true := by decide +kernel

/-- StepRunsTheDecodedInstruction: each clause; see also `witness_pullStep`. -/
theorem witness_step : ({ sRun with agenda := [.host (.pull .l)] } : State).agenda = .host (.pull .l) :: [] ∧
    lRun.nextCode = ({ lRun with gpos := 27 }, .code 257) ∧
    hRun.readBit = some ({ hRun with pcur := 1, cur := 0x88, bleft := 7 }, true) ∧
    sBuild.task = some (.build hRun.levels [0x88]) ∧ (sBuild.h.builder.takeSlot).map Prod.fst = some (.leaf 98) ∧
    ({ sRun with agenda := [.hardReset] } : State).agenda = .hardReset :: [] ∧ sRun.task = none ∧
    sRun.agenda = [] := by decide +kernel

/-- EveryStepKeepsTheInvariant: each move, and each operation in progress, from a state that meets it. -/
theorem witness_invariant : (∀ m ∈ [Turn.host (.pull .l), .stepwise (.pull .l), .stepwise (.pull .h),
      .stepwise (.build hRun.levels [0x88]), .hardReset],
    State.Inv { sRun with agenda := [m] } ∧ (after (step { sRun with agenda := [m] })).isSome = true) ∧
    (∀ e, State.Inv { sRun with task := some (.pull e) } ∧
      (after (step { sRun with task := some (.pull e) })).isSome = true) ∧
    sBuild.Inv ∧ (after (step sBuild)).isSome = true := by
  refine ⟨fun m hm => ⟨⟨ctl_run_ok _, ctl_run_ok _, fun _ => lRun_ok, fun _ => hRun_ok, nofun⟩, ?_⟩,
    fun e => ⟨⟨ctl_run_ok _, ctl_run_ok _, fun _ => lRun_ok, fun _ => hRun_ok, nofun⟩, ?_⟩, sBuild_inv, by decide +kernel⟩
  · revert m
    decide +kernel
  · cases e <;> decide +kernel

/-- DecodingIsDeterministic: the same `Start` from two states, on each engine. -/
theorem witness_determinism : (Instr.lStart true 16 [1]).startsL = true ∧ (Instr.hStart hRun.levels [0x88]).startsH = true ∧
    replyOf [.lStart true 16 [1]] State.reset = some .started ∧ replyOf [.lStart true 16 [1]] sRun = some .started ∧
    replyOf [.hStart hRun.levels [0x88]] State.reset = some .started ∧
    replyOf [.hStart hRun.levels [0x88]] sRun = some .started := by decide +kernel

/-- SeamEqualsThePackedForm: V3.16, and a whole group whose second code raises `CODE_OUT_OF_RANGE` (the codes 65, 511 and
six that are not reached, packed by hand). -/
theorem witness_packed : replyOf [.lStart true 16 [0x00, 0xff, 0xff, 0xff, 0xff, 0xff, 0xff, 0xff, 0xff], .decodeAll .l]
    State.reset = some (.ok []) ∧
    replyOf [.lStart true 16 [0x41, 0xfe, 0x03, 0, 0, 0, 0, 0, 0], .decodeAll .l] State.reset =
      some (.error (some ⟨.formatError, .codeOutOfRange⟩)) := by decide +kernel

end Sys2Proof.Tests
end

section
/-! PROOFS. What one step of the machine runs (spec/00_scope.md R9; spec/10_state.md R40). -/

namespace Sys2Proof.Machine

theorem step_of_run {s s' : State} {i : Instr} (h : fetch s = .run i s') : step s = exec i s' := by
  rw [step, h]

theorem step_of_settled {s s' : State} (h : fetch s = .settled s') : step s = .next s' := by
  rw [step, h]

/-- R132: a running engine L whose next code can be read fetches the instruction of that code's class. -/
theorem fetchL_code {s : State} {l : EngineL} {c : Nat} (hr : s.l.ctl.status = .run)
    (hc : s.l.nextCode = (l, .code c)) :
    fetchL s = .run (decodeCode l.blockMode l.table.length c) (s.setL l) := by
  simp [fetchL, Control.isRunning, hr, hc]

/-- R182: a running engine H that has a bit left fetches that bit. -/
theorem fetchH_bit {s : State} {h : EngineH} {b : Bool} (hr : s.h.ctl.status = .run)
    (hb : s.h.readBit = some (h, b)) : fetchH s = .run (decodeBit b) (s.setH h) := by
  simp [fetchH, Control.isRunning, hr, hb]

/-- R165: an `H.Start` in progress that has a slot left fetches that slot. -/
theorem fetchBuild_slot {s : State} {k : Slot} {b : Builder} (levels : List Level) (payload : Bytes)
    (hk : s.h.builder.takeSlot = some (k, b)) :
    fetchBuild levels payload s = .run (decodeSlot k) (s.setH { s.h with builder := b }) := by
  obtain ⟨top, rest, hs, -, -⟩ := Builder.takeSlot_some hk
  simp [fetchBuild, hs, hk]

theorem fetch_of_task {s : State} {t : Task} (h : s.task = some t) : fetch s = fetchTask s t := by
  rw [fetch, h]

theorem fetch_of_no_task {s : State} (h : s.task = none) : fetch s = fetchMove s := by
  rw [fetch, h]

theorem fetchMove_nil {s : State} (h : s.agenda = []) : fetchMove s = .settled s := by
  rw [fetchMove, h]

theorem fetchMove_host {s : State} {op : HostOp} {rest : List Turn} (h : s.agenda = .host op :: rest) :
    fetchMove s = .run (decodeOp op) (s.setAgenda rest) := by
  rw [fetchMove, h]

theorem fetchMove_hardReset {s : State} {rest : List Turn} (h : s.agenda = .hardReset :: rest) :
    fetchMove s = .settled ((s.setAgenda rest).hardReset) := by
  rw [fetchMove, h]

/-- Settles O54: each kind of fetch, followed by the execution of what it fetched. -/
theorem stepRunsTheDecodedInstruction : Obligations.StepRunsTheDecodedInstruction := by
  intro s s' rest
  refine ⟨fun l c hp hr hc => ?_, fun h b hp hr hb => ?_, fun levels payload k b ht hk => ?_, fun op ht ha => ?_,
    fun ht ha => ?_, fun ht ha => ?_⟩
  · obtain ⟨hs', hf⟩ := fetch_pullL hp
    have hl : s'.l = s.l := by rw [hs']
    exact step_of_run (hf.trans (fetchL_code (hl ▸ hr) (hl ▸ hc)))
  · obtain ⟨hs', hf⟩ := fetch_pullH hp
    have hh : s'.h = s.h := by rw [hs']
    exact step_of_run (hf.trans (fetchH_bit (hh ▸ hr) (hh ▸ hb)))
  · exact step_of_run ((fetch_of_task ht).trans (fetchBuild_slot levels payload hk))
  · exact step_of_run ((fetch_of_no_task ht).trans (fetchMove_host ha))
  · rw [step_of_settled ((fetch_of_no_task ht).trans (fetchMove_hardReset ha)), ht]
    rfl
  · exact step_of_settled ((fetch_of_no_task ht).trans (fetchMove_nil ha))

end Sys2Proof.Machine
end

section
/-! PROOFS. Each engine works on its own (spec/00_scope.md R9; spec/10_state.md R43): what an instruction does to its
engine is fixed by that engine alone, and it touches nothing of the other. -/

namespace Sys2Proof.Machine

theorem exec_decodeAllL {s : State} {l : EngineL} {g : Gathered} (h : decodeAllL s.l = .next (l, g)) :
    exec (.decodeAll .l) s = .next ((s.setL l).setReply (replyGathered l.ctl g)) := by
  simp only [exec, execDecodeAll, h]

theorem exec_decodeAllH {s : State} {e : EngineH} {g : Gathered} (h : decodeAllH s.h = .next (e, g)) :
    exec (.decodeAll .h) s = .next ((s.setH e).setReply (replyGathered e.ctl g)) := by
  simp only [exec, execDecodeAll, h]

/-- `s` with engine L replaced; `task` and `reply` say what becomes of the operation in progress and of the answer. -/
def State.workedL (s : State) (l : EngineL) (task : Option Task → Option Task) (reply : Reply → Reply) : State :=
  { s with l := l, task := task s.task, reply := reply s.reply }

/-- As `workedL`, for engine H. -/
def State.workedH (s : State) (h : EngineH) (task : Option Task → Option Task) (reply : Reply → Reply) : State :=
  { s with h := h, task := task s.task, reply := reply s.reply }

theorem State.setL_settle (s : State) (l : EngineL) (e : Engine) (r : Option Reply) :
    (s.setL l).settle e r =
      s.workedL l (fun t => if r.isNone then some (.pull e) else t) (fun a => r.getD a) := by
  cases r <;> rfl

theorem State.setH_settle (s : State) (h : EngineH) (e : Engine) (r : Option Reply) :
    (s.setH h).settle e r =
      s.workedH h (fun t => if r.isNone then some (.pull e) else t) (fun a => r.getD a) := by
  cases r <;> rfl

/-- What work on engine L comes to, whatever the rest of the machine is. -/
theorem State.answerL_local {s a : State} {w : Work EngineL Bytes} (h : s.answerL w = .next a) :
    ∃ l task reply, ∀ t : State, t.answerL w = .next (t.workedL l task reply) := by
  obtain ⟨l, r, rfl, -⟩ := State.answerL_next h
  exact ⟨l, _, _, fun t => congrArg _ (t.setL_settle l .l (replyL l r))⟩

theorem State.answerH_local {s a : State} {w : Work EngineH Byte} (h : s.answerH w = .next a) :
    ∃ e task reply, ∀ t : State, t.answerH w = .next (t.workedH e task reply) := by
  obtain ⟨e, r, rfl, -⟩ := State.answerH_next h
  exact ⟨e, _, _, fun t => congrArg _ (t.setH_settle e .h (replyH e r))⟩

/-- R43: an instruction of engine L does the same to engine L in every machine with that engine L, and nothing to
engine H or to the moves to come. -/
theorem exec_onL_local {i : Instr} {s a : State} (hi : i.onL = true) (ha : exec i s = .next a) :
    ∃ l task reply, ∀ t : State, t.l = s.l → exec i t = .next (t.workedL l task reply) := by
  by_cases hc : i.isCode = true
  · obtain ⟨cls, rfl⟩ := isCode_instr hc
    have hr := (exec_code_next ha).1
    rw [exec_code_run cls hr] at ha
    obtain ⟨l, task, reply, h⟩ := State.answerL_local ha
    exact ⟨l, task, reply, fun t ht => by rw [exec_code_run cls (ht ▸ hr), ht, h]⟩
  cases i with
  | clr | kwk _ | lit _ | ref _ | bad _ => exact absurd rfl hc
  | left | right | slotPlaceholder | slotLeaf _ | slotEof | hStart _ _ | statusRead _ => cases hi
  | lStart bm m p =>
    by_cases hp : payloadFits p = true
    · exact ⟨startL bm m p false [] s.l, id, fun _ => replyStart (startL bm m p false [] s.l).ctl,
        fun t ht => by simp only [exec, execLStart, hp, if_true, ht]; rfl⟩
    · exact ⟨s.l, id, fun _ => .refused, fun t ht => by simp only [exec, execLStart, hp, ← ht]; rfl⟩
  | lStartCodes bm m cs =>
    exact ⟨startL bm m [] true cs s.l, id, fun _ => replyStart (startL bm m [] true cs s.l).ctl,
      fun t ht => by simp only [exec, execLStartCodes, ht]; rfl⟩
  | pull e =>
    cases e with
    | h => cases hi
    | l =>
      obtain ⟨l, task, reply, h⟩ := State.answerL_local (s := s) ha
      exact ⟨l, task, reply, fun t ht => by rw [exec, execPull, ht, h]⟩
  | decodeAll e =>
    cases e with
    | h => cases hi
    | l =>
      cases hd : decodeAllL s.l with
      | next p =>
        exact ⟨p.1, id, fun _ => replyGathered p.1.ctl p.2, fun t ht => exec_decodeAllL (by rw [ht, hd])⟩
      | fault f => simp [exec, execDecodeAll, hd] at ha
      | refused r => simp [exec, execDecodeAll, hd] at ha

/-- R186, R187: a Huffman bit of a running engine H does to the machine what it does to engine H. -/
theorem exec_bit_run (bit : Bool) {s : State} (hr : s.h.ctl.status = .run) :
    exec (decodeBit bit) s = s.answerH (bitStep bit s.h) := by
  cases bit <;> simp [decodeBit, exec, execLeft, execRight, State.runH, Control.isRunning, hr]

theorem exec_bit_running {bit : Bool} {s a : State} (h : exec (decodeBit bit) s = .next a) :
    s.h.ctl.status = .run := by
  cases bit with
  | false => exact (State.runH_next (bit := false) h).1
  | true => exact (State.runH_next (bit := true) h).1

theorem exec_slot (k : Slot) (s : State) : exec (decodeSlot k) s = s.runSlot k := by
  cases k <;> rfl

theorem exec_bit_local {bit : Bool} {s a : State} (ha : exec (decodeBit bit) s = .next a) :
    ∃ h task reply, ∀ t : State, t.h = s.h → exec (decodeBit bit) t = .next (t.workedH h task reply) := by
  have hr := exec_bit_running ha
  rw [exec_bit_run bit hr] at ha
  obtain ⟨h, task, reply, he⟩ := State.answerH_local ha
  exact ⟨h, task, reply, fun t ht => by rw [exec_bit_run bit (ht ▸ hr), ht, he]⟩

theorem exec_slot_local {k : Slot} {s a : State} (ha : exec (decodeSlot k) s = .next a) :
    ∃ h task reply, ∀ t : State, t.h = s.h → exec (decodeSlot k) t = .next (t.workedH h task reply) := by
  rw [exec_slot] at ha
  obtain ⟨top, rest, hs⟩ := List.exists_cons_of_ne_nil (State.runSlot_next ha).1
  exact ⟨{ s.h with builder := s.h.builder.attachSlot k }, id, id,
    fun t ht => by simp only [exec_slot, State.runSlot, ht, hs]; rfl⟩

/-- R43: as `exec_onL_local`, for engine H. -/
theorem exec_onH_local {i : Instr} {s a : State} (hi : i.onH = true) (ha : exec i s = .next a) :
    ∃ h task reply, ∀ t : State, t.h = s.h → exec i t = .next (t.workedH h task reply) := by
  cases i with
  | clr | kwk _ | lit _ | ref _ | bad _ | lStart _ _ _ | lStartCodes _ _ _ | statusRead _ => cases hi
  | left => exact exec_bit_local (bit := false) ha
  | right => exact exec_bit_local (bit := true) ha
  | slotPlaceholder => exact exec_slot_local (k := .placeholder) ha
  | slotLeaf b => exact exec_slot_local (k := .leaf b) ha
  | slotEof => exact exec_slot_local (k := .eof) ha
  | hStart lv p =>
    by_cases hp : payloadFits p = true
    · exact ⟨startH lv p s.h, id, fun _ => replyStart (startH lv p s.h).ctl,
        fun t ht => by simp only [exec, execHStart, hp, if_true, ht]; rfl⟩
    · exact ⟨s.h, id, fun _ => .refused, fun t ht => by simp only [exec, execHStart, hp, ← ht]; rfl⟩
  | pull e =>
    cases e with
    | l => cases hi
    | h =>
      obtain ⟨h, task, reply, he⟩ := State.answerH_local (s := s) ha
      exact ⟨h, task, reply, fun t ht => by rw [exec, execPull, ht, he]⟩
  | decodeAll e =>
    cases e with
    | l => cases hi
    | h =>
      cases hd : decodeAllH s.h with
      | next p =>
        exact ⟨p.1, id, fun _ => replyGathered p.1.ctl p.2, fun t ht => exec_decodeAllH (by rw [ht, hd])⟩
      | fault f => simp [exec, execDecodeAll, hd] at ha
      | refused r => simp [exec, execDecodeAll, hd] at ha

/-- Settles O49: what an instruction does to its engine is fixed by that engine alone. -/
theorem stepsOfTheTwoEnginesCommute : Obligations.StepsOfTheTwoEnginesCommute := by
  intro i j s a b hi hj ha hb
  obtain ⟨l, taskL, answerL, hL⟩ := exec_onL_local hi ha
  obtain ⟨h, taskH, answerH, hH⟩ := exec_onH_local hj hb
  obtain rfl : a = s.workedL l taskL answerL := Host.Outcome.next.inj (ha.symm.trans (hL s rfl))
  obtain rfl := Host.Outcome.next.inj (hb.symm.trans (hH _ rfl))
  exact ⟨_, _, hH s rfl, hL (s.workedH h taskH answerH) rfl, rfl, rfl, rfl⟩

end Sys2Proof.Machine
end

section
/-! PROOFS. What a `Start` that succeeds makes is a running engine under its invariant (spec/44_host_operations.md R200,
R203), and a decode of such an engine ends (R204). -/

namespace Sys2Proof.Machine

/-! ### A built tree has an internal root (R169 a) -/

/-- A root the builder has finished is internal. -/
def Builder.RootInternal (b : Builder) : Prop := ∀ t, b.built = some t → t.isInternal = true

theorem Builder.RootInternal.attach {b b' : Builder} {k : Slot} (h : b.RootInternal)
    (ht : b.takeSlot = some (k, b')) : (b'.attachSlot k).RootInternal := by
  obtain ⟨top, rest, hs, -, rfl⟩ := Builder.takeSlot_some ht
  have leaf : ∀ c t, (attachChild c b.stack).2 = some t → t.isInternal = true := fun c t =>
    attachChild_internal b.stack (by simp [hs])
  cases k with
  | placeholder => simpa [Builder.RootInternal, Builder.attachSlot, Builder.openChild, hs] using h
  | leaf v => exact leaf (.leaf v)
  | eof => exact leaf .eof

theorem Builder.RootInternal.assemble (n : Nat) : ∀ {b c : Builder}, b.RootInternal → b.assemble n = some c →
    c.RootInternal := by
  induction n with
  | zero =>
    intro b c h hc
    simp only [Builder.assemble] at hc
    split at hc <;> cases hc
    exact h
  | succ n ih =>
    intro b c h hc
    cases hs : b.stack with
    | nil =>
      rw [Builder.assemble_done _ hs] at hc
      cases hc
      exact h
    | cons top rest =>
      cases ht : b.takeSlot with
      | none => simp [Builder.assemble, hs, ht] at hc
      | some p =>
        rw [Builder.assemble_step n ht] at hc
        exact ih (h.attach ht) hc

theorem readyBuilder_begin {r : Config.TreeReading} {levels : List Level} {b : Builder}
    (h : readyBuilder r levels = some b) : ∃ n slots, b = Builder.begin r n slots := by
  cases r with
  | canonical =>
    simp only [readyBuilder, readyCanonical] at h
    split at h
    · cases h
    · split at h <;> cases h
      exact ⟨_, _, rfl⟩
  | literal =>
    simp only [readyBuilder, readyLiteral] at h
    split at h <;> cases h
    exact ⟨_, _, rfl⟩

theorem Builder.root_built {b : Builder} {t : Tree} (h : b.root = some t) : b.built = some t := by
  unfold Builder.root at h
  split at h
  · exact h
  · split at h
    · exact h
    · cases h

/-- R169 (a), under either reading. -/
theorem buildTree_internal {r : Config.TreeReading} {levels : List Level} {t : Tree}
    (h : buildTree r levels = some t) : t.isInternal = true := by
  obtain ⟨b, hb, ht⟩ := Option.bind_eq_some_iff.mp h
  obtain ⟨c, hc, hroot⟩ := Option.bind_eq_some_iff.mp ht
  obtain ⟨n, slots, rfl⟩ := readyBuilder_begin hb
  have hbegin : (Builder.begin r n slots).RootInternal := fun t ht => nomatch ht
  exact hbegin.assemble _ hc t (Builder.root_built hroot)

/-! ### A `Start` that succeeds (R200, R203) -/

theorem treeOrCause_ok {r : Config.TreeReading} {ml mv : Option Nat} {levels : List Level} {t : Tree}
    (h : treeOrCause r ml mv levels = .ok t) : buildTree r levels = some t := by
  unfold treeOrCause at h
  split at h
  · split at h <;> cases h
    assumption
  · cases h

/-- R203: on a tree that its level table builds, a fresh engine H is running under its invariant. -/
theorem EngineH.fresh_live (h : EngineH) {levels : List Level} {t : Tree} (p : Bytes)
    (ht : buildTree Config.treeReading levels = some t) : (h.fresh levels t p).Live :=
  have hi := buildTree_internal ht
  ⟨⟨by simp [EngineH.storageWf], ht, hi, ⟨hi, hasSub_self t⟩, Nat.zero_le _⟩, rfl⟩

/-- R200: with a legal `max_code_length`, a fresh engine L is running under its invariant. -/
theorem EngineL.fresh_live (l : EngineL) (bm : Bool) {m : Nat} (p : Bytes) (sm : Bool) (cs : List Nat)
    (hm : maxCodeLengthLegal m = true) : (l.fresh bm m p sm cs).Live := by
  have h := startL_good bm m p sm cs l
  rw [startL, if_pos hm] at h
  exact ⟨h.2 rfl, rfl⟩

/-! ### A decode of a running engine ends (R202, R204) -/

/-- R204: "The loop ends", for an engine whose pull is the loop of its steps. -/
theorem Steady.gather {ε α : Type} {step pull : ε → Work ε α} {ok : ε → Prop} {budget : ε → Nat}
    (st : Steady step ok budget) (hpull : ∀ e, ok e → pull e = pullLoop step (budget e) e) (bytesOf : α → Bytes)
    {e : ε} (he : ok e) : ∃ e' g, gather pull bytesOf (budget e) [] e = .next (e', g) := by
  obtain ⟨e', g, hg, -⟩ := gather_ends (bytesOf := bytesOf) st.pos (fun a ha => by
    obtain ⟨a', r, hp, -, hx⟩ := st.pull (budget a) a ha (Nat.le_refl _)
    exact ⟨a', r, (hpull a ha).trans hp, hx⟩) (budget e) [] e he (Nat.le_refl _)
  exact ⟨e', g, hg⟩

theorem EngineL.Live.decodeAll {l : EngineL} (h : l.Live) : ∃ l' g, decodeAllL l = .next (l', g) :=
  steady_stepL.gather (fun _ hl => pullL_run hl.2) id h

theorem EngineH.Live.decodeAll {h : EngineH} (hl : h.Live) : ∃ h' g, decodeAllH h = .next (h', g) :=
  steady_stepH.gather (fun _ hl => pullH_run hl.2) (fun b => [b]) hl

end Sys2Proof.Machine
end

section
/-! PROOFS. Decoding is deterministic (spec/00_scope.md R10): the same `Start` makes engines that differ in free values only,
and no step, pull or decode of an engine sees its free values (spec/10_state.md R46). -/

namespace Sys2Proof.Machine

/-! ### Work that cannot see a difference (R10) -/

/-- From related engines `work` answers alike and leaves related engines. -/
def Blind {ε α : Type} (alike : ε → ε → Prop) (work : ε → Work ε α) : Prop :=
  ∀ {a b a' : ε} {r : Result α}, alike a b → work a = .next (a', r) → ∃ b', work b = .next (b', r) ∧ alike a' b'

theorem Blind.pullLoop {ε α : Type} {alike : ε → ε → Prop} {step : ε → Work ε α} (h : Blind alike step) (n : Nat) :
    Blind alike (pullLoop step n) := by
  induction n with
  | zero => intro a b a' r _ hw; cases hw
  | succ n ih =>
    intro a b a' r hab hw
    simp only [Machine.pullLoop] at hw ⊢
    cases hs : step a with
    | fault f => simp [hs] at hw
    | refused x => simp [hs] at hw
    | next p =>
      obtain ⟨m, res⟩ := p
      obtain ⟨m', hs', hm⟩ := h hab hs
      rw [hs] at hw
      rw [hs']
      cases res with
      | silent => exact ih hm hw
      | emitted _ | ended | faulted | refused => cases hw; exact ⟨m', rfl, hm⟩

theorem Blind.gather {ε α : Type} {alike : ε → ε → Prop} {pull : ε → Work ε α} (h : Blind alike pull)
    (bytesOf : α → Bytes) (n : Nat) : ∀ {buf : Bytes} {a b a' : ε} {g : Gathered}, alike a b →
    gather pull bytesOf n buf a = .next (a', g) → ∃ b', gather pull bytesOf n buf b = .next (b', g) ∧ alike a' b' := by
  induction n with
  | zero => intro buf a b a' g _ hw; cases hw
  | succ n ih =>
    intro buf a b a' g hab hw
    simp only [Machine.gather] at hw ⊢
    cases hs : pull a with
    | fault f => simp [hs] at hw
    | refused x => simp [hs] at hw
    | next p =>
      obtain ⟨m, res⟩ := p
      obtain ⟨m', hs', hm⟩ := h hab hs
      rw [hs] at hw
      rw [hs']
      cases res with
      | emitted x => exact ih hm hw
      | silent => cases hw
      | ended | faulted | refused => cases hw; exact ⟨m', rfl, hm⟩

/-- R202, R205, R206: with the status and the budget in sight, a pull sees no more than its steps do. -/
theorem Blind.pull {ε α : Type} {alike : ε → ε → Prop} {step : ε → Work ε α} (h : Blind alike step)
    {status : ε → Status} {budget : ε → Nat} (hs : ∀ {a b}, alike a b → status b = status a)
    (hb : ∀ {a b}, alike a b → budget b = budget a) :
    Blind alike fun e => pullBy (status e) (fun e => Machine.pullLoop step (budget e) e) e := by
  intro a b a' r hab hw
  dsimp only at hw ⊢
  rw [hs hab]
  cases hst : status a <;> rw [hst] at hw
  case run =>
    obtain ⟨b', hb', hab'⟩ := h.pullLoop (budget a) hab hw
    exact ⟨b', by rw [← hb', ← hb hab]; rfl, hab'⟩
  all_goals
    cases hw
    exact ⟨b, rfl, hab⟩

/-! ### Engine L does not see its free values (R10, R46) -/

/-- Engine L with other values in the elements that a `Start` leaves without one. -/
def EngineL.withFree (l : EngineL) (group : Bytes) (gpos draws : Nat) : EngineL :=
  { l with group := group, gpos := gpos, draws := draws }

/-- The two engines differ at most where the first holds free values: in the counter, and in the group and its position
while no group is buffered. -/
inductive EngineL.Alike (l : EngineL) : EngineL → Prop where
  | mk (group : Bytes) (gpos draws : Nat) (buffered : l.gvalid = true → group = l.group ∧ gpos = l.gpos) :
      l.Alike (l.withFree group gpos draws)

theorem EngineL.Alike.budget {l l' : EngineL} (h : l.Alike l') : l'.budget = l.budget := by
  obtain ⟨g, p, d, hb⟩ := h
  cases hv : l.gvalid with
  | false => simp [EngineL.budget, EngineL.withFree, hv]
  | true =>
    obtain ⟨rfl, rfl⟩ := hb hv
    rfl

theorem EngineL.Alike.needsFill {l l' : EngineL} (h : l.Alike l') : l'.needsFill = l.needsFill := by
  obtain ⟨g, p, d, hb⟩ := h
  cases hv : l.gvalid with
  | false => simp [EngineL.needsFill, EngineL.withFree, hv]
  | true =>
    obtain ⟨rfl, rfl⟩ := hb hv
    rfl

/-- R111: the buffered group is no free value. -/
theorem EngineL.Alike.takeBit {l l' : EngineL} (h : l.Alike l') (hv : l.gvalid = true) :
    l'.takeBit.2 = l.takeBit.2 ∧ l.takeBit.1.Alike l'.takeBit.1 := by
  obtain ⟨g, p, d, hb⟩ := h
  obtain ⟨rfl, rfl⟩ := hb hv
  exact ⟨rfl, .mk _ _ d fun _ => ⟨rfl, rfl⟩⟩

/-- R112: a fill looks at nothing of the old group. -/
theorem EngineL.Alike.fillGroup {l l' : EngineL} (h : l.Alike l') :
    l'.fillGroup.2 = l.fillGroup.2 ∧ l.fillGroup.1.Alike l'.fillGroup.1 := by
  obtain ⟨g, p, d, hb⟩ := h
  have hr : (l.withFree g p d).payloadRead l.codeLength =
    ((l.payloadRead l.codeLength).1.withFree g p d, (l.payloadRead l.codeLength).2) := rfl
  have hw : (l.withFree g p d).codeLength = l.codeLength := rfl
  unfold EngineL.fillGroup
  rw [hw, hr]
  split
  · exact ⟨rfl, .mk g p d hb⟩
  · split
    · exact ⟨rfl, .mk g p d fun hv => nomatch hv⟩
    · exact ⟨rfl, .mk _ _ d fun _ => ⟨rfl, rfl⟩⟩

theorem EngineL.fillGroup_filled {l l' : EngineL} (h : l.fillGroup = (l', .filled)) : l'.gvalid = true := by
  unfold EngineL.fillGroup at h
  split at h
  · cases h
  · split at h <;> cases h
    rfl

/-- R111: a bit comes from the group that is buffered, or from the one the fill has just read. -/
theorem EngineL.Alike.readBit {l l' : EngineL} (h : l.Alike l') :
    l'.readBit.2 = l.readBit.2 ∧ l.readBit.1.Alike l'.readBit.1 := by
  have hf := h.fillGroup
  unfold EngineL.readBit
  rw [h.needsFill]
  by_cases hn : l.needsFill = true
  · rw [if_pos hn, if_pos hn]
    rcases hm : l.fillGroup with ⟨m, res⟩
    rcases hm' : l'.fillGroup with ⟨m', res'⟩
    rw [hm, hm'] at hf
    obtain ⟨rfl, ha⟩ := hf
    cases res' with
    | filled => exact ha.takeBit (EngineL.fillGroup_filled hm)
    | exhausted => exact ⟨rfl, ha⟩
    | truncated => exact ⟨rfl, ha⟩
  · rw [if_neg hn, if_neg hn]
    refine h.takeBit ?_
    cases hv : l.gvalid with
    | true => rfl
    | false => exact absurd (by simp [EngineL.needsFill, hv]) hn

/-- R115: so does each bit of a code. -/
theorem EngineL.Alike.readBits (n : Nat) : ∀ {l l' : EngineL} (i c : Nat), l.Alike l' →
    (l'.readBits i c n).2 = (l.readBits i c n).2 ∧ (l.readBits i c n).1.Alike (l'.readBits i c n).1 := by
  induction n with
  | zero => exact fun _ _ h => ⟨rfl, h⟩
  | succ n ih =>
    intro l l' i c h
    have hf := h.readBit
    unfold EngineL.readBits
    rcases hm : l.readBit with ⟨m, res⟩
    rcases hm' : l'.readBit with ⟨m', res'⟩
    rw [hm, hm'] at hf
    obtain ⟨rfl, ha⟩ := hf
    cases res' with
    | bit b => exact ih (i + 1) _ ha
    | exhausted => exact ⟨rfl, ha⟩
    | truncated => exact ⟨rfl, ha⟩

/-- R120: the seam buffers nothing. -/
theorem EngineL.Alike.nextSeamCode {l l' : EngineL} (h : l.Alike l') :
    l'.nextSeamCode.2 = l.nextSeamCode.2 ∧ l.nextSeamCode.1.Alike l'.nextSeamCode.1 := by
  obtain ⟨g, p, d, hb⟩ := h
  have hc : (l.withFree g p d).codes[(l.withFree g p d).ccur]? = l.codes[l.ccur]? := rfl
  unfold EngineL.nextSeamCode
  rw [hc]
  split <;> exact ⟨rfl, .mk g p d hb⟩

theorem EngineL.Alike.context {l l' : EngineL} (h : l.Alike l') :
    l'.ctl = l.ctl ∧ l'.blockMode = l.blockMode ∧ l'.codeLength = l.codeLength ∧ l'.table = l.table ∧
      l'.out = l.out ∧ l'.seam = l.seam := by
  obtain ⟨g, p, d, hb⟩ := h
  exact ⟨rfl, rfl, rfl, rfl, rfl, rfl⟩

/-- R110: the next code, from the payload or from the seam, is no free value. -/
theorem EngineL.Alike.nextCode {l l' : EngineL} (h : l.Alike l') :
    l'.nextCode.2 = l.nextCode.2 ∧ l.nextCode.1.Alike l'.nextCode.1 := by
  obtain ⟨-, -, hw, -, -, hs⟩ := h.context
  unfold EngineL.nextCode
  rw [hs, hw]
  split
  · exact h.nextSeamCode
  · exact h.readBits _ _ _

theorem emitChunk_withFree {chunk : Bytes} {l m : EngineL} {r : Result Bytes} (g : Bytes) (p d : Nat)
    (h : emitChunk chunk l = .next (m, r)) :
    emitChunk chunk (l.withFree g p d) = .next (m.withFree g p d, r) := by
  cases chunk with
  | nil => cases h
  | cons b rest =>
    rw [emitChunk_cons] at h ⊢
    cases h
    rfl

/-- R133 to R141: the meaning of a code looks at neither the group nor the counter. -/
theorem runClass_withFree {c : CodeClass} {l m : EngineL} {r : Result Bytes} (g : Bytes) (p d : Nat)
    (h : runClass l c = .next (m, r)) : runClass (l.withFree g p d) c = .next (m.withFree g p d, r) := by
  cases c with
  | clr =>
    simp only [runClass, clrStep_eq] at h ⊢
    cases h
    rfl
  | kwk _ =>
    have hlast : (l.withFree g p d).lastChunk = l.lastChunk := rfl
    simp only [runClass, kwkStep, hlast] at h ⊢
    split at h
    · cases h; rfl
    · split at h
      · exact emitChunk_withFree g p d h
      · cases h
  | lit b => exact emitChunk_withFree (chunk := [b]) g p d h
  | ref i =>
    have hread : (l.withFree g p d).tableRead i = l.tableRead i := rfl
    simp only [runClass, refStep, hread] at h ⊢
    split at h
    · exact emitChunk_withFree g p d h
    · cases h
  | bad _ => cases h; rfl

/-- A code class buffers no group and leaves the bytes and the position of one that stays buffered. -/
theorem CodeEffect.keepsGroup {l l' : EngineL} {r : Result Bytes} (e : CodeEffect l l' r) :
    l'.group = l.group ∧ l'.gpos = l.gpos ∧ (l'.gvalid = true → l.gvalid = true) := by
  cases e with
  | clr => exact ⟨rfl, rfl, by cases l.seam <;> simp⟩
  | raised k c hk hc => exact ⟨rfl, rfl, id⟩
  | emitted b rest =>
    refine ⟨rfl, rfl, fun hv => ?_⟩
    simp only [EngineL.afterEmit] at hv
    split at hv
    · cases hv
    · exact hv

theorem blind_runClass (c : CodeClass) : Blind EngineL.Alike fun l => runClass l c := by
  rintro l _ m r ⟨g, p, d, hb⟩ h
  obtain ⟨hgroup, hgpos, hvalid⟩ := (runClass_effect h).keepsGroup
  exact ⟨_, runClass_withFree g p d h, .mk g p d fun hv => by rw [hgroup, hgpos]; exact hb (hvalid hv)⟩

/-- R10: no step of engine L sees a free value. -/
theorem blind_stepL : Blind EngineL.Alike stepL := by
  intro l l' m r hl h
  have hn := hl.nextCode
  unfold stepL at h ⊢
  rcases hk : l.nextCode with ⟨k, res⟩
  rcases hk' : l'.nextCode with ⟨k', res'⟩
  rw [hk, hk'] at hn
  rw [hk] at h
  obtain ⟨rfl, ha⟩ := hn
  cases res' with
  | code c =>
    obtain ⟨-, hbm, -, ht, -, -⟩ := ha.context
    dsimp only at h hbm ht ⊢
    rw [hbm, ht]
    exact blind_runClass _ ha h
  | exhausted | truncated =>
    obtain ⟨g, p, d, hb⟩ : k.Alike k' := ha
    cases h
    exact ⟨_, rfl, .mk g p d hb⟩

theorem blind_pullL : Blind EngineL.Alike pullL :=
  blind_stepL.pull (status := fun l => l.ctl.status) (fun h => by rw [h.context.1]) EngineL.Alike.budget

/-- R10: a decode of engine L sees no free value. -/
theorem EngineL.Alike.decodeAll {l l' m : EngineL} {g : Gathered} (h : l.Alike l')
    (hd : decodeAllL l = .next (m, g)) : ∃ m', decodeAllL l' = .next (m', g) ∧ m.Alike m' := by
  rw [decodeAllL, h.budget]
  exact blind_pullL.gather id _ h hd

/-! ### Engine H does not see its free values (R10, R46) -/

/-- Engine H with other values in the elements that a `Start` leaves without one. -/
def EngineH.withFree (h : EngineH) (cur : Byte) (draws : Nat) : EngineH := { h with cur := cur, draws := draws }

/-- The two engines differ at most where the first holds free values: in the counter, and in the byte being consumed
while no bit of it is left. -/
inductive EngineH.Alike (h : EngineH) : EngineH → Prop where
  | mk (cur : Byte) (draws : Nat) (left : h.bleft ≠ 0 → cur = h.cur) : h.Alike (h.withFree cur draws)

theorem EngineH.Alike.context {h h' : EngineH} (a : h.Alike h') :
    h'.ctl = h.ctl ∧ h'.out = h.out ∧ h'.budget = h.budget := by
  obtain ⟨c, d, hc⟩ := a
  exact ⟨rfl, rfl, rfl⟩

/-- R181: the byte being consumed is read only while a bit of it is left. -/
theorem EngineH.readBit_withFree {h : EngineH} {c : Byte} (d : Nat) (hc : h.bleft ≠ 0 → c = h.cur) :
    (h.withFree c d).readBit = h.readBit.map fun p => (p.1.withFree p.1.cur d, p.2) := by
  have hp : (h.withFree c d).payloadRead 1 = ((h.payloadRead 1).1.withFree c d, (h.payloadRead 1).2) := rfl
  have hl : (h.withFree c d).bleft = h.bleft := rfl
  unfold EngineH.readBit EngineH.fetchByte
  rw [hl, hp]
  by_cases hb : h.bleft = 0
  · rw [if_pos hb, if_pos hb]
    rcases h.payloadRead 1 with ⟨m, _ | ⟨b, rest⟩⟩ <;> rfl
  · obtain rfl := hc hb
    rw [if_neg hb, if_neg hb]
    rfl

theorem arrive_withFree {n : Tree} {h m : EngineH} {r : Result Byte} (c : Byte) (d : Nat)
    (ha : arrive n h = .next (m, r)) : arrive n (h.withFree c d) = .next (m.withFree c d, r) := by
  cases n with
  | node _ _ | leaf _ | eof => cases ha; rfl

/-- R186, R187: a bit's meaning looks at neither the byte being consumed nor the counter. -/
theorem bitStep_withFree {bit : Bool} {h m : EngineH} {r : Result Byte} (c : Byte) (d : Nat)
    (hb : bitStep bit h = .next (m, r)) : bitStep bit (h.withFree c d) = .next (m.withFree c d, r) := by
  have hn : (h.withFree c d).node = h.node := rfl
  unfold bitStep at hb ⊢
  rw [hn]
  split at hb
  · exact arrive_withFree c d hb
  · cases hb

theorem BitEffect.cur {h h' : EngineH} {r : Result Byte} (e : BitEffect h h' r) : h'.cur = h.cur := by
  cases e <;> rfl

/-- R10: no step of engine H sees a free value. -/
theorem blind_stepH : Blind EngineH.Alike stepH := by
  rintro h _ m r ⟨c, d, hc⟩ hs
  unfold stepH at hs ⊢
  rw [EngineH.readBit_withFree d hc]
  cases hr : h.readBit with
  | none =>
    rw [hr] at hs
    cases hs
    exact ⟨_, rfl, .mk c d hc⟩
  | some p =>
    rw [hr] at hs
    have hcur := (bitStep_effect hs).cur
    exact ⟨_, bitStep_withFree p.1.cur d hs, .mk _ d fun _ => hcur.symm⟩

theorem blind_pullH : Blind EngineH.Alike pullH :=
  blind_stepH.pull (status := fun h => h.ctl.status) (fun a => by rw [a.context.1]) fun a => a.context.2.2

/-- R10: a decode of engine H sees no free value. -/
theorem EngineH.Alike.decodeAll {h h' m : EngineH} {g : Gathered} (a : h.Alike h')
    (hd : decodeAllH h = .next (m, g)) : ∃ m', decodeAllH h' = .next (m', g) ∧ m.Alike m' := by
  rw [decodeAllH, a.context.2.2]
  exact blind_pullH.gather _ _ a hd

/-! ### The same `Start` twice (R46, U16) -/

theorem EngineL.fresh_alike (l l' : EngineL) (bm : Bool) (m : Nat) (p : Bytes) (sm : Bool) (cs : List Nat) :
    (l.fresh bm m p sm cs).Alike (l'.fresh bm m p sm cs) :=
  .mk _ _ _ fun hv => nomatch hv

theorem EngineH.fresh_alike (h h' : EngineH) (levels : List Level) (t : Tree) (p : Bytes) :
    (h.fresh levels t p).Alike (h'.fresh levels t p) :=
  .mk _ _ fun hb => absurd rfl hb

theorem replyStart_started {c : Control} (h : replyStart c = .started) : c.status ≠ .fault := by
  intro hf
  simp [replyStart, hf] at h

theorem startL_started {bm : Bool} {m : Nat} {p : Bytes} {sm : Bool} {cs : List Nat} {l : EngineL}
    (h : replyStart (startL bm m p sm cs l).ctl = .started) : maxCodeLengthLegal m = true := by
  by_contra hm
  rw [startL, if_neg hm] at h
  exact replyStart_started h rfl

/-- R200, R207: a `Start` of engine L that succeeds once makes engine L fresh on the same arguments every time. -/
theorem exec_startsL_started {i : Instr} {s t : State} (hi : i.startsL = true) (ht : exec i s = .next t)
    (hr : t.reply = .started) : ∃ bm m p sm cs, maxCodeLengthLegal m = true ∧
      ∀ s' t', exec i s' = .next t' → t'.l = s'.l.fresh bm m p sm cs := by
  cases i with
  | clr | kwk _ | lit _ | ref _ | bad _ | left | right | slotPlaceholder | slotLeaf _ | slotEof => cases hi
  | hStart _ _ | pull _ | decodeAll _ | statusRead _ => cases hi
  | lStart bm m p =>
    by_cases hp : payloadFits p = true
    · simp only [exec, execLStart, if_pos hp] at ht ⊢
      cases ht
      have hm := startL_started hr
      refine ⟨bm, m, p, false, [], hm, fun s' t' ht' => ?_⟩
      cases ht'
      simp [startL, hm]
    · simp only [exec, execLStart, if_neg hp] at ht
      cases ht
      cases hr
  | lStartCodes bm m cs =>
    simp only [exec, execLStartCodes] at ht ⊢
    cases ht
    have hm := startL_started hr
    refine ⟨bm, m, [], true, cs, hm, fun s' t' ht' => ?_⟩
    cases ht'
    simp [startL, hm]

/-- R203: as `exec_startsL_started`, for engine H. -/
theorem exec_startsH_started {i : Instr} {s t : State} (hi : i.startsH = true) (ht : exec i s = .next t)
    (hr : t.reply = .started) : ∃ levels tree p, buildTree Config.treeReading levels = some tree ∧
      ∀ s' t', exec i s' = .next t' → t'.h = s'.h.fresh levels tree p := by
  cases i with
  | clr | kwk _ | lit _ | ref _ | bad _ | left | right | slotPlaceholder | slotLeaf _ | slotEof => cases hi
  | lStart _ _ _ | lStartCodes _ _ _ | pull _ | decodeAll _ | statusRead _ => cases hi
  | hStart levels p =>
    by_cases hp : payloadFits p = true
    · simp only [exec, execHStart, if_pos hp, startH] at ht ⊢
      cases ht
      cases hb : treeOrCause Config.treeReading Config.huffMaxLevels Config.huffMaxLeavesPerLevel levels with
      | error cause =>
        rw [hb] at hr
        exact absurd rfl (replyStart_started (c := (startWith levels p (.error cause) s.h).ctl) hr)
      | ok tree =>
        refine ⟨levels, tree, p, treeOrCause_ok hb, fun s' t' ht' => ?_⟩
        cases ht'
        rfl
    · simp only [exec, execHStart, if_neg hp] at ht
      cases ht
      cases hr

/-- Settles O59: the two engines that the `Start` makes differ in free values only, and a decode sees none of them. -/
theorem decodingIsDeterministic : Obligations.DecodingIsDeterministic := by
  rintro s s' t t' i e (⟨rfl, hi⟩ | ⟨rfl, hi⟩) ht ht' hr
  · obtain ⟨bm, m, p, sm, cs, hm, hfresh⟩ := exec_startsL_started hi ht hr
    obtain ⟨l, g, hd⟩ := (s.l.fresh_live bm p sm cs hm).decodeAll
    obtain ⟨l', hd', ha⟩ := (s.l.fresh_alike s'.l bm m p sm cs).decodeAll hd
    obtain ⟨hctl, -, -, htable, hout, -⟩ := ha.context
    refine ⟨_, _, exec_decodeAllL (by rw [hfresh s t ht, hd]), exec_decodeAllL (by rw [hfresh s' t' ht', hd']), ?_,
      fun _ => ⟨hout.symm, htable.symm⟩, nofun⟩
    simp [hctl]
  · obtain ⟨levels, tree, p, hb, hfresh⟩ := exec_startsH_started hi ht hr
    obtain ⟨h, g, hd⟩ := (s.h.fresh_live p hb).decodeAll
    obtain ⟨h', hd', ha⟩ := (s.h.fresh_alike s'.h levels tree p).decodeAll hd
    obtain ⟨hctl, hout, -⟩ := ha.context
    refine ⟨_, _, exec_decodeAllH (by rw [hfresh s t ht, hd]), exec_decodeAllH (by rw [hfresh s' t' ht', hd']), ?_,
      nofun, fun _ => hout.symm⟩
    simp [hctl]

end Sys2Proof.Machine
end

section
/-! PROOFS. What an engine does between two `Start`s (spec/10_state.md R29, R30, R40): while it runs, any number of codes
or bits; once it has stopped, nothing. -/

namespace Sys2Proof.Machine

/-! ### What a single step leaves of the status -/

theorem stepL_silent_ctl {l l' : EngineL} (h : stepL l = .next (l', .silent)) : l'.ctl = l.ctl := by
  unfold stepL at h
  split at h
  · cases h
  · cases h
  · rename_i m c hn
    have hm : m.ctl = l.ctl := by rw [(EngineL.nextCode_keeps hn).eq]
    have he := runClass_effect h
    cases he
    exact hm

theorem EngineH.readBit_ctl {h h' : EngineH} {b : Bool} (e : h.readBit = some (h', b)) : h'.ctl = h.ctl := by
  rcases h.readBit_cases with ⟨-, -, he⟩ | ⟨-, c, -, he⟩ | ⟨n, -, he⟩ <;> rw [he] at e <;> cases e <;> rfl

theorem stepH_silent_ctl {h h' : EngineH} (e : stepH h = .next (h', .silent)) : h'.ctl = h.ctl := by
  unfold stepH at e
  split at e
  · cases e
  · rename_i m b hb
    have hm := EngineH.readBit_ctl hb
    have he := bitStep_effect e
    cases he
    exact hm

/-! ### Engine L between two `Start`s -/

/-- A running engine L carries out one code, which may have been read before (R133 to R141) or is read now (R132). -/
inductive EngineL.Tick (l : EngineL) : EngineL → Prop where
  | code {l' : EngineL} {r : Result Bytes} (hr : l.ctl.status = .run) (e : CodeEffect l l' r) : l.Tick l'
  | step {l' : EngineL} {r : Result Bytes} (hr : l.ctl.status = .run) (e : stepL l = .next (l', r)) : l.Tick l'

/-- Any number of codes, of an engine that is running before each of them. -/
def EngineL.Works : EngineL → EngineL → Prop := Relation.ReflTransGen EngineL.Tick

theorem EngineL.Works.refl (l : EngineL) : l.Works l := Relation.ReflTransGen.refl

theorem EngineL.Tick.works {l l' : EngineL} (h : l.Tick l') : l.Works l' := Relation.ReflTransGen.single h

theorem EngineL.Tick.running {l l' : EngineL} (h : l.Tick l') : l.ctl.status = .run := by
  cases h with
  | code hr _ => exact hr
  | step hr _ => exact hr

theorem EngineL.Works.frame {l l' : EngineL} (h : l.Works l') : FrameL l l' := by
  induction h with
  | refl => exact .refl l
  | tail _ t ih =>
    cases t with
    | code _ e => exact ih.trans e.frame
    | step _ e => exact ih.trans (stepL_frame e)

/-- R206, R225: an engine L that is not running does nothing. -/
theorem EngineL.Works.of_stopped {l l' : EngineL} (h : l.Works l') (hs : l.ctl.status ≠ .run) : l' = l := by
  rcases Relation.ReflTransGen.cases_head h with rfl | ⟨_, t, -⟩
  · rfl
  · exact absurd t.running hs

/-- R132 under the invariant. -/
theorem EngineL.Good.step {l l' : EngineL} {r : Result Bytes} (g : l.Good) (hr : l.ctl.status = .run)
    (h : stepL l = .next (l', r)) : l'.Good := by
  obtain ⟨m, res, hm, hx⟩ := (g.2 hr).step hr
  rw [hm] at h
  cases h
  rcases hx with ⟨-, hok, -, hctl, -⟩ | ⟨rfl, -⟩ | ⟨hf, -, -, c, herr, hc⟩
  · exact ⟨hctl ▸ g.1, fun _ => hok⟩
  · exact ⟨g.1.finish hr, nofun⟩
  · refine ⟨?_, fun hrun => nomatch hf.symm.trans hrun⟩
    simp [Control.Ok, hf, herr, hc]

theorem EngineL.Works.good {l l' : EngineL} (h : l.Works l') (g : l.Good) : l'.Good := by
  induction h with
  | refl => exact g
  | tail _ t ih =>
    cases t with
    | code hr e => exact e.good ih hr
    | step hr e => exact ih.step hr e

/-! ### Engine H between two `Start`s -/

/-- Engine H has its builder replaced (R37), or, while it runs, carries out one bit, which may have been read before (R186,
R187) or is read now (R182). -/
inductive EngineH.Tick (h : EngineH) : EngineH → Prop where
  | builder (b : Builder) : h.Tick { h with builder := b }
  | bit {h' : EngineH} {r : Result Byte} (hr : h.ctl.status = .run) (e : BitEffect h h' r) : h.Tick h'
  | step {h' : EngineH} {r : Result Byte} (hr : h.ctl.status = .run) (e : stepH h = .next (h', r)) : h.Tick h'

/-- Any number of them. -/
def EngineH.Works : EngineH → EngineH → Prop := Relation.ReflTransGen EngineH.Tick

theorem EngineH.Works.refl (h : EngineH) : h.Works h := Relation.ReflTransGen.refl

theorem EngineH.Tick.works {h h' : EngineH} (t : h.Tick h') : h.Works h' := Relation.ReflTransGen.single t

/-- The frame of engine H, the builder apart. -/
theorem EngineH.Works.frame {h h' : EngineH} (w : h.Works h') : FrameH h { h' with builder := h.builder } := by
  have trans : ∀ {a b c : EngineH}, FrameH a { b with builder := a.builder } → FrameH b { c with builder := b.builder } →
      FrameH a { c with builder := a.builder } := fun f g =>
    f.trans ⟨g.levels, g.tree, g.payload, rfl, g.pcur, g.pcurIn, g.consumed, g.out⟩
  have upTo : ∀ {a b : EngineH}, FrameH a b → FrameH a { b with builder := a.builder } := fun f =>
    ⟨f.levels, f.tree, f.payload, rfl, f.pcur, f.pcurIn, f.consumed, f.out⟩
  induction w with
  | refl => exact .refl h
  | tail _ t ih =>
    cases t with
    | builder b => exact trans ih (.refl _)
    | bit _ e => exact trans ih (upTo e.frame)
    | step _ e => exact trans ih (upTo (stepH_frame e))

/-- R206, R225, R37: of an engine H that is not running only the builder changes. -/
theorem EngineH.Works.of_stopped {h h' : EngineH} (w : h.Works h') (hs : h.ctl.status ≠ .run) :
    h' = { h with builder := h'.builder } := by
  induction w with
  | refl => rfl
  | tail _ t ih =>
    cases t with
    | builder b => rw [ih]
    | bit hr _ => exact absurd (by rwa [ih] at hr) hs
    | step hr _ => exact absurd (by rwa [ih] at hr) hs

/-- R182 under the invariant. -/
theorem EngineH.Good.step {h h' : EngineH} {r : Result Byte} (g : h.Good) (hr : h.ctl.status = .run)
    (e : stepH h = .next (h', r)) : h'.Good := by
  obtain ⟨m, res, hm, hx⟩ := (g.2 hr).step hr
  rw [hm] at e
  cases e
  rcases hx with ⟨-, hok, -, hctl, -⟩ | ⟨hctl, -, -⟩ | ⟨rfl, -⟩
  · exact ⟨hctl ▸ g.1, fun _ => hok⟩
  · exact ⟨hctl ▸ g.1.finish hr, fun hrun => by rw [hctl] at hrun; cases hrun⟩
  · exact ⟨Control.Ok.raise (cause := .truncatedTraversal) h.ctl rfl, nofun⟩

/-- The invariant of engine H says nothing of the builder. -/
theorem EngineH.Good.withBuilder {h : EngineH} (g : h.Good) (b : Builder) : EngineH.Good { h with builder := b } :=
  ⟨g.1, fun hr => ⟨(g.2 hr).storage, (g.2 hr).built, (g.2 hr).root, (g.2 hr).node, (g.2 hr).bits⟩⟩

theorem EngineH.Works.good {h h' : EngineH} (w : h.Works h') (g : h.Good) : h'.Good := by
  induction w with
  | refl => exact g
  | tail _ t ih =>
    cases t with
    | builder b => exact ih.withBuilder b
    | bit hr e => exact e.good ih hr
    | step hr e => exact ih.step hr e

/-! ### A pull and a decode are such work (R202, R204) -/

/-- R202: a pull of a running engine is a chain of steps, each of a running engine, where a silent step keeps it running. -/
theorem PullRun.chain {ε α : Type} {step : ε → Work ε α} {tick : ε → ε → Prop} {running : ε → Prop}
    (htick : ∀ {a b r}, running a → step a = .next (b, r) → tick a b)
    (hsilent : ∀ {a b}, running a → step a = .next (b, .silent) → running b) {e e' : ε} {r : Result α}
    (h : PullRun step e e' r) (hr : running e) : Relation.ReflTransGen tick e e' := by
  induction h with
  | last h _ => exact .single (htick hr h)
  | more h _ ih => exact .head (htick hr h) (ih (hsilent hr h))

theorem pullL_works {l l' : EngineL} {r : Result Bytes} (h : pullL l = .next (l', r)) : l.Works l' := by
  by_cases hr : l.ctl.status = .run
  · rw [pullL_run hr] at h
    exact (pullLoop_run _ h).chain (running := fun l => l.ctl.status = .run) .step
      (fun hr h => by rw [stepL_silent_ctl h, hr]) hr
  · obtain ⟨_, he, -⟩ := pullL_stopped l hr
    rw [he] at h
    cases h
    exact .refl l

theorem pullH_works {h h' : EngineH} {r : Result Byte} (e : pullH h = .next (h', r)) : h.Works h' := by
  by_cases hr : h.ctl.status = .run
  · rw [pullH_run hr] at e
    exact (pullLoop_run _ e).chain (running := fun h => h.ctl.status = .run) .step
      (fun hr h => by rw [stepH_silent_ctl h, hr]) hr
  · obtain ⟨_, he, -⟩ := pullH_stopped h hr
    rw [he] at e
    cases e
    exact .refl h

theorem decodeAllL_works {l l' : EngineL} {g : Gathered} (h : decodeAllL l = .next (l', g)) : l.Works l' :=
  (gather_run _ h).keeps (P := EngineL.Works) (fun _ _ _ => Relation.ReflTransGen.trans) fun _ _ _ => pullL_works

theorem decodeAllH_works {h h' : EngineH} {g : Gathered} (e : decodeAllH h = .next (h', g)) : h.Works h' :=
  (gather_run _ e).keeps (P := EngineH.Works) (fun _ _ _ => Relation.ReflTransGen.trans) fun _ _ _ => pullH_works

/-! ### What an instruction can do -/

/-- What an instruction that answers a next state does: work on one engine, with an answer or none; a builder slot; or a
`Start`. (A refused operation and a status read do no work, and answer.) -/
inductive ExecEffect (i : Instr) (s : State) : State → Prop where
  | workL {l : EngineL} (w : s.l.Works l) (r : Option Reply) : ExecEffect i s ((s.setL l).settle .l r)
  | workH {h : EngineH} (w : s.h.Works h) (r : Option Reply) : ExecEffect i s ((s.setH h).settle .h r)
  | slot (k : Slot) : ExecEffect i s (s.setH { s.h with builder := s.h.builder.attachSlot k })
  | startL (hi : i.startsL = true) (blockMode : Bool) (m : Nat) (payload : Bytes) (seam : Bool) (codes : List Nat)
      (r : Reply) : ExecEffect i s ((s.setL (Machine.startL blockMode m payload seam codes s.l)).setReply r)
  | startH (hi : i.startsH = true) (levels : List Level) (payload : Bytes) (r : Reply) :
      ExecEffect i s ((s.setH (Machine.startH levels payload s.h)).setReply r)

/-- Nothing but an answer. -/
theorem ExecEffect.answer (i : Instr) (s : State) (r : Reply) : ExecEffect i s (s.setReply r) :=
  .workL (.refl s.l) (some r)

theorem exec_decodeAll_effect {e : Engine} {s t : State} (h : exec (.decodeAll e) s = .next t) :
    ExecEffect (.decodeAll e) s t := by
  cases e with
  | l =>
    simp only [exec, execDecodeAll] at h
    split at h <;> cases h
    rename_i he
    exact .workL (decodeAllL_works he) (some _)
  | h =>
    simp only [exec, execDecodeAll] at h
    split at h <;> cases h
    rename_i he
    exact .workH (decodeAllH_works he) (some _)

theorem exec_pull_effect {e : Engine} {s t : State} (h : exec (.pull e) s = .next t) : ExecEffect (.pull e) s t := by
  cases e with
  | l =>
    obtain ⟨l, r, he, rfl⟩ := State.answerL_next h
    exact .workL (pullL_works he) _
  | h =>
    obtain ⟨e, r, he, rfl⟩ := State.answerH_next h
    exact .workH (pullH_works he) _

theorem exec_bit_effect {bit : Bool} {s t : State} (h : exec (decodeBit bit) s = .next t) :
    ExecEffect (decodeBit bit) s t := by
  have hr := exec_bit_running h
  rw [exec_bit_run bit hr] at h
  obtain ⟨e, r, he, rfl⟩ := State.answerH_next h
  exact .workH (EngineH.Tick.bit hr (bitStep_effect he)).works _

theorem exec_slot_effect {k : Slot} {s t : State} (h : exec (decodeSlot k) s = .next t) :
    ExecEffect (decodeSlot k) s t := by
  rw [exec_slot] at h
  rw [(State.runSlot_next h).2]
  exact .slot k

theorem exec_effect {i : Instr} {s t : State} (h : exec i s = .next t) : ExecEffect i s t := by
  by_cases hc : i.isCode = true
  · obtain ⟨cls, rfl⟩ := isCode_instr hc
    obtain ⟨hr, l, r, he, rfl⟩ := exec_code_next h
    exact .workL (EngineL.Tick.code hr (runClass_effect he)).works _
  cases i with
  | clr | kwk _ | lit _ | ref _ | bad _ => exact absurd rfl hc
  | left => exact exec_bit_effect (bit := false) h
  | right => exact exec_bit_effect (bit := true) h
  | slotPlaceholder => exact exec_slot_effect (k := .placeholder) h
  | slotLeaf b => exact exec_slot_effect (k := .leaf b) h
  | slotEof => exact exec_slot_effect (k := .eof) h
  | lStart bm m p =>
    simp only [exec, execLStart] at h
    split at h <;> cases h
    · exact .startL rfl bm m p false [] _
    · exact .answer _ s _
  | lStartCodes bm m cs => cases h; exact .startL rfl bm m [] true cs _
  | hStart levels p =>
    simp only [exec, execHStart] at h
    split at h <;> cases h
    · exact .startH rfl levels p _
    · exact .answer _ s _
  | pull e => exact exec_pull_effect h
  | decodeAll e => exact exec_decodeAll_effect h
  | statusRead r => cases h; exact .answer _ s _

theorem ExecEffect.worksL {i : Instr} {s t : State} (e : ExecEffect i s t) (hi : i.startsL = false) : s.l.Works t.l := by
  cases e with
  | workL w r => simpa using w
  | workH w r => simpa using EngineL.Works.refl s.l
  | slot k => exact .refl s.l
  | startL hs => exact absurd (hi.symm.trans hs) Bool.false_ne_true
  | startH => exact .refl s.l

theorem ExecEffect.worksH {i : Instr} {s t : State} (e : ExecEffect i s t) (hi : i.startsH = false) : s.h.Works t.h := by
  cases e with
  | workL w r => simpa using EngineH.Works.refl s.h
  | workH w r => simpa using w
  | slot k => exact (EngineH.Tick.builder _).works
  | startL => exact .refl s.h
  | startH hs => exact absurd (hi.symm.trans hs) Bool.false_ne_true

/-- Settles O50: all that an engine does between two `Start`s keeps its parameters, its input and its tree. -/
theorem onlyStartWritesParametersInputAndTree : Obligations.OnlyStartWritesParametersInputAndTree := by
  intro i s t h
  refine ⟨fun hi => ?_, fun hi => ?_⟩
  · have f := ((exec_effect h).worksL hi).frame
    exact ⟨f.blockMode, f.maxCodeLength, f.payload, f.codes, f.seam⟩
  · have f := ((exec_effect h).worksH hi).frame
    exact ⟨f.levels, f.tree, f.payload⟩

end Sys2Proof.Machine
end

section
/-! PROOFS. The frame of the LZW codes and of each engine (spec/10_state.md R27, R43), and the status reads (R44, R209). -/

namespace Sys2Proof.Machine

/-! ### The frame of an LZW code (R27) -/

/-- R27: a code class writes the DecoderState, the validity of the group, the output and the status; nothing else. -/
theorem CodeEffect.eq {l l' : EngineL} {r : Result Bytes} (e : CodeEffect l l' r) :
    l' = { l with
      ctl := l'.ctl, codeLength := l'.codeLength, table := l'.table, lastChunk := l'.lastChunk, gvalid := l'.gvalid
      out := l'.out } := by
  cases e <;> rfl

/-- R58: the output grows by one chunk at most. -/
theorem CodeEffect.out_grows {l l' : EngineL} {r : Result Bytes} (e : CodeEffect l l' r) :
    l'.out = l.out ∨ ∃ chunk, l'.out = l.out ++ [chunk] := by
  cases e with
  | clr | raised => exact .inl rfl
  | emitted b rest => exact .inr ⟨b :: rest, rfl⟩

/-- R55: without a re-initialisation, what `TableRead` gives for an index in the table stays. -/
theorem CodeEffect.tableRead_old {l l' : EngineL} {r : Result Bytes} (e : CodeEffect l l' r) (hr : r ≠ .silent) {k : Nat}
    (hk : k < l.table.length) : l'.tableRead k = l.tableRead k := by
  cases e with
  | clr => exact absurd rfl hr
  | raised => rfl
  | emitted b rest =>
    have : (l.afterEmit (b :: rest) b).table[k]? = l.table[k]? := tableAfter_old l b hk
    simp only [EngineL.tableRead, this]

theorem emitChunk_result {chunk : Bytes} {l l' : EngineL} {r : Result Bytes} (h : emitChunk chunk l = .next (l', r)) :
    r = .emitted chunk := by
  cases chunk with
  | nil => cases h
  | cons b rest => cases h; rfl

/-- R202: only `CLR` is silent. -/
theorem runClass_silent {c : CodeClass} {l l' : EngineL} (h : runClass l c = .next (l', .silent)) : c = .clr := by
  cases c with
  | clr => rfl
  | kwk _ =>
    simp only [runClass, kwkStep] at h
    split at h
    · cases h
    · split at h
      · cases emitChunk_result h
      · cases h
  | lit b => cases emitChunk_result (chunk := [b]) h
  | ref i =>
    simp only [runClass, refStep] at h
    split at h
    · cases emitChunk_result h
    · cases h
  | bad _ => cases h

/-- A step that is not silent has an answer. -/
theorem replyL_isSome (l : EngineL) {r : Result Bytes} (h : r ≠ .silent) : ∃ answer, replyL l r = some answer := by
  cases r with
  | silent => exact absurd rfl h
  | emitted _ | ended | faulted | refused => exact ⟨_, rfl⟩

theorem instr_eq_clr {cls : CodeClass} (h : cls.instr = .clr) : cls = .clr := by
  cases cls with
  | clr => rfl
  | kwk _ | lit _ | ref _ | bad _ => cases h

theorem instr_eq_bad {cls : CodeClass} {c : Nat} (h : cls.instr = .bad c) : cls = .bad c := by
  cases cls with
  | bad _ => cases h; rfl
  | clr | kwk _ | lit _ | ref _ => cases h

/-- Settles O46: a code class writes the elements of `CodeEffect.eq` only; `CLR` alone re-initialises and is silent, and `BAD`
raises. -/
theorem lzwCodesKeepEverythingElse : Obligations.LzwCodesKeepEverythingElse := by
  intro i s t hi h
  obtain ⟨cls, rfl⟩ := isCode_instr hi
  obtain ⟨-, l, r, hrun, rfl⟩ := exec_code_next h
  have e := runClass_effect hrun
  have loud : cls.instr ≠ .clr → r ≠ .silent := by
    rintro hn rfl
    exact hn (by rw [runClass_silent hrun]; rfl)
  have clr : cls.instr = .clr → l.out = s.l.out ∧ l.ctl = s.l.ctl ∧ r = .silent := fun hc => by
    rw [instr_eq_clr hc, runClass, clrStep_eq] at hrun
    cases hrun
    exact ⟨rfl, rfl, rfl⟩
  have bad : (∃ c, cls.instr = .bad c) → l = s.l.raise .formatError .codeOutOfRange := fun ⟨c, hb⟩ => by
    rw [instr_eq_bad hb] at hrun
    cases hrun
    rfl
  rw [State.settle_l, State.settle_h, State.settle_agenda, State.setL_l]
  refine ⟨rfl, rfl, ?_, ?_, ?_, ?_, ?_, ?_, ?_, ?_, ?_, fun hn k hk => e.tableRead_old (loud hn) hk, e.out_grows, ?_, ?_, ?_,
    ?_⟩
  iterate 9 rw [e.eq]
  · rintro (hc | hb)
    · exact (clr hc).1
    · rw [bad hb, EngineL.raise_out]
  · intro hc
    obtain ⟨-, hctl, rfl⟩ := clr hc
    exact ⟨hctl, rfl⟩
  · intro hn
    obtain ⟨answer, ha⟩ := replyL_isSome l (loud hn)
    rw [ha]
    rfl
  · intro hb
    rw [bad hb]
    exact ⟨rfl, rfl, rfl, rfl⟩

/-- Settles O48: an instruction of an engine is fixed by that engine (`exec_onL_local`, `exec_onH_local`). -/
theorem enginesShareNoState : Obligations.EnginesShareNoState := by
  intro i s t
  refine ⟨fun hi ht => ?_, fun hi ht => ?_⟩
  · obtain ⟨l, task, reply, hw⟩ := exec_onL_local hi ht
    obtain rfl := Host.Outcome.next.inj (ht.symm.trans (hw s rfl))
    exact ⟨rfl, rfl, fun _ => hw _ rfl⟩
  · obtain ⟨h, task, reply, hw⟩ := exec_onH_local hi ht
    obtain rfl := Host.Outcome.next.inj (ht.symm.trans (hw s rfl))
    exact ⟨rfl, rfl, fun _ => hw _ rfl⟩

/-! ### The status registers (R44) -/

theorem Status.number_lt (st : Status) : st.number < 4 := by cases st <;> decide

theorem ErrKind.number_lt (k : ErrKind) : k.number < 4 := by cases k <;> decide

theorem Cause.number_lt (c : Cause) : c.number < 16 := by cases c <;> decide

/-- The fields of `STATUS`, the lowest 2 bits, the next 2 and the top 4. -/
theorem statusFields (cause : BitVec 4) (kind state : BitVec 2) :
    (cause ++ kind ++ state).extractLsb' 0 2 = state ∧ (cause ++ kind ++ state).extractLsb' 2 2 = kind ∧
      (cause ++ kind ++ state).extractLsb' 4 4 = cause ∧ (cause ++ kind ++ state).extractLsb' 2 6 = cause ++ kind :=
  ⟨BitVec.extractLsb'_append_eq_right,
    (BitVec.extractLsb'_append_eq_of_le (Nat.le_refl 2)).trans BitVec.extractLsb'_append_eq_right,
    (BitVec.extractLsb'_append_eq_of_le (by decide : 2 ≤ 4)).trans BitVec.extractLsb'_append_eq_left,
    BitVec.extractLsb'_append_eq_left⟩

theorem Control.view_status (c : Control) : (c.view.extractLsb' 0 2).toNat = c.status.number := by
  rw [Control.view, (statusFields _ _ _).1, BitVec.toNat_ofNat, Nat.mod_eq_of_lt c.status.number_lt]

theorem Control.view_error {c : Control} {er : Error} (h : c.err = some er) :
    (c.view.extractLsb' 2 2).toNat = er.kind.number ∧ (c.view.extractLsb' 4 4).toNat = er.cause.number := by
  obtain ⟨-, hkind, hcause, -⟩ := statusFields (BitVec.ofNat 4 er.cause.number) (BitVec.ofNat 2 er.kind.number)
    (BitVec.ofNat 2 c.status.number)
  simp only [Control.view, h]
  rw [hkind, hcause, BitVec.toNat_ofNat, BitVec.toNat_ofNat, Nat.mod_eq_of_lt er.kind.number_lt,
    Nat.mod_eq_of_lt er.cause.number_lt]
  exact ⟨rfl, rfl⟩

theorem Control.view_noError {c : Control} (h : c.err = none) : c.view.extractLsb' 2 6 = 0 := by
  simp only [Control.view, h]
  rw [(statusFields _ _ _).2.2.2]
  rfl

theorem EngineL.cfgView_blockMode (l : EngineL) : l.cfgView.getLsbD 0 = l.blockMode := by
  rw [EngineL.cfgView, BitVec.getLsbD_append, if_pos Nat.one_pos, BitVec.getLsbD_ofBool]
  simp

theorem EngineL.cfgView_maxCodeLength {l : EngineL} (h : l.maxCodeLength < 32) :
    (l.cfgView.extractLsb' 1 5).toNat = l.maxCodeLength := by
  have hm : l.cfgView.extractLsb' 1 5 = BitVec.ofNat 5 l.maxCodeLength := BitVec.extractLsb'_append_eq_left
  rw [hm, BitVec.toNat_ofNat, Nat.mod_eq_of_lt h]

/-- Settles O45: a status read answers `State.readReg`, and the views hold the fields at R44's bits. -/
theorem statusReadShowsTheFieldsAndChangesNothing : Obligations.StatusReadShowsTheFieldsAndChangesNothing := by
  intro s
  refine ⟨fun r => ⟨s.readReg r, rfl⟩, ⟨_, rfl, s.l.cfgView_blockMode, EngineL.cfgView_maxCodeLength⟩,
    ⟨_, rfl, s.l.ctl.view_status, fun _ => Control.view_error, Control.view_noError⟩,
    ⟨_, rfl, s.h.ctl.view_status, fun _ => Control.view_error, Control.view_noError⟩,
    ⟨_, rfl, fun h => ?_⟩, ⟨_, rfl, fun h => ?_⟩⟩
  · rw [BitVec.toNat_ofNat, Nat.mod_eq_of_lt h]
  · rw [BitVec.toNat_ofNat, Nat.mod_eq_of_lt h]

end Sys2Proof.Machine
end

section
/-! PROOFS. What one step of the machine does to the two engines (spec/10_state.md R30, R40; notes/assumptions/1.md), and
from it what every step keeps. -/

namespace Sys2Proof.Machine

/-! ### `H.Start` (R203, R228) -/

/-- What the builder comes to on a level table: its tree, or one of the two causes. -/
inductive Built (levels : List Level) : Except Cause Tree → Prop where
  | tree {t : Tree} (h : buildTree Config.treeReading levels = some t) : Built levels (.ok t)
  | malformed : Built levels (.error .treeLevelsMalformed)
  | sizeBound : Built levels (.error .sizeBound)

theorem treeOrCause_built (maxLevels maxLeaves : Option Nat) (levels : List Level) :
    Built levels (treeOrCause Config.treeReading maxLevels maxLeaves levels) := by
  unfold treeOrCause
  split
  · split
    · rename_i ht
      exact .tree ht
    · exact .malformed
  · exact .sizeBound

/-- R203: whatever the builder came to, `H.Start` leaves an engine H that meets the invariant. -/
theorem Built.good {levels : List Level} {built : Except Cause Tree} (b : Built levels built) (payload : Bytes)
    (h : EngineH) : (startWith levels payload built h).Good := by
  cases b with
  | tree ht => exact ⟨Control.Ok.start h.ctl .h, fun _ => (h.fresh_live payload ht).1⟩
  | malformed => exact ⟨Control.Ok.raise (cause := .treeLevelsMalformed) h.ctl rfl, nofun⟩
  | sizeBound => exact ⟨Control.Ok.raise (cause := .sizeBound) h.ctl rfl, nofun⟩

/-! ### A step of a pull (R132, R182, R202) -/

/-- A step of a pull of a running engine L is `L.Step()`, answered. -/
theorem step_pullL_running {s s' : State} (hp : s.pullStep = some (.l, s')) (hr : s.l.ctl.status = .run) :
    step s = s'.answerL (stepL s.l) := by
  obtain ⟨hs', hf⟩ := fetch_pullL hp
  have hl : s'.l = s.l := by rw [hs']
  rw [← hl] at hr ⊢
  rcases hn : s'.l.nextCode with ⟨l, _ | _ | _⟩
  case code c =>
    have hrun : (s'.setL l).l.ctl.status = .run := by
      rw [State.setL_l, (EngineL.nextCode_keeps hn).eq]
      exact hr
    rw [step_of_run (hf.trans (fetchL_code hr hn)), decodeCode, exec_code_run _ hrun]
    simp only [stepL, hn, State.setL_l]
    rfl
  all_goals
    rw [step_of_settled (hf.trans (by simp only [fetchL, Control.isRunning, hr, hn]; rfl))]
    simp only [stepL, hn]
    rfl

theorem step_pullH_running {s s' : State} (hp : s.pullStep = some (.h, s')) (hr : s.h.ctl.status = .run) :
    step s = s'.answerH (stepH s.h) := by
  obtain ⟨hs', hf⟩ := fetch_pullH hp
  have hh : s'.h = s.h := by rw [hs']
  rw [← hh] at hr ⊢
  cases hn : s'.h.readBit with
  | none =>
    rw [step_of_settled (hf.trans (by simp only [fetchH, Control.isRunning, hr, hn]; rfl))]
    simp only [stepH, hn]
    rfl
  | some p =>
    have hrun : (s'.setH p.1).h.ctl.status = .run := by rw [State.setH_h, EngineH.readBit_ctl hn, hr]
    rw [step_of_run (hf.trans (fetchH_bit hr hn)), exec_bit_run _ hrun]
    simp only [stepH, hn, State.setH_h]
    rfl

/-- R205, R206: a pull of an engine L that is not running only answers. -/
theorem step_pullL_stopped {s s' : State} (hp : s.pullStep = some (.l, s')) (hr : s.l.ctl.status ≠ .run) :
    ∃ answer, step s = .next (s'.setReply answer) := by
  obtain ⟨hs', hf⟩ := fetch_pullL hp
  have hl : s'.l = s.l := by rw [hs']
  have hfetch : fetchL s' = .settled (s'.turnAwayL s.l.ctl.status) := by simp [fetchL, Control.isRunning, hl, hr]
  rw [step_of_settled (hf.trans hfetch)]
  cases hst : s.l.ctl.status with
  | run => exact absurd hst hr
  | idle | done | fault => exact ⟨_, rfl⟩

theorem step_pullH_stopped {s s' : State} (hp : s.pullStep = some (.h, s')) (hr : s.h.ctl.status ≠ .run) :
    ∃ answer, step s = .next (s'.setReply answer) := by
  obtain ⟨hs', hf⟩ := fetch_pullH hp
  have hh : s'.h = s.h := by rw [hs']
  have hfetch : fetchH s' = .settled (s'.turnAwayH s.h.ctl.status) := by simp [fetchH, Control.isRunning, hh, hr]
  rw [step_of_settled (hf.trans hfetch)]
  cases hst : s.h.ctl.status with
  | run => exact absurd hst hr
  | idle | done | fault => exact ⟨_, rfl⟩

/-- A step of a pull of engine L: work on it, and an answer or the pull going on. -/
theorem step_pullL {s s' t : State} (hp : s.pullStep = some (.l, s')) (h : step s = .next t) :
    ∃ l r, s.l.Works l ∧ t = (s'.setL l).settle .l r := by
  by_cases hr : s.l.ctl.status = .run
  · rw [step_pullL_running hp hr] at h
    obtain ⟨l, r, he, rfl⟩ := State.answerL_next h
    exact ⟨l, _, (EngineL.Tick.step hr he).works, rfl⟩
  · obtain ⟨answer, he⟩ := step_pullL_stopped hp hr
    obtain rfl := Host.Outcome.next.inj (h.symm.trans he)
    exact ⟨s.l, some answer, .refl _, by rw [(fetch_pullL hp).1]; rfl⟩

theorem step_pullH {s s' t : State} (hp : s.pullStep = some (.h, s')) (h : step s = .next t) :
    ∃ e r, s.h.Works e ∧ t = (s'.setH e).settle .h r := by
  by_cases hr : s.h.ctl.status = .run
  · rw [step_pullH_running hp hr] at h
    obtain ⟨e, r, he, rfl⟩ := State.answerH_next h
    exact ⟨e, _, (EngineH.Tick.step hr he).works, rfl⟩
  · obtain ⟨answer, he⟩ := step_pullH_stopped hp hr
    obtain rfl := Host.Outcome.next.inj (h.symm.trans he)
    exact ⟨s.h, some answer, .refl _, by rw [(fetch_pullH hp).1]; rfl⟩

/-! ### Everything a step can do -/

/-- What a step that answers a next state does. -/
inductive StepEffect (s : State) : State → Prop where
  /-- A step of a pull of engine L. -/
  | pullL {s' : State} {l : EngineL} (hp : s.pullStep = some (.l, s')) (w : s.l.Works l) (r : Option Reply) :
      StepEffect s ((s'.setL l).settle .l r)
  /-- A step of a pull of engine H. -/
  | pullH {s' : State} {h : EngineH} (hp : s.pullStep = some (.h, s')) (w : s.h.Works h) (r : Option Reply) :
      StepEffect s ((s'.setH h).settle .h r)
  /-- Nothing is to be done. -/
  | quiet (ht : s.task = none) : StepEffect s s
  /-- A host transaction. -/
  | host {op : HostOp} {rest : List Turn} {t : State} (ht : s.task = none) (ha : s.agenda = .host op :: rest)
      (e : ExecEffect (decodeOp op) (s.setAgenda rest) t) : StepEffect s t
  /-- An `H.Start` in progress attaches a slot. -/
  | slot {levels : List Level} {payload : Bytes} {k : Slot} {b : Builder} (ht : s.task = some (.build levels payload))
      (hk : s.h.builder.takeSlot = some (k, b)) : StepEffect s (s.setH { s.h with builder := b.attachSlot k })
  /-- An `H.Start` to be carried out slot by slot opens the root. -/
  | opened {levels : List Level} {b : Builder} (hr : s.replacesH = true)
      (hb : readyBuilder Config.treeReading levels = some b) (rest : List Turn) (payload : Bytes) :
      StepEffect s (((s.setAgenda rest).setH { s.h with builder := b }).setTask (some (.build levels payload)))
  /-- One is refused. -/
  | refused (ht : s.task = none) (rest : List Turn) : StepEffect s ((s.setAgenda rest).setReply .refused)
  /-- One ends: the builder has come to its tree, if it stood in the assembly of the level table, or has raised. -/
  | ended {levels : List Level} {built : Except Cause Tree} (hr : s.replacesH = true)
      (hb : s.Inv → Built levels built) (agenda : List Turn) (payload : Bytes) :
      StepEffect s ((s.setAgenda agenda).endBuild levels payload built)
  /-- Hardware reset. -/
  | hardReset (hl : s.replacesL = true) (hh : s.replacesH = true) (rest : List Turn) :
      StepEffect s ((s.setAgenda rest).hardReset)

theorem fetchBuild_effect {s t : State} {levels : List Level} {payload : Bytes}
    (ht : s.task = some (.build levels payload)) (h : step s = .next t) : StepEffect s t := by
  have hr : s.replacesH = true := by simp [State.replacesH, ht]
  have hf : fetch s = fetchBuild levels payload s := fetch_of_task ht
  have malformed : StepEffect s (s.endBuild levels payload (.error .treeLevelsMalformed)) :=
    .ended hr (fun _ => .malformed) s.agenda payload
  unfold fetchBuild at hf
  split at hf
  · rename_i hs
    split at hf <;> rw [step_of_settled hf] at h <;> cases h
    · rename_i tree hroot
      exact .ended hr (fun hi => .tree ((hi.build _ _ ht).buildTree hs hroot)) s.agenda payload
    · exact malformed
  · split at hf
    · rename_i k b hk
      rw [step_of_run hf, exec_slot] at h
      rw [(State.runSlot_next h).2]
      exact .slot ht hk
    · rw [step_of_settled hf] at h
      cases h
      exact malformed

theorem beginBuild_effect {s : State} {levels : List Level} {payload : Bytes} {rest : List Turn} (ht : s.task = none)
    (ha : s.agenda = .stepwise (.build levels payload) :: rest) :
    StepEffect s ((s.setAgenda rest).beginBuild levels payload) := by
  have hr : s.replacesH = true := by simp [State.replacesH, ht, ha]
  unfold State.beginBuild
  split
  · split
    · split
      · rename_i b hb
        exact .opened hr hb rest payload
      · exact .ended hr (fun _ => .malformed) rest payload
    · exact .ended hr (fun _ => .sizeBound) rest payload
  · exact .refused ht rest

theorem step_effect {s t : State} (h : step s = .next t) : StepEffect s t := by
  have pull : ∀ e s', s.pullStep = some (e, s') → StepEffect s t := fun e s' hp => by
    cases e with
    | l => obtain ⟨l, r, w, rfl⟩ := step_pullL hp h; exact .pullL hp w r
    | h => obtain ⟨e, r, w, rfl⟩ := step_pullH hp h; exact .pullH hp w r
  cases ht : s.task with
  | some task =>
    cases task with
    | pull e => exact pull e (s.setTask none) (by rw [State.pullStep, ht]; rfl)
    | build levels payload => exact fetchBuild_effect ht h
  | none =>
    cases ha : s.agenda with
    | nil =>
      rw [step_of_settled ((fetch_of_no_task ht).trans (fetchMove_nil ha))] at h
      cases h
      exact .quiet ht
    | cons move rest =>
      cases move with
      | host op =>
        rw [step_of_run ((fetch_of_no_task ht).trans (fetchMove_host ha))] at h
        exact .host ht ha (exec_effect h)
      | stepwise task =>
        cases task with
        | pull e => exact pull e (s.setAgenda rest) (by simp only [State.pullStep, ht, ha]; rw [← ht]; rfl)
        | build levels payload =>
          rw [step_of_settled ((fetch_of_no_task ht).trans (by rw [fetchMove, ha]))] at h
          cases h
          exact beginBuild_effect ht ha
      | hardReset =>
        rw [step_of_settled ((fetch_of_no_task ht).trans (fetchMove_hardReset ha))] at h
        cases h
        exact .hardReset (by simp [State.replacesL, ht, ha]) (by simp [State.replacesH, ht, ha]) rest

/-! ### The engines under a step -/

/-- R201, R250: a step that does not replace engine L at most has it work. -/
theorem StepEffect.worksL {s t : State} (e : StepEffect s t) (hl : s.replacesL = false) : s.l.Works t.l := by
  cases e with
  | pullL hp w r => simpa using w
  | pullH hp w r =>
    rw [State.settle_l, State.setH_l, (fetch_pullH hp).1]
    exact .refl s.l
  | host ht ha e => exact e.worksL (by simpa [State.replacesL, ht, ha] using hl)
  | hardReset hl' => exact absurd (hl.symm.trans hl') Bool.false_ne_true
  | quiet | slot | opened | refused | ended => exact .refl s.l

theorem StepEffect.worksH {s t : State} (e : StepEffect s t) (hh : s.replacesH = false) : s.h.Works t.h := by
  cases e with
  | pullL hp w r =>
    rw [State.settle_h, State.setL_h, (fetch_pullL hp).1]
    exact .refl s.h
  | pullH hp w r => simpa using w
  | host ht ha e => exact e.worksH (by simpa [State.replacesH, ht, ha] using hh)
  | slot => exact (EngineH.Tick.builder _).works
  | opened hr | ended hr | hardReset _ hr => exact absurd (hh.symm.trans hr) Bool.false_ne_true
  | quiet | refused => exact .refl s.h

/-! ### The invariant under a step -/

theorem ExecEffect.goodL {i : Instr} {s t : State} (e : ExecEffect i s t) (g : s.l.Good) : t.l.Good := by
  cases e with
  | workL w r => simpa using w.good g
  | workH w r => simpa using g
  | startL hi bm m p sm cs r => exact startL_good bm m p sm cs s.l
  | slot | startH => exact g

theorem ExecEffect.goodH {i : Instr} {s t : State} (e : ExecEffect i s t) (g : s.h.Good) : t.h.Good := by
  cases e with
  | workL w r => simpa using g
  | workH w r => simpa using w.good g
  | slot k => exact g.withBuilder _
  | startL => exact g
  | startH hi levels p r => exact (treeOrCause_built _ _ levels).good p s.h

/-- No `H.Start` is being carried out slot by slot. -/
def State.NotBuilding (s : State) : Prop := ∀ levels payload, s.task ≠ some (.build levels payload)

theorem State.NotBuilding.of_no_task {s : State} (h : s.task = none) : s.NotBuilding := fun _ _ hb => nomatch h.symm.trans hb

theorem State.NotBuilding.settle {s : State} (h : s.NotBuilding) (e : Engine) (r : Option Reply) :
    (s.settle e r).NotBuilding := by
  cases r with
  | some r => exact h
  | none => exact fun _ _ hb => nomatch hb

theorem ExecEffect.notBuilding {i : Instr} {s t : State} (e : ExecEffect i s t) (h : s.NotBuilding) : t.NotBuilding := by
  cases e with
  | @workL l w r => exact State.NotBuilding.settle (s := s.setL l) h .l r
  | @workH e w r => exact State.NotBuilding.settle (s := s.setH e) h .h r
  | slot | startL | startH => exact h

theorem State.inv_of_notBuilding {s : State} (hl : s.l.Good) (hh : s.h.Good) (h : s.NotBuilding) : s.Inv :=
  State.inv_iff.mpr ⟨hl, hh, fun levels payload ht => absurd ht (h levels payload)⟩

/-- The invariant is that of each engine, and of the builder while an `H.Start` is in progress (R165). -/
theorem StepEffect.inv {s t : State} (e : StepEffect s t) (hi : s.Inv) : t.Inv := by
  obtain ⟨gl, gh, hbuild⟩ := State.inv_iff.mp hi
  cases e with
  | pullL hp w r =>
    have hs' := (fetch_pullL hp).1
    refine State.inv_of_notBuilding (by simpa using w.good gl) ?_ (State.NotBuilding.settle ?_ .l r)
    · rw [State.settle_h, State.setL_h, hs']
      exact gh
    · exact .of_no_task (by rw [hs']; rfl)
  | pullH hp w r =>
    have hs' := (fetch_pullH hp).1
    refine State.inv_of_notBuilding ?_ (by simpa using w.good gh) (State.NotBuilding.settle ?_ .h r)
    · rw [State.settle_l, State.setH_l, hs']
      exact gl
    · exact .of_no_task (by rw [hs']; rfl)
  | quiet => exact hi
  | host ht ha e => exact State.inv_of_notBuilding (e.goodL gl) (e.goodH gh) (e.notBuilding (.of_no_task ht))
  | slot ht hk =>
    refine State.inv_iff.mpr ⟨gl, gh.withBuilder _, fun levels payload htask => ?_⟩
    exact (hbuild levels payload htask).step hk
  | opened hr hb rest payload =>
    refine State.inv_iff.mpr ⟨gl, gh.withBuilder _, fun levels payload htask => ?_⟩
    cases htask
    exact ⟨0, _, hb, rfl⟩
  | refused ht rest => exact State.inv_of_notBuilding gl gh (.of_no_task ht)
  | ended hr hb agenda payload =>
    exact State.inv_of_notBuilding gl ((hb hi).good payload s.h) (.of_no_task rfl)
  | hardReset =>
    have idle : ∀ e, Control.reset.Ok e := fun e => by simp [Control.Ok, Control.reset]
    exact State.inv_of_notBuilding ⟨idle .l, nofun⟩ ⟨idle .h, nofun⟩ (.of_no_task rfl)

/-- Settles O57: each effect of a step keeps the invariant, which holds the storage spaces well formed. -/
theorem everyStepKeepsTheInvariant : Obligations.EveryStepKeepsTheInvariant := by
  intro s t hi h
  have ht := (step_effect h).inv hi
  exact ⟨ht, ht.memory_wf⟩

/-! ### Stopped engines and stream positions -/

/-- Settles O53: an engine that is not running does no work, and only a step that replaces it does anything else. -/
theorem onlyStartOrResetLeavesDoneOrFault : Obligations.OnlyStartOrResetLeavesDoneOrFault := by
  intro s t h
  have stopped : ∀ st : Status, st = .done ∨ st = .fault → st ≠ .run := by
    rintro _ (rfl | rfl) <;> simp
  refine ⟨fun hs => ?_, fun hs => ?_⟩
  · cases hl : s.replacesL with
    | true => exact .inr rfl
    | false => exact .inl (((step_effect h).worksL hl).of_stopped (stopped _ hs))
  · cases hh : s.replacesH with
    | true => exact .inr rfl
    | false => exact .inl (((step_effect h).worksH hh).of_stopped (stopped _ hs))

/-- R40, R52, R120: the stream positions of engine L under its work. -/
theorem EngineL.Works.positions {l l' : EngineL} (w : l.Works l') :
    l.consumed ≤ l'.consumed ∧ l.pcur ≤ l'.pcur ∧ l.ccur ≤ l'.ccur ∧
      (l.pcur ≤ l.payload.length → l'.pcur ≤ l'.payload.length) ∧
      (l.ccur ≤ l.codes.length → l'.ccur ≤ l'.codes.length) := by
  have f := w.frame
  rw [f.payload, f.codes]
  exact ⟨f.consumed, f.pcur, f.ccur, f.pcurIn, f.ccurIn⟩

/-- R40, R52: the stream positions of engine H under its work. -/
theorem EngineH.Works.positions {h h' : EngineH} (w : h.Works h') :
    h.consumed ≤ h'.consumed ∧ h.pcur ≤ h'.pcur ∧ (h.pcur ≤ h.payload.length → h'.pcur ≤ h'.payload.length) := by
  have f := w.frame
  rw [show h'.payload = h.payload from f.payload]
  exact ⟨f.consumed, f.pcur, f.pcurIn⟩

/-- Settles O51: all that an engine does between two `Start`s moves its positions forward, if at all. -/
theorem streamPositionsNeverMoveBack : Obligations.StreamPositionsNeverMoveBack := by
  intro s t
  refine ⟨fun i h => ⟨fun hi => ?_, fun hi => ?_⟩, fun h => ⟨fun hl => ?_, fun hh => ?_⟩⟩
  · exact ((exec_effect h).worksL hi).positions
  · exact ((exec_effect h).worksH hi).positions
  · exact ((step_effect h).worksL hl).positions
  · exact ((step_effect h).worksH hh).positions

end Sys2Proof.Machine
end

section
/-! PROOFS. The storage spaces (spec/20_memory.md): the output streams (R58), what the Huffman bits and the builder slots
leave alone (R57), the payload reads (R52), and the order of the bits in a group and in a payload (R59, R60). -/

namespace Sys2Proof.Machine

/-! ### The output streams (R58) -/

/-- Settles O52: all that an engine does between two `Start`s only appends to its output. -/
theorem emittedPrefixStands : Obligations.EmittedPrefixStands := by
  intro i s t h
  exact ⟨fun hi => ((exec_effect h).worksL hi).frame.out, fun hi => ((exec_effect h).worksH hi).frame.out⟩

/-! ### The frame of the Huffman bits and of the slots (R57, R190) -/

/-- R190: a bit writes the status, the traversal and the output; nothing else. -/
theorem BitEffect.eq {h h' : EngineH} {r : Result Byte} (e : BitEffect h h' r) :
    h' = { h with ctl := h'.ctl, node := h'.node, out := h'.out } := by
  cases e <;> rfl

/-- R184: a bit may end the sequence, but it raises nothing. -/
theorem BitEffect.err {h h' : EngineH} {r : Result Byte} (e : BitEffect h h' r) : h'.ctl.err = h.ctl.err := by
  cases e <;> rfl

/-- R58: the output grows by one byte at most. -/
theorem BitEffect.out_grows {h h' : EngineH} {r : Result Byte} (e : BitEffect h h' r) :
    h'.out = h.out ∨ ∃ b, h'.out = h.out ++ [b] := by
  cases e with
  | entered | ended => exact .inl rfl
  | emitted b => exact .inr ⟨b, rfl⟩

/-- R202: the end of a step answers, and leaves the operation in progress; or it is silent, and the pull goes on. -/
theorem State.settle_task (s : State) (e : Engine) (r : Option Reply) :
    (s.settle e r).task = s.task ∨ (s.settle e r).task = some (.pull e) ∧ (s.settle e r).reply = s.reply := by
  cases r with
  | none => exact .inr ⟨rfl, rfl⟩
  | some answer => exact .inl rfl

/-- What a Huffman bit does to the whole machine. -/
theorem exec_bit_next {bit : Bool} {s t : State} (h : exec (decodeBit bit) s = .next t) :
    ∃ e r, BitEffect s.h e r ∧ t = (s.setH e).settle .h (replyH e r) := by
  rw [exec_bit_run bit (exec_bit_running h)] at h
  obtain ⟨e, r, he, rfl⟩ := State.answerH_next h
  exact ⟨e, r, bitStep_effect he, rfl⟩

/-- A Huffman bit or a builder slot, as the instruction that its item decodes to. -/
theorem bit_or_slot {i : Instr}
    (hi : i = .left ∨ i = .right ∨ i = .slotPlaceholder ∨ (∃ b, i = .slotLeaf b) ∨ i = .slotEof) :
    (∃ bit, i = decodeBit bit) ∨ ∃ k, i = decodeSlot k := by
  rcases hi with rfl | rfl | rfl | ⟨b, rfl⟩ | rfl
  · exact .inl ⟨false, rfl⟩
  · exact .inl ⟨true, rfl⟩
  · exact .inr ⟨.placeholder, rfl⟩
  · exact .inr ⟨.leaf b, rfl⟩
  · exact .inr ⟨.eof, rfl⟩

theorem decodeBit_isBit (bit : Bool) : decodeBit bit = .left ∨ decodeBit bit = .right := by
  cases bit with
  | false => exact .inl rfl
  | true => exact .inr rfl

theorem decodeSlot_notBit (k : Slot) : ¬(decodeSlot k = .left ∨ decodeSlot k = .right) := by
  cases k <;> simp [decodeSlot]

/-- Settles O47: a bit writes the elements of `BitEffect.eq` only, and a slot the builder's stack and root
(`Builder.attachSlot_eq`). -/
theorem huffmanBitsAndSlotsKeepEverythingElse : Obligations.HuffmanBitsAndSlotsKeepEverythingElse := by
  intro i s t hi h
  rcases bit_or_slot hi with ⟨bit, rfl⟩ | ⟨k, rfl⟩
  · obtain ⟨e, r, he, rfl⟩ := exec_bit_next h
    rw [State.settle_l, State.settle_h, State.settle_agenda, State.setH_h]
    refine ⟨rfl, rfl, ?_, ?_, ?_, ?_, ?_, ?_, he.err, fun _ => ⟨?_, he.out_grows, State.settle_task _ _ _⟩,
      fun hl hr => absurd (decodeBit_isBit bit) (not_or.mpr ⟨hl, hr⟩)⟩
    iterate 7 rw [he.eq]
  · rw [exec_slot] at h
    obtain ⟨-, rfl⟩ := State.runSlot_next h
    refine ⟨rfl, rfl, rfl, rfl, rfl, rfl, rfl, rfl, rfl, fun hb => absurd hb (decodeSlot_notBit k),
      fun _ _ => ⟨rfl, rfl, rfl, rfl, rfl, ?_⟩⟩
    rw [State.setH_h, Builder.attachSlot_eq]
    exact ⟨rfl, rfl, rfl, rfl⟩

/-! ### The order of the bits in a group (R59) -/

/-- R59: the bit of a group is the bit of its little-endian integer. -/
theorem groupBit_eq_testBit (g : Bytes) : ∀ n, groupBit g n = ((groupValue g).testBit n).toNat := by
  induction g with
  | nil => intro n; simp [groupBit, groupValue]
  | cons b rest ih =>
    intro n
    have hv : (groupValue (b :: rest)).testBit n =
        if n < 8 then b.toNat.testBit n else (groupValue rest).testBit (n - 8) := by
      rw [groupValue, Nat.add_comm]
      exact Nat.testBit_two_pow_mul_add (i := 8) _ b.isLt n
    rw [hv]
    split
    · rename_i hn
      rw [groupBit, Nat.div_eq_of_lt hn, Nat.mod_eq_of_lt hn, List.getD_cons_zero, Nat.toNat_testBit]
    · rename_i hn
      obtain ⟨m, rfl⟩ : ∃ m, n = m + 8 := ⟨n - 8, by omega⟩
      rw [Nat.add_sub_cancel, ← ih]
      simp [groupBit]

/-- The sum of the `w` bits of `x` from bit `m` on is that field of `x`. -/
theorem sum_bits_eq_field (x m w : Nat) :
    ((List.range w).map fun i => (x.testBit (m + i)).toNat * 2 ^ i).sum = x / 2 ^ m % 2 ^ w := by
  induction w with
  | zero => simp [Nat.mod_one]
  | succ w ih =>
    rw [List.sum_range_succ, ih, Nat.mod_pow_succ, Nat.toNat_testBit, Nat.pow_add, Nat.div_div_eq_div_mul,
      Nat.mul_comm (2 ^ w)]

/-- Settles O6: bit by bit the group is its integer, and a field is the sum of its bits. -/
theorem codeIsTheFieldOfTheLittleEndianGroup : Obligations.CodeIsTheFieldOfTheLittleEndianGroup := by
  intro g w j
  simp only [codeAt, groupBit_eq_testBit]
  exact sum_bits_eq_field _ _ _

/-! ### The order of the bits in a payload (R60) -/

/-- R60: a byte of a payload gives its eight bits, bit 7 first. -/
theorem payloadBits_cons (b : Byte) (p : Bytes) :
    payloadBits (b :: p) = ((List.range 8).map (byteBit b)).reverse ++ payloadBits p := rfl

/-- R40, R60: the bits that engine H has still to read: those left of the byte being consumed, then the payload's. -/
def EngineH.bitsLeft (h : EngineH) : List Bool :=
  ((List.range h.bleft).map (byteBit h.cur)).reverse ++ payloadBits (h.payload.drop h.pcur)

/-- R181: `HufReadBit` takes the first of the bits left, and is exhausted when none is. -/
theorem EngineH.readBit_bitsLeft (h : EngineH) :
    (h.readBit = none ∧ h.bitsLeft = []) ∨
      ∃ h' b, h.readBit = some (h', b) ∧ h.bitsLeft = b :: h'.bitsLeft := by
  rcases h.readBit_cases with ⟨hb, hp, he⟩ | ⟨hb, b, hp, he⟩ | ⟨n, hb, he⟩
  · exact .inl ⟨he, by simp [bitsLeft, hb, List.drop_eq_nil_of_le hp, payloadBits]⟩
  · refine .inr ⟨_, _, he, ?_⟩
    obtain ⟨hlt, rfl⟩ := List.getElem?_eq_some_iff.mp hp
    rw [bitsLeft, hb, List.drop_eq_getElem_cons hlt, payloadBits_cons]
    simp [bitsLeft, List.range_succ]
  · exact .inr ⟨_, _, he, by simp [bitsLeft, hb, List.range_succ]⟩

/-- R60, R181: reading bits gives the bits left, in their order. -/
theorem bitsRead_eq (n : Nat) : ∀ h : EngineH, bitsRead n h = h.bitsLeft.take n := by
  induction n with
  | zero => intro h; rfl
  | succ n ih =>
    intro h
    rcases h.readBit_bitsLeft with ⟨he, hl⟩ | ⟨h', b, he, hl⟩
    · rw [bitsRead, he, hl]; rfl
    · rw [bitsRead, he, hl, List.take_succ_cons, ← ih h']

/-- Settles O7: at the start of a payload the bits left are the payload's. -/
theorem huffmanReadsMostSignificantBitFirst : Obligations.HuffmanReadsMostSignificantBitFirst := by
  intro h n hb hp
  have start : h.bitsLeft = payloadBits h.payload := by simp [EngineH.bitsLeft, hb, hp]
  rw [bitsRead_eq, start]

/-! ### The payload reads (R52, R181) -/

/-- R52: the bytes of a payload read are the payload's from the cursor on. -/
theorem payloadSlice_getElem? (p : Bytes) (c : Nat) {n k : Nat} (hk : k < n) :
    (payloadSlice p c n)[k]? = p[c + k]? := by
  rw [payloadSlice, List.getElem?_take_of_lt hk, List.getElem?_drop]

/-- Settles O8: `PayloadRead` by the length and the bytes of its slice, `HufReadBit` by its three cases. -/
theorem payloadReadReturnsTheNextBytes : Obligations.PayloadReadReturnsTheNextBytes := by
  refine ⟨fun l n _ => ⟨?_, payloadSlice_length _ _ _, fun k hk => payloadSlice_getElem? _ _ (by omega)⟩,
    fun h n _ => ⟨?_, payloadSlice_length _ _ _, fun k hk => payloadSlice_getElem? _ _ (by omega)⟩, fun h => ?_⟩
  · simp only [EngineL.payloadRead, payloadSlice_length]
  · simp only [EngineH.payloadRead, payloadSlice_length]
  · have inside : ∀ {c : Byte}, h.payload[h.pcur]? = some c → h.pcur < h.payload.length := fun hc =>
      (List.getElem?_eq_some_iff.mp hc).1
    rcases h.readBit_cases with ⟨hb, hp, he⟩ | ⟨hb, b, hp, he⟩ | ⟨n, hb, he⟩
    · exact ⟨fun m hm => absurd hm (by omega), fun c _ hc => absurd (inside hc) (by omega), fun _ _ => he⟩
    · refine ⟨fun m hm => absurd hm (by omega), fun c _ hc => ?_, fun _ hle => absurd (inside hp) (by omega)⟩
      obtain rfl : b = c := Option.some.inj (hp.symm.trans hc)
      exact he
    · refine ⟨fun m hm => ?_, fun c h0 _ => absurd h0 (by omega), fun h0 _ => absurd h0 (by omega)⟩
      obtain rfl : n = m := by omega
      exact he

end Sys2Proof.Machine
end

section
/-! PROOFS. Decoding and encoding agree (spec/30_encoding.md R85, R88, R90, R92): one rule for the class of a code, and the
integer that a group of codes is packed into. -/

namespace Sys2Proof.Machine

/-! ### The class of a code (R85) -/

/-- R85: the code is not one that `CLR` takes, the row tested first. -/
theorem notClr_iff {bm : Bool} {c : Nat} :
    (!(bm && c == clearCode)) = true ↔ ¬ (bm = true ∧ c = clearCode) := by
  rw [Bool.not_eq_true', ← Bool.not_eq_true, Bool.and_eq_true, beq_iff_eq]

theorem selectedIn_kwk {bm : Bool} {tl c : Nat} :
    (Instr.kwk c).selectedIn bm tl = true ↔ c = tl ∧ ¬ (bm = true ∧ c = clearCode) := by
  rw [Instr.selectedIn, Bool.and_eq_true, decide_eq_true_iff, notClr_iff]

theorem selectedIn_lit {bm : Bool} {tl : Nat} {b : Byte} :
    (Instr.lit b).selectedIn bm tl = true ↔ b.toNat < tl := by
  rw [Instr.selectedIn, decide_eq_true_iff]

theorem selectedIn_ref {bm : Bool} {tl c : Nat} :
    (Instr.ref c).selectedIn bm tl = true ↔ (256 ≤ c ∧ c < tl) ∧ ¬ (bm = true ∧ c = clearCode) := by
  rw [Instr.selectedIn, Bool.and_eq_true, decide_eq_true_iff, notClr_iff]

theorem selectedIn_bad {bm : Bool} {tl c : Nat} :
    (Instr.bad c).selectedIn bm tl = true ↔ tl < c ∧ ¬ (bm = true ∧ c = clearCode) := by
  rw [Instr.selectedIn, Bool.and_eq_true, decide_eq_true_iff, notClr_iff]

/-- R85: the class of a code encodes to the code, and its row's condition holds. -/
theorem classify_selected (bm : Bool) (tl code : Nat) :
    encode (classify bm tl code).instr = .code code ∧ (classify bm tl code).instr.selectedIn bm tl = true := by
  unfold classify
  split
  · next hclr => exact ⟨congrArg Item.code hclr.2.symm, hclr.1⟩
  · next hclr =>
    split
    · next heq => exact ⟨rfl, selectedIn_kwk.mpr ⟨heq, hclr⟩⟩
    · next hne =>
      split
      · next hlt =>
        split
        · next hlit =>
          have hb : (BitVec.ofNat 8 code).toNat = code := Nat.mod_eq_of_lt (Nat.lt_succ_of_le hlit)
          exact ⟨congrArg Item.code hb, selectedIn_lit.mpr (hb.symm ▸ hlt)⟩
        · next hlit => exact ⟨rfl, selectedIn_ref.mpr ⟨⟨Nat.lt_of_not_le hlit, hlt⟩, hclr⟩⟩
      · next hlt => exact ⟨rfl, selectedIn_bad.mpr ⟨by omega, hclr⟩⟩

/-- R85: a class whose row's condition holds is the class of the code it encodes to. -/
theorem classify_of_selected {bm : Bool} {tl code : Nat} {cls : CodeClass} (he : encode cls.instr = .code code)
    (hs : cls.instr.selectedIn bm tl = true) : classify bm tl code = cls := by
  cases cls with
  | clr =>
    obtain rfl : clearCode = code := Item.code.inj he
    exact if_pos ⟨hs, rfl⟩
  | kwk c =>
    obtain rfl : c = code := Item.code.inj he
    obtain ⟨heq, hclr⟩ := selectedIn_kwk.mp hs
    rw [classify, if_neg hclr, if_pos heq]
  | lit b =>
    obtain rfl : b.toNat = code := Item.code.inj he
    have hb : b.toNat < 256 := b.isLt
    have hlt := selectedIn_lit.mp hs
    rw [classify, if_neg (fun h => hb.ne h.2), if_neg hlt.ne, if_pos hlt, if_pos (Nat.le_of_lt_succ hb),
      BitVec.ofNat_toNat, BitVec.setWidth_eq]
  | ref c =>
    obtain rfl : c = code := Item.code.inj he
    obtain ⟨⟨hge, hlt⟩, hclr⟩ := selectedIn_ref.mp hs
    rw [classify, if_neg hclr, if_neg hlt.ne, if_pos hlt, if_neg (Nat.not_le_of_lt hge)]
  | bad c =>
    obtain rfl : c = code := Item.code.inj he
    obtain ⟨hgt, hclr⟩ := selectedIn_bad.mp hs
    rw [classify, if_neg hclr, if_neg hgt.ne', if_neg hgt.asymm]

/-- R85: a code has a class exactly when the class encodes to the code and its row's condition holds. -/
theorem classify_eq_iff {bm : Bool} {tl code : Nat} {cls : CodeClass} :
    classify bm tl code = cls ↔ encode cls.instr = .code code ∧ cls.instr.selectedIn bm tl = true :=
  ⟨fun h => h ▸ classify_selected bm tl code, fun ⟨he, hs⟩ => classify_of_selected he hs⟩

/-- Settles O3: a code by the class that is selected, any other item by its own table. -/
theorem decodeOfEncodeIsTheInstruction : Obligations.DecodeOfEncodeIsTheInstruction := by
  intro i bm tl _ hs
  have code (cls : CodeClass) (c : Nat) (he : encode cls.instr = .code c) (hs : cls.instr.selectedIn bm tl = true) :
      decodeCode bm tl c = cls.instr := congrArg CodeClass.instr (classify_of_selected he hs)
  cases i with
  | clr => exact code .clr _ rfl hs
  | kwk c => exact code (.kwk c) _ rfl hs
  | lit b => exact code (.lit b) _ rfl hs
  | ref c => exact code (.ref c) _ rfl hs
  | bad c => exact code (.bad c) _ rfl hs
  | left | right => rfl
  | slotPlaceholder | slotLeaf _ | slotEof => rfl
  | lStart _ _ _ | lStartCodes _ _ _ | hStart _ _ | pull _ | decodeAll _ | statusRead _ => rfl

/-- Settles O4: a code by its class, any other item by its own table. -/
theorem encodeOfDecodeIsTheItem : Obligations.EncodeOfDecodeIsTheItem := by
  intro bm tl it
  cases it with
  | code c => exact (classify_selected bm tl c).1
  | bit b => cases b <;> rfl
  | slot k => cases k <;> rfl
  | op o => cases o <;> rfl

/-- Settles O2: each row by `classify_eq_iff`. A code at or above the table length is never `CLR`, because a table
holds the 256 singletons and, in block mode, the sentinel. -/
theorem everyCodeHasExactlyTheClassOfItsRow : Obligations.EveryCodeHasExactlyTheClassOfItsRow := by
  intro bm tl code hmin
  have tableNotClr : ¬ (bm = true ∧ tl = clearCode) := by rintro ⟨rfl, rfl⟩; exact absurd hmin (by decide)
  have htl : 256 ≤ tl := by split at hmin <;> omega
  simp only [classify_eq_iff, CodeClass.instr, encode, Item.code.injEq, selectedIn_kwk, selectedIn_lit, selectedIn_ref,
    selectedIn_bad, BitVec.toNat_ofNat, true_and]
  refine ⟨⟨fun ⟨hc, hb⟩ => ⟨hb, hc.symm⟩, fun ⟨hb, hc⟩ => ⟨hc.symm, hb⟩⟩, ?_, ?_, ?_, ?_, ?_, ?_⟩
  · exact ⟨fun ⟨heq, _⟩ => heq, fun heq => ⟨heq, heq ▸ tableNotClr⟩⟩
  · exact ⟨fun ⟨hb, _⟩ => by omega, fun hle => by omega⟩
  · exact and_assoc
  · exact ⟨fun ⟨hgt, _⟩ => hgt, fun hgt => ⟨hgt, fun ⟨_, hc⟩ => (htl.trans_lt hgt).ne' hc⟩⟩
  · exact fun b ⟨hb, _⟩ => hb
  · rintro c (⟨hc, _⟩ | ⟨hc, _⟩ | ⟨hc, _⟩) <;> exact hc

/-- Settles O1: each word is a closed term. -/
theorem tableWordsDecodeToTheirRows : Obligations.TableWordsDecodeToTheirRows := by
  unfold Obligations.TableWordsDecodeToTheirRows
  decide

/-! ### Packed groups (R59, R92) -/

/-- R92: the bytes of a word, one more of them. -/
theorem wordBytes_succ (n x : Nat) : wordBytes (n + 1) x = BitVec.ofNat 8 x :: wordBytes n (x / 256) := by
  have shift (k : Nat) : x / 2 ^ (8 * (k + 1)) = x / 256 / 2 ^ (8 * k) := by
    rw [Nat.div_div_eq_div_mul, Nat.mul_succ, Nat.pow_add, Nat.mul_comm]
  simp [wordBytes, List.range_succ_eq_map, shift]

/-- R59, R92: the little-endian integer of the `n` bytes of a word is the word, modulo 2^(8n). -/
theorem groupValue_wordBytes (n : Nat) : ∀ x, groupValue (wordBytes n x) = x % 256 ^ n := by
  induction n with
  | zero => intro x; simp [wordBytes, groupValue, Nat.mod_one]
  | succ n ih => intro x; rw [wordBytes_succ, groupValue, ih, Nat.pow_succ', Nat.mod_mul, BitVec.toNat_ofNat]

/-- R92: codes below 2^w pack into `w` bits each. -/
theorem packValue_lt {w : Nat} {codes : List Nat} (h : ∀ c ∈ codes, c < 2 ^ w) :
    packValue w codes < 2 ^ (w * codes.length) := by
  induction codes with
  | nil => exact Nat.one_pos
  | cons c rest ih =>
    obtain ⟨hc, hrest⟩ := List.forall_mem_cons.mp h
    calc c + 2 ^ w * packValue w rest < 2 ^ w * (packValue w rest + 1) := by rw [Nat.mul_succ]; omega
      _ ≤ 2 ^ w * 2 ^ (w * rest.length) := Nat.mul_le_mul_left _ (ih hrest)
      _ = 2 ^ (w * (rest.length + 1)) := by rw [← Nat.pow_add, Nat.mul_succ, Nat.add_comm]

/-- R59: the field of the packed integer at a position is the code there. -/
theorem packValue_field {w : Nat} {codes : List Nat} (h : ∀ c ∈ codes, c < 2 ^ w) :
    ∀ {j : Nat}, j < codes.length → codes[j]? = some (packValue w codes / 2 ^ (j * w) % 2 ^ w) := by
  induction codes with
  | nil => intro j hj; cases hj
  | cons c rest ih =>
    obtain ⟨hc, hrest⟩ := List.forall_mem_cons.mp h
    intro j hj
    cases j with
    | zero => simp [packValue, Nat.mod_eq_of_lt hc]
    | succ j =>
      have shift : packValue w (c :: rest) / 2 ^ ((j + 1) * w) = packValue w rest / 2 ^ (j * w) := by
        rw [Nat.succ_mul, Nat.add_comm, Nat.pow_add, ← Nat.div_div_eq_div_mul, packValue,
          Nat.add_mul_div_left _ _ (Nat.two_pow_pos w), Nat.div_eq_of_lt hc, Nat.zero_add]
      rw [List.getElem?_cons_succ, shift]
      exact ih hrest (Nat.lt_of_succ_lt_succ hj)

/-- R92: a group of eight codes below 2^w is, as a little-endian integer, what the codes pack into. -/
theorem groupValue_packGroup {w : Nat} {codes : List Nat} (hlen : codes.length = 8) (h : ∀ c ∈ codes, c < 2 ^ w) :
    groupValue (packGroup w codes) = packValue w codes := by
  have hlt : packValue w codes < 256 ^ w := by
    rw [show 256 = 2 ^ 8 from rfl, ← Nat.pow_mul, Nat.mul_comm, ← hlen]
    exact packValue_lt h
  rw [packGroup, groupValue_wordBytes, Nat.mod_eq_of_lt hlt]

/-- Settles O5: a code is a field of the group's integer, and the group's integer is what the codes pack into. -/
theorem packedGroupGivesBackItsEightCodes : Obligations.PackedGroupGivesBackItsEightCodes := by
  intro w codes _ _ hlen h
  refine ⟨by simp [packGroup, wordBytes], fun j hj => ?_⟩
  rw [codeIsTheFieldOfTheLittleEndianGroup, groupValue_packGroup hlen h]
  exact packValue_field h (by omega)

end Sys2Proof.Machine
end

section
/-! PROOFS. The BitGroupReader (spec/40_bitgroupreader.md): a group fill, a code inside a group, at a group boundary, after
a discard and in the test seam; and the step of engine L that meets a short last group. -/

namespace Sys2Proof.Machine

/-! ### A group fill (R112 to R114) -/

/-- Settles O9: a fill goes by how many bytes are left, none, fewer than `code_length`, or enough. -/
theorem groupFillHasItsThreeOutcomes : Obligations.GroupFillHasItsThreeOutcomes := fun _ _ h1 =>
  ⟨fun h => EngineL.fillGroup_exhausted h.ge,
    fun h hw => EngineL.fillGroup_short (Nat.sub_pos_iff_lt.mp h) hw,
    fun hw => EngineL.fillGroup_whole h1 hw⟩

/-! ### The next code (R115, R117, R118) -/

/-- Settles O10: the bits of the code lie inside the group, and their sum is a field of the group's integer. -/
theorem nextCodeIsTheNextFieldOfTheGroup : Obligations.NextCodeIsTheNextFieldOfTheGroup := by
  intro l j hs hv hlen hj _ hg
  have inside : (j + 1) * l.codeLength ≤ 8 * l.group.length := hlen ▸ Nat.mul_le_mul_right _ hj
  rw [EngineL.nextCode_inside hs hv hg inside, codeIsTheFieldOfTheLittleEndianGroup]

/-- R111: with no group buffered, or all its bits used, the next bit needs a fill. -/
theorem EngineL.needsFill_of_boundary {l : EngineL} (h : l.gvalid = false ∨ l.gpos = 8 * l.group.length) :
    l.needsFill = true := by
  rcases h with hv | hg
  · simp [EngineL.needsFill, hv]
  · simp [EngineL.needsFill, hg]

/-- Settles O11: at a code boundary the first bit needs a fill, and the code goes as the fill does. -/
theorem nextCodeFillsAtACodeBoundary : Obligations.NextCodeFillsAtACodeBoundary := by
  intro l hs h1 _ hb
  have hf := EngineL.needsFill_of_boundary hb
  exact ⟨fun h => EngineL.nextCode_exhausted hs h1 hf h.ge,
    fun h hw => EngineL.nextCode_truncated hs hf (Nat.sub_pos_iff_lt.mp h) hw,
    fun hw => EngineL.nextCode_filled hs h1 hf hw⟩

/-! ### Discarding the group (R116) -/

theorem EngineL.discardGroup_of_payload {l : EngineL} (hs : l.seam = false) :
    l.discardGroup = { l with gvalid := false } := by
  simp [EngineL.discardGroup_eq, hs]

theorem EngineL.discardGroup_of_seam {l : EngineL} (hs : l.seam = true) : l.discardGroup = l := by
  rw [EngineL.discardGroup_eq, if_pos hs]

/-- Settles O12: after a discard nothing is buffered, so the next code is the first of a new group. -/
theorem discardDropsTheRestOfTheGroup : Obligations.DiscardDropsTheRestOfTheGroup := by
  intro l
  refine ⟨EngineL.discardGroup_of_payload, EngineL.discardGroup_of_seam, fun hs h1 hw => ?_⟩
  rw [EngineL.discardGroup_of_payload hs]
  exact ⟨_, EngineL.nextCode_filled hs h1 (EngineL.needsFill_of_boundary (.inl rfl)) (Nat.le_sub_of_add_le' hw)⟩

/-! ### The test seam (R120) -/

theorem EngineL.nextCode_of_seam {l : EngineL} (hs : l.seam = true) : l.nextCode = l.nextSeamCode := by
  rw [EngineL.nextCode, if_pos hs]

/-- Settles O13: `next_code` reads the supplied sequence at its cursor, which holds a code or lies past the end. -/
theorem seamDeliversTheSuppliedCodes : Obligations.SeamDeliversTheSuppliedCodes := by
  intro l hs
  rw [EngineL.nextCode_of_seam hs, EngineL.nextSeamCode]
  refine ⟨fun c hc => ?_, fun h => ?_⟩
  · rw [hc]
  · rw [List.getElem?_eq_none h]

/-! ### A short last group (R114, R132) -/

/-- R132: a truncated read raises `TRUNCATED_GROUP`, in the state that the reader leaves. -/
theorem stepL_truncated {l l' : EngineL} (h : l.nextCode = (l', .truncated)) :
    stepL l = .next (l'.raise .unexpectedEndOfStream .truncatedGroup, .faulted) := by
  rw [stepL, h]
  rfl

/-- Settles O25: the step is `L.Step()`, whose read of a code is truncated at its fill. -/
theorem shortLastGroupFaultsAtItsFill : Obligations.ShortLastGroupFaultsAtItsFill := by
  intro s s' hp hr hs hlt hw hb
  have hn := EngineL.nextCode_truncated hs (EngineL.needsFill_of_boundary hb) hlt hw
  rw [step_pullL_running hp hr, stepL_truncated hn]
  rfl

end Sys2Proof.Machine
end

section
/-! PROOFS. The AdaptiveDictionaryDecoder (spec/41_lzw_decoder.md): what each code class does to the whole machine, what any
emission appends and when it widens the codes, and the two special codes: the first one and the largest one. -/

namespace Sys2Proof.Machine

/-! ### Initialisation and `CLR` (R131, R133) -/

/-- Settles O14: the table by the entries of the initial table. -/
theorem lzwInitWritesExactlyTheDecoderState : Obligations.LzwInitWritesExactlyTheDecoderState := by
  intro l
  rw [EngineL.lzwInit_table]
  exact ⟨rfl, initialTable_length l.blockMode, fun _ h => initialTable_singleton l.blockMode h,
    fun hb => hb ▸ initialTable_sentinel⟩

/-- Settles O15: `CLR` is `clrStep`, and silent. -/
theorem clrResetsTheDictionaryAndEmitsNothing : Obligations.ClrResetsTheDictionaryAndEmitsNothing := fun s hr =>
  (exec_code_run .clr hr).trans (congrArg s.answerL (clrStep_eq s.l))

/-! ### The classes that emit or raise (R135 to R141) -/

/-- R138 to R141: an emission of a non-empty chunk, answered. -/
theorem State.answerL_emitChunk (s : State) (b : Byte) (rest : Bytes) :
    s.answerL (emitChunk (b :: rest) s.l) = .next (s.afterEmit (b :: rest) b) := by
  rw [emitChunk_cons]
  rfl

/-- R224: a raise, answered. -/
theorem State.answerL_raiseL (s : State) (k : ErrKind) (c : Cause) :
    s.answerL (raiseL k c s.l) = .next (s.faultedL k c) := rfl

theorem refStep_of_entry {l : EngineL} {i : Nat} {chunk : Bytes} (h : l.table[i]? = some (.bytes chunk)) :
    refStep i l = emitChunk chunk l := by
  rw [refStep, EngineL.tableRead, h]

theorem kwkStep_of_chunk {l : EngineL} {b : Byte} {rest : Bytes} (h : l.lastChunk = some (b :: rest)) :
    kwkStep l = emitChunk (b :: rest ++ [b]) l := by
  rw [kwkStep, h]
  rfl

theorem kwkStep_of_none {l : EngineL} (h : l.lastChunk = none) : kwkStep l = raiseL .formatError .kwkwkNoPrior l := by
  rw [kwkStep, h]

/-- Settles O16: `LIT` emits the chunk of its one byte. -/
theorem litEmitsItsByte : Obligations.LitEmitsItsByte := fun s b hr =>
  (exec_code_run (.lit b) hr).trans (s.answerL_emitChunk b [])

/-- Settles O17: `REF` emits what it reads in the table. -/
theorem refEmitsItsTableEntry : Obligations.RefEmitsItsTableEntry := fun s i b rest hr ht =>
  (exec_code_run (.ref i) hr).trans ((congrArg s.answerL (refStep_of_entry ht)).trans (s.answerL_emitChunk b rest))

/-- Settles O18: with a previous chunk `KWK` emits, without one it raises. -/
theorem kwkRepeatsTheFirstByteOrRaises : Obligations.KwkRepeatsTheFirstByteOrRaises := fun s code hr =>
  ⟨fun b rest hl => (exec_code_run (.kwk code) hr).trans
      ((congrArg s.answerL (kwkStep_of_chunk hl)).trans (s.answerL_emitChunk b (rest ++ [b]))),
    fun hl => (exec_code_run (.kwk code) hr).trans (congrArg s.answerL (kwkStep_of_none hl))⟩

/-- Settles O19: `BAD` raises, and the row of `BAD` takes the code. -/
theorem badRaisesCodeOutOfRange : Obligations.BadRaisesCodeOutOfRange := fun s code hr =>
  ⟨(exec_code_run (.bad code) hr).trans (s.answerL_raiseL _ _),
    fun hgt hclr => congrArg CodeClass.instr (classify_of_selected (cls := .bad code) rfl (selectedIn_bad.mpr ⟨hgt, hclr⟩))⟩

/-! ### Any emission (R138 to R141) -/

/-- A code class after which the output is one chunk longer has emitted that chunk: the other effects leave the output. -/
theorem CodeEffect.of_out_append {l l' : EngineL} {r : Result Bytes} {chunk : Bytes} (e : CodeEffect l l' r)
    (h : l'.out = l.out ++ [chunk]) :
    ∃ b, chunk.head? = some b ∧ l' = l.afterEmit chunk b ∧ r = .emitted chunk := by
  cases e with
  | clr | raised => exact absurd h (by simp)
  | emitted b rest =>
    obtain rfl : b :: rest = chunk := by simpa [EngineL.afterEmit] using h
    exact ⟨b, rfl, rfl, rfl⟩

/-- An LZW code after which the output is one chunk longer is an emitting step with that chunk. -/
theorem exec_code_emitted {i : Instr} {s t : State} {chunk : Bytes} (hi : i.isCode = true) (h : exec i s = .next t)
    (hout : t.l.out = s.l.out ++ [chunk]) : ∃ b, chunk.head? = some b ∧ t = s.afterEmit chunk b := by
  obtain ⟨cls, rfl⟩ := isCode_instr hi
  obtain ⟨-, l, r, hrun, rfl⟩ := exec_code_next h
  rw [State.settle_l] at hout
  obtain ⟨b, hb, rfl, rfl⟩ := (runClass_effect hrun).of_out_append hout
  exact ⟨b, hb, rfl⟩

/-- R139: with a previous chunk and room in the table, the new entry stands at the old table length. -/
theorem tableAfter_new {l : EngineL} {p : Bytes} (b : Byte) (hp : l.lastChunk = some p)
    (hroom : l.table.length < 2 ^ l.maxCodeLength - 1) :
    (tableAfter l b)[l.table.length]? = some (.bytes (p ++ [b])) := by
  simp [tableAfter, hp, hroom]

/-- R139: without a previous chunk nothing is appended. -/
theorem tableAfter_of_none {l : EngineL} (b : Byte) (h : l.lastChunk = none) : tableAfter l b = l.table := by
  rw [tableAfter, h]

/-- R139: to a full table nothing is appended. -/
theorem tableAfter_of_full {l : EngineL} (b : Byte) (h : l.table.length = 2 ^ l.maxCodeLength - 1) :
    tableAfter l b = l.table := by
  unfold tableAfter
  split
  · rw [if_neg h.not_lt]
  · rfl

/-- Settles O20: the step is an emitting one, and the table after it is `tableAfter`. -/
theorem emittingStepAppendsAtMostOneEntry : Obligations.EmittingStepAppendsAtMostOneEntry := by
  intro i s t chunk hi h hout hbound
  obtain ⟨b, hb, rfl⟩ := exec_code_emitted hi h hout
  exact ⟨tableAfter_length s.l b hbound, fun k hk => tableAfter_old s.l b hk,
    fun p hp hroom => ⟨b, hb, tableAfter_new b hp hroom⟩, rfl, rfl⟩

/-- R140: the growth test of an emitting step. -/
theorem widens_iff {l : EngineL} {b : Byte} :
    widens l b = true ↔ 2 ^ l.codeLength ≤ (tableAfter l b).length ∧ l.codeLength < l.maxCodeLength := by
  rw [widens, decide_eq_true_iff]

/-- R140: an emission that passes the growth test widens the codes and drops the rest of the group. -/
theorem EngineL.afterEmit_widens {l : EngineL} {b : Byte} (chunk : Bytes) (h : widens l b = true) :
    l.afterEmit chunk b = { l with
      out := l.out ++ [chunk], table := tableAfter l b, codeLength := l.codeLength + 1
      gvalid := if l.seam = false then false else l.gvalid, lastChunk := some chunk } := by
  simp [EngineL.afterEmit, h]

/-- R140: an emission that fails it leaves the width and the group. -/
theorem EngineL.afterEmit_keepsWidth {l : EngineL} {b : Byte} (chunk : Bytes) (h : widens l b = false) :
    l.afterEmit chunk b =
      { l with out := l.out ++ [chunk], table := tableAfter l b, lastChunk := some chunk } := by
  simp [EngineL.afterEmit, h]

/-- Settles O21: the step is an emitting one, and `widens` is its growth test. -/
theorem widthGrowsWhenTheTableReachesIt : Obligations.WidthGrowsWhenTheTableReachesIt := by
  intro i s t chunk hi h hout
  obtain ⟨b, -, rfl⟩ := exec_code_emitted hi h hout
  refine ⟨fun hgrow => ?_, fun hkeep => ?_⟩
  · rw [State.afterEmit, EngineL.afterEmit_widens chunk (widens_iff.mpr hgrow)]
    exact ⟨rfl, fun hs => if_pos hs⟩
  · have hw : widens s.l b = false := Bool.eq_false_iff.mpr (mt widens_iff.mp hkeep)
    rw [State.afterEmit, EngineL.afterEmit_keepsWidth chunk hw]
    exact ⟨rfl, rfl⟩

/-! ### The largest code and the first code (R147, R148) -/

/-- R139 to R141: an emission that neither appends nor widens only emits and remembers. -/
theorem State.afterEmit_keepsTable {s : State} {b : Byte} (chunk : Bytes) (ht : tableAfter s.l b = s.l.table)
    (hw : ¬ (2 ^ s.l.codeLength ≤ s.l.table.length ∧ s.l.codeLength < s.l.maxCodeLength)) :
    s.afterEmit chunk b = { s with
      l := { s.l with out := s.l.out ++ [chunk], lastChunk := some chunk }, reply := .chunk chunk } := by
  have hkeep : widens s.l b = false := Bool.eq_false_iff.mpr (mt widens_iff.mp (ht.symm ▸ hw))
  rw [State.afterEmit, EngineL.afterEmit_keepsWidth chunk hkeep, ht]

/-- Settles O22: a full table is longer than 256 entries, so the code of its length is not `CLR` but `KWK`, and no code of the
width lies above it; the emission can neither append nor widen. -/
theorem kwkWithAFullTableGrowsTheChunk : Obligations.KwkWithAFullTableGrowsTheChunk := by
  intro s b rest hr hl hfull hwidth hmax
  have hbig : 2 ^ 9 ≤ 2 ^ s.l.maxCodeLength := Nat.pow_le_pow_right (by decide) hmax
  have hmin : (if s.l.blockMode then 257 else 256) ≤ s.l.table.length := by split <;> omega
  have classes := everyCodeHasExactlyTheClassOfItsRow s.l.blockMode s.l.table.length
  refine ⟨?_, ?_, fun c d hc hbad => ?_⟩
  · obtain ⟨-, kwk, -⟩ := classes (2 ^ s.l.maxCodeLength - 1) hmin
    rw [decodeCode, kwk.mpr hfull.symm]
    rfl
  · rw [(kwkRepeatsTheFirstByteOrRaises s _ hr).1 b rest hl,
      State.afterEmit_keepsTable _ (tableAfter_of_full b hfull) fun hgrow => hgrow.2.ne hwidth]
  · obtain ⟨-, -, -, -, bad, -, same⟩ := classes c hmin
    have hclass : classify s.l.blockMode s.l.table.length c = .bad d := instr_eq_bad hbad
    obtain rfl := same d (.inr (.inr hclass))
    have habove := bad.mp hclass
    rw [hwidth] at hc
    omega

/-- Settles O23: the table is the initial one, so `T0` is its length and each clause is a row of R85; without a previous chunk
an emission appends nothing, and below its width the table does not widen the codes. -/
theorem firstCodeIsALiteralOrAClear : Obligations.FirstCodeIsALiteralOrAClear := by
  intro s c hi hr hl
  have hok := hi.runL hr
  have hlen : s.l.table.length = if s.l.blockMode then 257 else 256 := by rw [hok.first hl, initialTable_length]
  rw [← hlen]
  have classes := everyCodeHasExactlyTheClassOfItsRow s.l.blockMode s.l.table.length
  obtain ⟨-, kwk, lit, -, bad, -⟩ := classes c hlen.ge
  refine ⟨fun hc => ?_, fun hb => ?_, fun hc => ?_, fun hc => ?_⟩
  · rw [decodeCode, lit.mpr hc]
    exact (litEmitsItsByte s _ hr).trans (congrArg _ (State.afterEmit_keepsTable _ (tableAfter_of_none _ hl)
      fun hgrow => hok.belowWidth.not_ge hgrow.1))
  · rw [decodeCode, (classes 256 hlen.ge).1.mpr ⟨hb, rfl⟩]
    rfl
  · rw [decodeCode, kwk.mpr hc]
    exact (kwkRepeatsTheFirstByteOrRaises s c hr).2 hl
  · rw [decodeCode, bad.mpr hc]
    exact (badRaisesCodeOutOfRange s c hr).1

/-! ### The end of the payload (R142) -/

/-- R132: an exhausted read ends the sequence, in the state that the reader leaves. -/
theorem stepL_exhausted {l l' : EngineL} (h : l.nextCode = (l', .exhausted)) : stepL l = .next (l'.finish, .ended) := by
  rw [stepL, h]

/-- Settles O24: the step is `L.Step()`, whose read of a code is exhausted at its fill. -/
theorem lzwEndsAtAGroupBoundary : Obligations.LzwEndsAtAGroupBoundary := by
  intro s s' hp hr hs h1 hend hb
  have hn := EngineL.nextCode_exhausted hs h1 (EngineL.needsFill_of_boundary hb) hend.ge
  rw [step_pullL_running hp hr, stepL_exhausted hn]
  rfl

end Sys2Proof.Machine
end

section
/-! PROOFS. The CanonicalTreeBuilder (spec/42_tree_builder.md): a slot on the whole machine (R166), the order of the checks
(R173), which level tables are accepted (R162, R171, R172), and the assembly against the closed form (R165, R167). -/

namespace Sys2Proof.Machine

/-! ### A slot on the whole machine (R166) -/

/-- R166: the leaf a slot stands for; a placeholder stands for none. -/
def leafOfSlot : Slot → Option Tree
  | .placeholder => none
  | .leaf b => some (.leaf b)
  | .eof => some .eof

theorem Builder.attachSlot_leaf (b : Builder) {k : Slot} {t : Tree} (h : leafOfSlot k = some t) :
    b.attachSlot k = b.attachLeaf t := by
  cases k with
  | placeholder => cases h
  | leaf v | eof => cases h; rfl

theorem State.runSlot_open {s : State} {top : OpenNode} {rest : List OpenNode} (hs : s.h.builder.stack = top :: rest)
    (k : Slot) : s.runSlot k = .next (s.setH { s.h with builder := s.h.builder.attachSlot k }) := by
  rw [State.runSlot, hs]

/-- Settles O31: an instruction that attaches a leaf is a slot that stands for one, and the open node has a first child
or none. -/
theorem slotsAttachToTheOpenNode : Obligations.SlotsAttachToTheOpenNode := by
  intro s top rest hs
  refine ⟨?_, fun i leaf hi => ?_⟩
  · rw [show Instr.slotPlaceholder = decodeSlot .placeholder from rfl, exec_slot, State.runSlot_open hs, Builder.attachSlot,
      Builder.openChild, hs]
    rfl
  · obtain ⟨k, rfl, hk⟩ : ∃ k, i = decodeSlot k ∧ leafOfSlot k = some leaf := by
      rcases hi with ⟨b, rfl, rfl⟩ | ⟨rfl, rfl⟩
      · exact ⟨.leaf b, rfl, rfl⟩
      · exact ⟨.eof, rfl, rfl⟩
    obtain ⟨level, left⟩ := top
    rw [exec_slot, State.runSlot_open hs, Builder.attachSlot_leaf _ hk, Builder.attachLeaf, hs]
    refine ⟨?_, ?_⟩
    · rintro ⟨⟩
      rfl
    · rintro first ⟨⟩
      rfl

/-! ### The size bounds (R173) -/

theorem within_iff {bound : Option Nat} {n : Nat} : Config.within bound n = true ↔ ∀ m, bound = some m → n ≤ m := by
  cases bound <;> simp [Config.within]

theorem levelsFit_iff {maxLevels maxLeaves : Option Nat} {levels : List Level} :
    levelsFit maxLevels maxLeaves levels = true ↔ (∀ m, maxLevels = some m → levels.length ≤ m) ∧
      ∀ lv ∈ levels, ∀ m, maxLeaves = some m → lv.leaves.length ≤ m := by
  simp only [levelsFit, Bool.and_eq_true, List.all_eq_true, within_iff]

/-- Settles O41: `treeOrCause` tests the bounds first, and a bound that is fixed and passed fails that test. -/
theorem sizeBoundIsCheckedBeforeTheCounts : Obligations.SizeBoundIsCheckedBeforeTheCounts := by
  refine fun reading maxLevels maxLeaves levels => ⟨fun h => if_neg fun hf => ?_,
    fun hlevels hleaves => if_pos (levelsFit_iff.mpr ⟨hlevels, fun lv hlv m hm => hleaves m hm lv hlv⟩)⟩
  obtain ⟨fitLevels, fitLeaves⟩ := levelsFit_iff.mp hf
  rcases h with ⟨m, hm, habove⟩ | ⟨m, hm, lv, hlv, habove⟩
  · exact habove.not_ge (fitLevels m hm)
  · exact habove.not_ge (fitLeaves lv hlv m hm)

/-! ### The slot lists of an accepted level table (R163, R164) -/

/-- R163, R164: slot lists that fill a level table. Each list but the last begins with its placeholders, and the list after
it has two slots for each of them. -/
inductive Filled : List Level → List (List Slot) → Prop
  | last (lv : Level) : Filled [lv] [leafSlots lv ++ [.eof]]
  | deeper (p : Nat) (lv : Level) {levels : List Level} {slots : List Slot} {deeper : List (List Slot)}
      (hp : slots.length = 2 * p) (h : Filled levels (slots :: deeper)) :
      Filled (lv :: levels) ((List.replicate p .placeholder ++ leafSlots lv) :: slots :: deeper)

theorem exists_slotLists_cons {levels : List Level} (h : levels ≠ []) (c : Int) :
    ∃ slots deeper, slotLists c levels = slots :: deeper :=
  List.exists_cons_of_ne_nil fun hs => h (List.length_eq_zero_iff.mp (by rw [← slotLists_length levels c, hs]; rfl))

/-- R164: a table that counts to one is filled by its slot lists. -/
theorem slotLists_filled {levels : List Level} (hne : levels ≠ []) :
    ∀ {c : Int}, countAfter c levels = 1 → Filled levels (slotLists c levels) := by
  induction levels with
  | nil => exact absurd rfl hne
  | cons lv rest ih =>
    intro c h
    cases rest with
    | nil => exact .last lv
    | cons next more =>
      rw [countAfter_cons] at h
      obtain ⟨slots, deeper, hs⟩ := exists_slotLists_cons (List.cons_ne_nil next more) (nextCount c lv)
      have hlen := slotLists_head_length h hs
      rw [slotLists_cons, placeholders, hs]
      exact .deeper _ lv (by omega) (hs ▸ ih (List.cons_ne_nil _ _) h)

/-- The root as the one slot of a level above the table, which has no leaves. -/
def rootedSlots (levels : List Level) : List (List Slot) := [.placeholder] :: slotLists 1 levels

theorem rootedSlots_filled {levels : List Level} (hne : levels ≠ []) (h : countAfter 1 levels = 1) :
    Filled (⟨[]⟩ :: levels) (rootedSlots levels) := by
  obtain ⟨slots, deeper, hs⟩ := exists_slotLists_cons hne 1
  have hlen := slotLists_head_length h hs
  have hf := slotLists_filled hne h
  rw [hs] at hf
  rw [rootedSlots, hs]
  exact .deeper 1 ⟨[]⟩ (by omega) hf

theorem placeholders_first {p j : Nat} (leaves : List Slot) (hj : j < p) :
    (List.replicate p Slot.placeholder ++ leaves)[j]? = some .placeholder := by
  rw [List.getElem?_append_left (by simpa using hj), List.getElem?_replicate_of_lt hj]

/-- R163: in a list of an accepted table the placeholders stand first. -/
theorem Filled.placeholder_iff {levels : List Level} {slots : List Slot} {deeper : List (List Slot)}
    (hf : Filled levels (slots :: deeper)) {j : Nat} :
    slots[j]? = some .placeholder ↔ j < slots.count .placeholder := by
  have hleaf : ∀ lv, Slot.placeholder ∉ leafSlots lv := by simp [leafSlots]
  cases hf with
  | last lv =>
    have hno : Slot.placeholder ∉ leafSlots lv ++ [.eof] := by simp [hleaf]
    rw [List.count_eq_zero.mpr hno]
    exact iff_of_false (fun h => hno (List.mem_of_getElem? h)) (Nat.not_lt_zero j)
  | deeper p lv hp h =>
    rw [List.count_append, List.count_replicate_self, List.count_eq_zero.mpr (hleaf lv), Nat.add_zero]
    rcases Nat.lt_or_ge j p with hj | hj
    · exact iff_of_true (placeholders_first _ hj) hj
    · rw [List.getElem?_append_right (by simpa using hj)]
      exact iff_of_false (fun h => hleaf lv (List.mem_of_getElem? h)) hj.not_gt

/-- R163: below a list with placeholders the next list has two slots for each of them. -/
theorem Filled.next {levels : List Level} {slots : List Slot} {deeper : List (List Slot)}
    (hf : Filled levels (slots :: deeper)) {j : Nat} (hj : j < slots.count .placeholder) :
    ∃ next more rest, deeper = next :: more ∧ Filled rest (next :: more) ∧
      next.length = 2 * slots.count .placeholder := by
  cases hf with
  | last lv => simp [leafSlots, List.count_eq_zero.mpr] at hj
  | deeper p lv hp h => exact ⟨_, _, _, rfl, h, by simp [hp, leafSlots, List.count_eq_zero.mpr]⟩

/-! ### The closed form (R167) -/

theorem closedTree_eq (levels : List Level) : closedTree levels = nodeAt (rootedSlots levels) 0 := rfl

/-- R167: a slot's node is the leaf it stands for, or has the nodes of two slots of the next list as its children. -/
theorem nodeAt_eq_some_iff {slots : List Slot} {deeper : List (List Slot)} {j : Nat} {t : Tree} :
    nodeAt (slots :: deeper) j = some t ↔
      (slots[j]? = some .placeholder ∧
        ∃ l r, nodeAt deeper (2 * j) = some l ∧ nodeAt deeper (2 * j + 1) = some r ∧ t = .node l r) ∨
      ∃ k, slots[j]? = some k ∧ leafOfSlot k = some t := by
  rw [nodeAt]
  cases slots[j]? with
  | none => simp
  | some k =>
    cases k with
    | placeholder => cases nodeAt deeper (2 * j) <;> cases nodeAt deeper (2 * j + 1) <;> simp [leafOfSlot, eq_comm]
    | leaf b | eof => simp [leafOfSlot]

theorem nodeAt_lt {slots : List Slot} {deeper : List (List Slot)} {j : Nat} {t : Tree}
    (h : nodeAt (slots :: deeper) j = some t) : j < slots.length := by
  rcases nodeAt_eq_some_iff.mp h with ⟨hk, -⟩ | ⟨k, hk, -⟩ <;> exact (List.getElem?_eq_some_iff.mp hk).1

/-- R166: the slots that are no placeholder are leaves. -/
theorem exists_leafOfSlot {k : Slot} (h : k ≠ .placeholder) : ∃ t, leafOfSlot k = some t := by
  cases k with
  | placeholder => exact absurd rfl h
  | leaf b => exact ⟨.leaf b, rfl⟩
  | eof => exact ⟨.eof, rfl⟩

/-- R163: every slot of an accepted table has a node. -/
theorem Filled.exists_nodeAt {levels : List Level} {slots : List Slot} {deeper : List (List Slot)} {j : Nat}
    (hf : Filled levels (slots :: deeper)) (hj : j < slots.length) : ∃ t, nodeAt (slots :: deeper) j = some t := by
  have hk := List.getElem?_eq_getElem hj
  by_cases hp : slots[j] = .placeholder
  · rw [hp] at hk
    have hcount := hf.placeholder_iff.mp hk
    obtain ⟨next, more, rest, rfl, hrest, hlen⟩ := hf.next hcount
    obtain ⟨l, hl⟩ := hrest.exists_nodeAt (j := 2 * j) (by omega)
    obtain ⟨r, hr⟩ := hrest.exists_nodeAt (j := 2 * j + 1) (by omega)
    exact ⟨.node l r, nodeAt_eq_some_iff.mpr (.inl ⟨hk, l, r, hl, hr, rfl⟩)⟩
  · obtain ⟨t, ht⟩ := exists_leafOfSlot hp
    exact ⟨t, nodeAt_eq_some_iff.mpr (.inr ⟨_, hk, ht⟩)⟩
termination_by deeper.length

/-- R167: placeholder `j` has the slots `2 * j` and `2 * j + 1` of the next list as its children. -/
theorem Filled.exists_children {levels : List Level} {slots : List Slot} {deeper : List (List Slot)} {p j : Nat}
    (h : Filled levels (slots :: deeper)) (hp : slots.length = 2 * p) (hj : j < p) (leaves : List Slot) :
    ∃ l r, nodeAt (slots :: deeper) (2 * j) = some l ∧ nodeAt (slots :: deeper) (2 * j + 1) = some r ∧
      nodeAt ((List.replicate p .placeholder ++ leaves) :: slots :: deeper) j = some (.node l r) := by
  obtain ⟨l, hl⟩ := h.exists_nodeAt (j := 2 * j) (by omega)
  obtain ⟨r, hr⟩ := h.exists_nodeAt (j := 2 * j + 1) (by omega)
  exact ⟨l, r, hl, hr, nodeAt_eq_some_iff.mpr (.inl ⟨placeholders_first leaves hj, l, r, hl, hr, rfl⟩)⟩

/-! ### Runs of the assembly (R165) -/

/-- R165: some number of slots, taken and attached, brings the one builder to the other. -/
def Builder.Reaches (b c : Builder) : Prop := ∃ n, b.after n = some c

theorem Builder.Reaches.slot {b b' : Builder} {k : Slot} (h : b.takeSlot = some (k, b')) : b.Reaches (b'.attachSlot k) :=
  ⟨1, Builder.after_snoc h 0 rfl⟩

theorem Builder.Reaches.trans {a b c : Builder} (hab : a.Reaches b) (hbc : b.Reaches c) : a.Reaches c := by
  obtain ⟨n, hn⟩ := hab
  obtain ⟨m, hm⟩ := hbc
  induction n generalizing a with
  | zero =>
    cases hn
    exact ⟨m, hm⟩
  | succ n ih =>
    rw [Builder.after] at hn
    split at hn
    · rename_i ht
      obtain ⟨p, hp⟩ := ih hn
      exact ⟨p + 1, by rw [Builder.after, ht]; exact hp⟩
    · cases hn

/-- The builder with its read positions, and with its stack and root, replaced. -/
def Builder.put (b : Builder) (cur : List Nat) (nodes : List OpenNode × Option Tree) : Builder :=
  { b with cur := cur, stack := nodes.1, built := nodes.2 }

/-- R165: a node of depth `before.length` takes the next slot of its list, and the list's read position moves. -/
theorem Builder.takeSlot_put {b : Builder} {before deeper : List (List Slot)} {slots : List Slot} {k : Slot} {j : Nat}
    {pre post : List Nat} (left : Option Tree) (rest : List OpenNode) (root : Option Tree)
    (hs : b.slots = before ++ slots :: deeper) (hpre : pre.length = before.length) (hk : slots[j]? = some k) :
    (b.put (pre ++ j :: post) (⟨before.length, left⟩ :: rest, root)).takeSlot =
      some (k, b.put (pre ++ (j + 1) :: post) (⟨before.length, left⟩ :: rest, root)) := by
  have hlist : b.slots.getD before.length [] = slots := by simp [hs]
  have hcur : (pre ++ j :: post).getD before.length 0 = j := by simp [← hpre]
  have hset : (pre ++ j :: post).set before.length (j + 1) = pre ++ (j + 1) :: post := by simp [← hpre]
  simp only [Builder.takeSlot, Builder.put, hlist, hcur, hset, hk]

/-- R165: the read positions of the lists from some depth on, once the sub-trees of the first `j` slots of that depth are
complete: below each placeholder among them, two slots are used. -/
def positions : List (List Slot) → Nat → List Nat
  | [], _ => []
  | slots :: deeper, j => j :: positions deeper (2 * min j (slots.count .placeholder))

theorem positions_zero (lists : List (List Slot)) : positions lists 0 = List.replicate lists.length 0 := by
  induction lists with
  | nil => rfl
  | cons slots deeper ih => simp [positions, ih, List.replicate_succ]

/-- R165: with a node of depth `before.length` open, and its list at slot `j`, the assembly completes the node of the closed
form and attaches it. -/
def Assembles (lists : List (List Slot)) : Prop :=
  ∀ {b : Builder} {before : List (List Slot)} {pre : List Nat} {j : Nat} {t : Tree}, b.reading = .canonical →
    b.slots = before ++ lists → pre.length = before.length → nodeAt lists j = some t →
    ∀ (left : Option Tree) (rest : List OpenNode) (root : Option Tree),
      (b.put (pre ++ positions lists j) (⟨before.length, left⟩ :: rest, root)).Reaches
        (b.put (pre ++ positions lists (j + 1)) (attachChild t (⟨before.length, left⟩ :: rest)))

/-- R165: a new open node takes its two children, and is then attached itself. -/
theorem Assembles.children {lists : List (List Slot)} (h : Assembles lists) {b : Builder} {before : List (List Slot)}
    {pre : List Nat} {j : Nat} {l r : Tree} (hc : b.reading = .canonical) (hs : b.slots = before ++ lists)
    (hpre : pre.length = before.length) (hl : nodeAt lists (2 * j) = some l) (hr : nodeAt lists (2 * j + 1) = some r)
    (rest : List OpenNode) (root : Option Tree) :
    (b.put (pre ++ positions lists (2 * j)) (⟨before.length, none⟩ :: rest, root)).Reaches
      (b.put (pre ++ positions lists (2 * (j + 1))) (attachChild (.node l r) rest)) :=
  (h hc hs hpre hl none rest root).trans (h hc hs hpre hr (some l) rest none)

/-- R165, R167: a placeholder opens a node that takes the slots `2 * j` and `2 * j + 1` of the next list, since those below
the placeholders before it are used; a leaf uses no slot of the next list. -/
theorem Filled.assembles_cons {levels : List Level} {slots : List Slot} {deeper : List (List Slot)}
    (hf : Filled levels (slots :: deeper)) (below : Assembles deeper) : Assembles (slots :: deeper) := by
  intro b before pre j t hc hs hpre ht left rest root
  rcases nodeAt_eq_some_iff.mp ht with ⟨hk, l, r, hl, hr, rfl⟩ | ⟨k, hk, hleaf⟩
  · have hj := hf.placeholder_iff.mp hk
    have taken := Builder.Reaches.slot (Builder.takeSlot_put (post := positions deeper (2 * j)) left rest root hs hpre hk)
    have children := below.children (before := before ++ [slots]) (pre := pre ++ [j + 1]) hc (by simp [hs]) (by simp [hpre])
      hl hr (⟨before.length, left⟩ :: rest) root
    have opened : ∀ cur, (b.put cur (⟨before.length, left⟩ :: rest, root)).attachSlot .placeholder =
        b.put cur (⟨before.length + 1, none⟩ :: ⟨before.length, left⟩ :: rest, root) := by
      intro cur
      simp only [Builder.attachSlot, Builder.openChild, Builder.put, childLevel, hc]
    rw [opened] at taken
    rw [List.length_append, List.length_singleton, List.append_assoc, List.append_assoc] at children
    rw [positions, positions, Nat.min_eq_left hj.le, Nat.min_eq_left hj]
    exact taken.trans children
  · have hj : slots.count .placeholder ≤ j := by
      by_contra hlt
      rw [hf.placeholder_iff.mpr (not_le.mp hlt)] at hk
      cases hk
      cases hleaf
    rw [positions, positions, Nat.min_eq_right hj, Nat.min_eq_right (by omega)]
    have taken := Builder.Reaches.slot (Builder.takeSlot_put
      (post := positions deeper (2 * slots.count .placeholder)) left rest root hs hpre hk)
    rwa [Builder.attachSlot_leaf _ hleaf] at taken

/-- R165: the slot lists of an accepted table assemble to the closed form. -/
theorem Filled.assembles {levels : List Level} {lists : List (List Slot)} (hf : Filled levels lists) : Assembles lists := by
  induction hf with
  | last lv => exact (Filled.last lv).assembles_cons fun _ _ _ ht => nomatch ht
  | deeper p lv hp h ih => exact (Filled.deeper p lv hp h).assembles_cons ih

/-- R165: the assembly starts with the root open and no slot taken, and ends with the root finished. -/
theorem Filled.begin_reaches {levels : List Level} {lists : List (List Slot)} (hf : Filled levels lists) (count : Int)
    {l r : Tree} (hl : nodeAt lists 0 = some l) (hr : nodeAt lists 1 = some r) :
    (Builder.begin .canonical count lists).Reaches
      ((Builder.begin .canonical count lists).put (positions lists 2) ([], some (.node l r))) := by
  have hstart : Builder.begin .canonical count lists =
      (Builder.begin .canonical count lists).put ([] ++ positions lists (2 * 0)) ([⟨0, none⟩], none) := by
    rw [Nat.mul_zero, positions_zero]
    rfl
  have run := Assembles.children hf.assembles (b := Builder.begin .canonical count lists) (before := []) (pre := []) (j := 0)
    rfl rfl rfl hl hr [] none
  rwa [List.length_nil, ← hstart] at run

/-! ### The accepted tables and their trees (R162, R167) -/

/-- R162, R172: what the builder accepts has levels, and counts to one. -/
theorem accepted_of_readyCanonical {levels : List Level} {b : Builder} (h : readyCanonical levels = some b) :
    levels ≠ [] ∧ countAfter 1 levels = 1 := by
  unfold readyCanonical at h
  split at h
  · cases h
  · rename_i hne
    split at h
    · exact ⟨hne, ‹_›⟩
    · cases h

theorem accepted_of_buildTree {levels : List Level} {t : Tree} (h : buildTree .canonical levels = some t) :
    levels ≠ [] ∧ countAfter 1 levels = 1 := by
  obtain ⟨b, hb, -⟩ := Option.bind_eq_some_iff.mp h
  exact accepted_of_readyCanonical hb

/-- R165, R167: a table that counts to one has a tree in closed form, and the assembly builds it. -/
theorem exists_closedTree_buildTree {levels : List Level} (hne : levels ≠ []) (hc : countAfter 1 levels = 1) :
    ∃ t, closedTree levels = some t ∧ buildTree .canonical levels = some t := by
  obtain ⟨t, ht⟩ := (rootedSlots_filled hne hc).exists_nodeAt (j := 0) Nat.one_pos
  refine ⟨t, ht, ?_⟩
  obtain ⟨-, l, r, hl, hr, rfl⟩ | ⟨k, ⟨⟩, ⟨⟩⟩ := nodeAt_eq_some_iff.mp ht
  obtain ⟨n, hn⟩ := (slotLists_filled hne hc).begin_reaches (countAfter 1 levels) hl hr
  have hready : readyBuilder .canonical levels =
      some (Builder.begin .canonical (countAfter 1 levels) (slotLists 1 levels)) := by
    rw [readyBuilder, readyCanonical, if_neg hne, if_pos hc]
  exact Builder.assembling.buildTree ⟨n, _, hready, hn⟩ rfl rfl

/-- Settles O32: acceptance is the test of the counts, for a table that passes it is built. -/
theorem builderAcceptsExactlyTheTablesThatCountToOne : Obligations.BuilderAcceptsExactlyTheTablesThatCountToOne :=
  fun _ => ⟨fun ⟨_, ht⟩ => accepted_of_buildTree ht, fun ⟨hne, hc⟩ =>
    have ⟨t, _, ht⟩ := exists_closedTree_buildTree hne hc
    ⟨t, ht⟩⟩

/-- Settles O33: an accepted table's closed form exists, and is what the assembly builds. -/
theorem assemblyBuildsTheClosedFormTree : Obligations.AssemblyBuildsTheClosedFormTree := by
  intro levels t ht
  obtain ⟨hne, hc⟩ := accepted_of_buildTree ht
  obtain ⟨u, hclosed, hu⟩ := exists_closedTree_buildTree hne hc
  rw [hclosed, ← hu, ht]

end Sys2Proof.Machine
end

section
/-! PROOFS. The properties of a built tree (spec/42_tree_builder.md): its leaves are counted over the slot lists (R169), and
a path is followed down them (R170). -/

namespace Sys2Proof.Machine

/-! ### Counting leaves (R169) -/

/-- A count over trees that adds up over the children, and counts `a` for a byte's leaf and 1 for the EOF leaf. -/
structure Additive (w : Tree → Nat) (a : Nat) : Prop where
  leaf : ∀ b, w (.leaf b) = a
  eof : w .eof = 1
  node : ∀ l r, w (.node l r) = w l + w r

/-- The count of the node of a slot, 0 for a slot without one. -/
def weightAt (w : Tree → Nat) (lists : List (List Slot)) (j : Nat) : Nat := (nodeAt lists j).elim 0 w

theorem weightAt_of_nodeAt (w : Tree → Nat) {lists : List (List Slot)} {j : Nat} {t : Tree} (h : nodeAt lists j = some t) :
    weightAt w lists j = w t := by
  rw [weightAt, h]
  rfl

theorem sum_range_pairs (f : Nat → Nat) (p : Nat) :
    ∑ j ∈ Finset.range (2 * p), f j = ∑ j ∈ Finset.range p, (f (2 * j) + f (2 * j + 1)) := by
  induction p with
  | zero => rfl
  | succ p ih =>
    rw [Nat.mul_succ, Finset.sum_range_succ, Finset.sum_range_succ, Finset.sum_range_succ, ih, Nat.add_assoc]

/-- R163: behind its first `p` slots, the byte leaves of a list count `a` each. -/
theorem sum_weightAt_leafSlots {w : Tree → Nat} {a p : Nat} (hw : Additive w a) {slots : List Slot} {lv : Level}
    (deeper : List (List Slot)) (h : ∀ j < lv.leaves.length, slots[p + j]? = (leafSlots lv)[j]?) :
    ∑ j ∈ Finset.range lv.leaves.length, weightAt w (slots :: deeper) (p + j) = a * lv.leaves.length := by
  have each : ∀ j ∈ Finset.range lv.leaves.length, weightAt w (slots :: deeper) (p + j) = a := by
    intro j hj
    have hj := Finset.mem_range.mp hj
    have hk : slots[p + j]? = some (.leaf lv.leaves[j]) := by rw [h j hj, leafSlots]; simp [hj]
    rw [weightAt_of_nodeAt w (nodeAt_eq_some_iff.mpr (.inr ⟨_, hk, rfl⟩)), hw.leaf]
  rw [Finset.sum_congr rfl each, Finset.sum_const, Finset.card_range, smul_eq_mul, Nat.mul_comm]

/-- R169 (e): the nodes of a list count `a` for each leaf of its level and the deeper ones, and 1 for the EOF leaf. -/
theorem Filled.sum_weightAt {w : Tree → Nat} {a : Nat} (hw : Additive w a) {levels : List Level}
    {lists : List (List Slot)} (hf : Filled levels lists) :
    ∑ j ∈ Finset.range (lists.headD []).length, weightAt w lists j = a * leavesOf levels + 1 := by
  induction hf with
  | last lv =>
    have heof : (leafSlots lv ++ [Slot.eof])[lv.leaves.length]? = some .eof := by simp [leafSlots]
    have hsum := sum_weightAt_leafSlots (p := 0) hw (slots := leafSlots lv ++ [.eof]) (lv := lv) [] fun j hj => by
      rw [Nat.zero_add, List.getElem?_append_left (by rwa [leafSlots_length])]
    simp only [Nat.zero_add] at hsum
    rw [List.headD_cons, List.length_append, leafSlots_length, List.length_singleton, Finset.sum_range_succ, hsum,
      weightAt_of_nodeAt w (nodeAt_eq_some_iff.mpr (.inr ⟨_, heof, rfl⟩)), hw.eof, leavesOf]
    simp
  | @deeper p lv levels slots deeper hp h ih =>
    have pairs : ∀ j ∈ Finset.range p, weightAt w ((List.replicate p .placeholder ++ leafSlots lv) :: slots :: deeper) j =
        weightAt w (slots :: deeper) (2 * j) + weightAt w (slots :: deeper) (2 * j + 1) := by
      intro j hj
      obtain ⟨l, r, hl, hr, hnode⟩ := h.exists_children hp (Finset.mem_range.mp hj) (leafSlots lv)
      rw [weightAt_of_nodeAt w hl, weightAt_of_nodeAt w hr, ← hw.node, weightAt_of_nodeAt w hnode]
    have leaves := sum_weightAt_leafSlots (p := p) hw (slots := List.replicate p .placeholder ++ leafSlots lv) (lv := lv)
      (slots :: deeper) fun j _ => by rw [List.getElem?_append_right (by simp)]; simp
    rw [List.headD_cons, hp, sum_range_pairs, ← Finset.sum_congr rfl pairs] at ih
    rw [List.headD_cons, List.length_append, List.length_replicate, leafSlots_length, Finset.sum_range_add, leaves, ih]
    simp only [leavesOf, List.map_cons, List.sum_cons]
    ring

/-- R169 (e): the root is the one node above the table, so the count of the tree is that of its table. -/
theorem Additive.buildTree {w : Tree → Nat} {a : Nat} (hw : Additive w a) {levels : List Level} {t : Tree}
    (ht : buildTree .canonical levels = some t) : w t = a * leavesOf levels + 1 := by
  obtain ⟨hne, hc⟩ := accepted_of_buildTree ht
  have hroot : nodeAt (rootedSlots levels) 0 = some t := assemblyBuildsTheClosedFormTree levels t ht
  have hleaves : leavesOf (⟨[]⟩ :: levels) = leavesOf levels := by simp [leavesOf]
  have hsum := (rootedSlots_filled hne hc).sum_weightAt hw
  have hone : ((rootedSlots levels).headD []).length = 1 := rfl
  rwa [hone, Finset.sum_range_one, weightAt_of_nodeAt w hroot, hleaves] at hsum

/-- Settles O34: both counts are additive, a byte's leaf counting 0 among the EOF leaves and 1 among the leaves. -/
theorem builtTreeHasOneEofLeaf : Obligations.BuiltTreeHasOneEofLeaf := by
  intro levels t ht
  have eofs : Additive Tree.eofCount 0 := ⟨fun _ => rfl, rfl, fun _ _ => rfl⟩
  have leaves : Additive leafCount 1 := ⟨fun _ => rfl, rfl, fun _ _ => rfl⟩
  exact ⟨buildTree_internal ht, by simpa using eofs.buildTree ht, by simpa using leaves.buildTree ht⟩

/-! ### The path to a slot (R170) -/

/-- R166: the node is of the kind that the slot stands for. -/
def IsNodeOf : Slot → Tree → Prop
  | .placeholder, n => n.isInternal = true
  | .leaf b, n => n = .leaf b
  | .eof, n => n = .eof

theorem isNodeOf_of_nodeAt {slots : List Slot} {deeper : List (List Slot)} {j : Nat} {k : Slot} {n : Tree}
    (hk : slots[j]? = some k) (hn : nodeAt (slots :: deeper) j = some n) : IsNodeOf k n := by
  rcases nodeAt_eq_some_iff.mp hn with ⟨hp, l, r, -, -, rfl⟩ | ⟨k', hk', hleaf⟩
  · cases hk.symm.trans hp
    rfl
  · cases hk.symm.trans hk'
    cases k with
    | placeholder => cases hleaf
    | leaf b | eof => cases hleaf; rfl

/-- R170: the numeral of `j` in `i` bits leads to slot `j` of list `i` from the node of slot `j / 2 ^ i` of the first list. -/
theorem Filled.follow_numeral {i : Nat} : ∀ {levels : List Level} {lists : List (List Slot)} {j : Nat} {slots : List Slot}
    {k : Slot}, Filled levels lists → lists[i]? = some slots → slots[j]? = some k →
    ∃ t n, nodeAt lists (j / 2 ^ i) = some t ∧ Tree.follow t (numeral i j) = some n ∧ IsNodeOf k n := by
  induction i with
  | zero =>
    intro levels lists j slots k hf hs hk
    obtain ⟨deeper, rfl⟩ : ∃ deeper, lists = slots :: deeper := by
      cases lists with
      | nil => cases hs
      | cons head deeper => exact ⟨deeper, by simpa using hs⟩
    obtain ⟨t, ht⟩ := hf.exists_nodeAt (List.getElem?_eq_some_iff.mp hk).1
    exact ⟨t, t, by rwa [Nat.pow_zero, Nat.div_one], by simp [numeral, Tree.follow], isNodeOf_of_nodeAt hk ht⟩
  | succ i ih =>
    intro levels lists j slots k hf hs hk
    cases hf with
    | last lv => simp at hs
    | @deeper p lv levels next more hp h =>
      obtain ⟨t, n, ht, hn, hkind⟩ := ih h (by simpa using hs) hk
      have hlt := nodeAt_lt ht
      have hhalf : j / 2 ^ (i + 1) = j / 2 ^ i / 2 := by rw [Nat.pow_succ, Nat.div_div_eq_div_mul]
      rw [hhalf, numeral]
      generalize j / 2 ^ i = q at ht hlt
      obtain ⟨l, r, hl, hr, hnode⟩ := h.exists_children hp (j := q / 2) (by omega) (leafSlots lv)
      refine ⟨.node l r, n, hnode, ?_, hkind⟩
      rcases Nat.mod_two_eq_zero_or_one q with hq | hq
      · rw [show 2 * (q / 2) = q by omega, ht] at hl
        cases hl
        simpa [Tree.follow, hq] using hn
      · rw [show 2 * (q / 2) + 1 = q by omega, ht] at hr
        cases hr
        simpa [Tree.follow, hq] using hn

/-- Settles O35: above the table stands the root alone, so the numeral of a slot leads to it from the root. -/
theorem leafPathsAreTheNumeralsOfTheirSlots : Obligations.LeafPathsAreTheNumeralsOfTheirSlots := by
  intro levels t i j slots k ht hs hk
  obtain ⟨hne, hc⟩ := accepted_of_buildTree ht
  have hroot := assemblyBuildsTheClosedFormTree levels t ht
  obtain ⟨u, n, hu, hn, hkind⟩ := (rootedSlots_filled hne hc).follow_numeral (i := i + 1) hs hk
  have hzero : j / 2 ^ (i + 1) = 0 := Nat.lt_one_iff.mp (nodeAt_lt hu)
  rw [hzero, ← closedTree_eq, hroot] at hu
  cases hu
  refine ⟨n, hn, ?_⟩
  cases k <;> simpa [IsNodeOf] using hkind

end Sys2Proof.Machine
end

section
/-! PROOFS. The literal reading of the level table (spec/42_tree_builder.md R175): the balance of slots and child positions
that an assembly keeps. -/

namespace Sys2Proof.Machine

/-! ### The literal reading (R175) -/

/-- What each slot keeps, the assembly keeps; and it ends with no node open. -/
theorem Builder.assemble_keeps {P : Builder → Prop}
    (keeps : ∀ {b b' : Builder} {k : Slot}, P b → b.takeSlot = some (k, b') → P (b'.attachSlot k)) (n : Nat) :
    ∀ {b c : Builder}, P b → b.assemble n = some c → P c ∧ c.stack = [] := by
  induction n with
  | zero =>
    intro b c h hc
    rw [Builder.assemble] at hc
    split at hc <;> cases hc
    exact ⟨h, ‹_›⟩
  | succ n ih =>
    intro b c h hc
    cases hs : b.stack with
    | nil =>
      rw [Builder.assemble_done _ hs] at hc
      cases hc
      exact ⟨h, hs⟩
    | cons top rest =>
      cases ht : b.takeSlot with
      | none => simp [Builder.assemble, hs, ht] at hc
      | some p =>
        rw [Builder.assemble_step n ht] at hc
        exact ih (keeps h ht) hc

/-- R165: the child positions still without a slot. Each open node lacks its second child, or both, but the one that an open
node above it stands in. -/
def vacant : List OpenNode → Nat
  | [] => 0
  | top :: rest => 1 + (top :: rest).countP (·.left.isNone)

theorem vacant_attachChild (stack : List OpenNode) : ∀ t : Tree, stack ≠ [] →
    vacant (attachChild t stack).1 + 1 = vacant stack := by
  induction stack with
  | nil => exact fun _ h => absurd rfl h
  | cons top rest ih =>
    intro t _
    obtain ⟨level, left⟩ := top
    cases left with
    | none =>
      rw [attachChild_first, vacant, vacant, List.countP_cons_of_neg (by simp), List.countP_cons_of_pos rfl]
      omega
    | some l =>
      rw [attachChild_second]
      cases rest with
      | nil => rfl
      | cons next more => rw [ih _ (List.cons_ne_nil _ _)]; simp [vacant]

theorem attachChild_levels {level : Nat} (stack : List OpenNode) : ∀ t : Tree, (∀ n ∈ stack, n.level = level) →
    ∀ n ∈ (attachChild t stack).1, n.level = level := by
  induction stack with
  | nil => exact fun _ _ _ hn => nomatch hn
  | cons top rest ih =>
    intro t h
    obtain ⟨htop, hrest⟩ := List.forall_mem_cons.mp h
    obtain ⟨l, left⟩ := top
    cases left with
    | none => exact List.forall_mem_cons.mpr ⟨htop, hrest⟩
    | some first => exact ih _ hrest

/-- R175: the balance of slots and child positions. Every node takes its slots from the one stream, the root offers two
positions, each placeholder taken offers two more, and each slot taken fills one. -/
structure Builder.Balanced (stream : List Slot) (b : Builder) : Prop where
  reading : b.reading = .literal
  slots : b.slots = [stream]
  levels : ∀ n ∈ b.stack, n.level = 0
  taken : ∃ m, b.cur = [m] ∧ m + vacant b.stack = 2 + 2 * (stream.take m).count .placeholder

theorem Builder.begin_balanced (count : Int) (stream : List Slot) :
    (Builder.begin .literal count [stream]).Balanced stream :=
  ⟨rfl, rfl, by simp [Builder.begin], 0, rfl, by simp [Builder.begin, vacant]⟩

theorem Builder.Balanced.attach {stream : List Slot} {b b' : Builder} {k : Slot} (h : b.Balanced stream)
    (ht : b.takeSlot = some (k, b')) : (b'.attachSlot k).Balanced stream := by
  obtain ⟨top, rest, hs, hk, rfl⟩ := Builder.takeSlot_some ht
  obtain ⟨hreading, hslots, hlevels, m, hcur, hm⟩ := h
  have htop : top.level = 0 := hlevels top (hs ▸ List.mem_cons_self)
  rw [htop, hslots, hcur] at hk
  have hk : stream[m]? = some k := hk
  have hcount : (stream.take (m + 1)).count .placeholder =
      (stream.take m).count .placeholder + [k].count .placeholder := by
    rw [List.take_add_one, hk, List.count_append]
    rfl
  have hcur' : b.cur.set top.level (b.cur.getD top.level 0 + 1) = [m + 1] := by rw [htop, hcur]; rfl
  rw [hcur']
  by_cases hp : k = .placeholder
  · subst hp
    have hopen : ∀ cur, ({ b with cur := cur } : Builder).attachSlot .placeholder =
        { b with cur := cur, stack := ⟨0, none⟩ :: b.stack } := by
      intro cur
      simp [Builder.attachSlot, Builder.openChild, hs, childLevel, hreading, htop]
    rw [hopen]
    refine ⟨hreading, hslots, List.forall_mem_cons.mpr ⟨rfl, hlevels⟩, m + 1, rfl, ?_⟩
    have hvacant : vacant (⟨0, none⟩ :: b.stack) = vacant b.stack + 1 := by
      rw [hs, vacant, vacant, List.countP_cons_of_pos rfl, Nat.add_assoc]
    rw [hcount, List.count_singleton_self, hvacant]
    omega
  · obtain ⟨t, hleaf⟩ := exists_leafOfSlot hp
    rw [Builder.attachSlot_leaf _ hleaf]
    have hfilled := vacant_attachChild b.stack t (by simp [hs])
    refine ⟨hreading, hslots, attachChild_levels _ t hlevels, m + 1, rfl, ?_⟩
    have hnone : [k].count .placeholder = 0 := List.count_eq_zero.mpr (by simpa using Ne.symm hp)
    rw [hcount, hnone]
    simp only [Builder.attachLeaf]
    omega

theorem literalStream_cons (n : Int) (lv : Level) {rest : List Level} (h : rest ≠ []) :
    literalStream n (lv :: rest) = (placeholders n ++ leafSlots lv ++ (literalStream (nextCount n lv) rest).1,
      (literalStream (nextCount n lv) rest).2) := by
  cases rest with
  | nil => exact absurd rfl h
  | cons next more => rfl

/-- R175: the count at the last level is taken before its leaves. -/
theorem literalStream_count (levels : List Level) (last : Level) : ∀ n : Int,
    (literalStream n (levels ++ [last])).2 = countAfter n levels := by
  induction levels with
  | nil => exact fun _ => rfl
  | cons lv rest ih =>
    intro n
    rw [List.cons_append, literalStream_cons n lv (by simp), ih, countAfter_cons]

/-- R175: a stream whose count at the last level is 1 has, besides two slots for each placeholder, those of the last level's
leaves and as many as its first count. -/
theorem literalStream_length {levels : List Level} (last : Level) : ∀ {n : Int}, countAfter n levels = 1 →
    ((literalStream n (levels ++ [last])).1.length : Int) =
      2 * (literalStream n (levels ++ [last])).1.count .placeholder + last.leaves.length + n := by
  have hleaf : ∀ lv, (leafSlots lv).count .placeholder = 0 := fun lv =>
    List.count_eq_zero.mpr (by simp [leafSlots])
  induction levels with
  | nil =>
    intro n h
    rw [countAfter_nil] at h
    simp [literalStream, hleaf, leafSlots_length, h]
  | cons lv rest ih =>
    intro n h
    have hpos := countAfter_pos h
    rw [countAfter_cons] at h
    have hrest := ih h
    rw [List.cons_append, literalStream_cons n lv (by simp)]
    simp only [List.length_append, List.count_append, List.length_replicate, leafSlots_length, hleaf, placeholders,
      List.count_replicate_self]
    unfold nextCount at hrest ⊢
    omega

/-- R175: the literal reading checks the count at the last level. -/
theorem readyLiteral_begin {levels : List Level} {last : Level} {b : Builder}
    (h : readyLiteral (levels ++ [last]) = some b) : countAfter 1 levels = 1 ∧
      ∃ count, b = Builder.begin .literal count [(literalStream 1 (levels ++ [last])).1] := by
  unfold readyLiteral at h
  split at h
  · cases h
  · rename_i hcheck
    cases h
    exact ⟨by simpa [literalStream_count] using hcheck, _, rfl⟩

/-- R175: a literal assembly that gives a tree has used its whole stream. -/
theorem Builder.Balanced.root_length {stream : List Slot} {b : Builder} {t : Tree} (h : b.Balanced stream)
    (hs : b.stack = []) (ht : b.root = some t) : stream.length = 2 + 2 * stream.count .placeholder := by
  obtain ⟨hreading, hslots, -, m, hcur, hm⟩ := h
  have hused : b.usedUp = true := by
    by_contra hno
    simp [Builder.root, hreading, hno] at ht
  have hall : m = stream.length := by simpa [Builder.usedUp, hslots, hcur] using hused
  rwa [hs, hall, List.take_length] at hm

/-- Settles O36: a tree uses two slots for its root and two for each placeholder, and such a stream holds just the slots that
its placeholders, its last level's leaves and its first count, 1, come to. -/
theorem literalReadingNeedsOneLastLeaf : Obligations.LiteralReadingNeedsOneLastLeaf := by
  intro levels last t ht
  obtain ⟨b, hb, ht⟩ := Option.bind_eq_some_iff.mp ht
  obtain ⟨c, hc, hroot⟩ := Option.bind_eq_some_iff.mp ht
  obtain ⟨hcount, n, rfl⟩ := readyLiteral_begin hb
  obtain ⟨balanced, hs⟩ := Builder.assemble_keeps Builder.Balanced.attach _ (Builder.begin_balanced n _) hc
  have hused := balanced.root_length hs hroot
  have hlength := literalStream_length last hcount
  omega

end Sys2Proof.Machine
end

section
/-! PROOFS. The HuffmanBitDecoder (spec/43_huffman_decoder.md): one bit on the whole machine (R183 to R187), and what a
decode comes to when the payload's bits are paths of the tree (R188). -/

namespace Sys2Proof.Machine

/-! ### One bit on the whole machine (R183 to R187) -/

/-- Settles O26: the bit arrives at the child it selects, and the three kinds of child are the three arrivals. -/
theorem huffmanBitDescendsEmitsOrEnds : Obligations.HuffmanBitDescendsEmitsOrEnds := by
  intro s lt rt bit hr hn
  have hx : exec (decodeBit bit) s = s.answerH (arrive (if bit then rt else lt) s.h) := by
    rw [exec_bit_run bit hr, bitStep_node hn]
  refine ⟨fun x y hc => ?_, fun b hc => ?_, fun hc => ?_⟩
  all_goals
    rw [hc] at hx
    exact hx

/-- R185: a step that finds no bit raises `TRUNCATED_TRAVERSAL`. -/
theorem stepH_truncated {h : EngineH} (he : h.readBit = none) :
    stepH h = .next (h.raise .unexpectedEndOfStream .truncatedTraversal, .faulted) := by
  rw [stepH, he]
  rfl

/-- Settles O27: the step is `H.Step()`, whose read of a bit is exhausted. -/
theorem huffmanTruncationFaults : Obligations.HuffmanTruncationFaults := by
  intro s s' hp hr hb hle
  obtain ⟨-, -, reads⟩ := payloadReadReturnsTheNextBytes
  have hnone : s.h.readBit = none := (reads s.h).2.2 hb hle
  rw [step_pullH_running hp hr, stepH_truncated hnone]
  rfl

/-! ### Paths -/

/-- R87: a path is followed one part after the other. -/
theorem follow_append (p q : List Bool) : ∀ n : Tree, n.follow (p ++ q) = (n.follow p).bind (·.follow q) := by
  induction p with
  | nil =>
    intro n
    rw [List.nil_append, Tree.follow, Option.bind_some]
  | cons b p ih =>
    intro n
    cases n with
    | leaf _ | eof => rfl
    | node l r => cases b <;> exact ih _

/-- R87: a path from an internal node to a leaf is a path to an internal node and one bit more. -/
theorem follow_leaf_cases {path : List Bool} {node t : Tree} (hi : node.isInternal = true)
    (hf : node.follow path = some t) (ht : t.isInternal = false) :
    ∃ init bit lt rt, path = init ++ [bit] ∧ node.follow init = some (.node lt rt) ∧ (if bit then rt else lt) = t := by
  obtain rfl | ⟨init, bit, rfl⟩ := path.eq_nil_or_concat'
  · rw [Tree.follow] at hf
    cases hf
    cases hi.symm.trans ht
  · rw [follow_append] at hf
    obtain ⟨n, hn, hlast⟩ := Option.bind_eq_some_iff.mp hf
    cases n with
    | leaf _ | eof => cases hlast
    | node lt rt =>
      refine ⟨init, bit, lt, rt, rfl, hn, ?_⟩
      cases bit <;> simpa [Tree.follow] using hlast

/-! ### Where a traversal stands -/

/-- R181: reading a bit writes the byte being consumed, the number of its bits left, and the cursor. -/
theorem EngineH.readBit_eq {h h' : EngineH} {b : Bool} (e : h.readBit = some (h', b)) :
    h' = { h with cur := h'.cur, bleft := h'.bleft, pcur := h'.pcur } := by
  rcases h.readBit_cases with ⟨-, -, he⟩ | ⟨-, c, -, he⟩ | ⟨n, -, he⟩ <;> rw [he] at e <;> cases e <;> rfl

/-- R60: a payload has eight bits a byte. -/
theorem payloadBits_length (p : Bytes) : (payloadBits p).length = 8 * p.length := by
  induction p with
  | nil => rfl
  | cons b p ih =>
    rw [payloadBits_cons, List.length_append, List.length_reverse, List.length_map, List.length_range, ih, List.length_cons]
    omega

/-- R188: the budget of a loop is one more than the bits left to read. -/
theorem EngineH.budget_eq_bitsLeft (h : EngineH) : h.budget = h.bitsLeft.length + 1 := by
  simp [EngineH.budget, EngineH.bitsLeft, payloadBits_length]

/-- A running engine H on the tree `root`: the node it stands at, the bits it has still to read, and what it has emitted
(R33 to R36). -/
structure EngineH.Stands (h : EngineH) (root node : Tree) (bits : List Bool) (out : Bytes) : Prop where
  running : h.ctl.status = .run
  tree : h.tree = root
  node : h.node = node
  bits : h.bitsLeft = bits
  out : h.out = out

section
variable {h : EngineH} {root node t lt rt : Tree} {b : Bool} {bits path rest : List Bool} {out : Bytes}

/-- R182: at an internal node, a step takes the first bit left and arrives at the child that it selects. -/
theorem EngineH.Stands.step (s : h.Stands root (.node lt rt) (b :: bits) out) :
    ∃ m : EngineH, m.Stands root (.node lt rt) bits out ∧ stepH h = arrive (if b then rt else lt) m := by
  rcases h.readBit_bitsLeft with ⟨-, hnil⟩ | ⟨m, b', he, hcons⟩
  · cases hnil.symm.trans s.bits
  · obtain ⟨rfl, hbits⟩ := List.cons.inj (hcons.symm.trans s.bits)
    have hm := EngineH.readBit_eq he
    have hnode : m.node = .node lt rt := by rw [hm, s.node]
    refine ⟨m, ⟨?_, ?_, hnode, hbits, ?_⟩, by rw [stepH, he, ← bitStep_node hnode]⟩
    · rw [hm, s.running]
    · rw [hm, s.tree]
    · rw [hm, s.out]

/-- R183: where the path leads to an internal node, a pull goes down it silently. -/
theorem EngineH.Stands.descends (k : Nat) : ∀ {path : List Bool} {h : EngineH} {node : Tree},
    h.Stands root node (path ++ rest) out → node.follow path = some (.node lt rt) →
    ∃ m : EngineH, m.Stands root (.node lt rt) rest out ∧
      pullLoop stepH (path.length + k) h = pullLoop stepH k m := by
  intro path
  induction path with
  | nil =>
    intro h node s hf
    rw [Tree.follow] at hf
    cases hf
    exact ⟨h, s, by rw [List.length_nil, Nat.zero_add]⟩
  | cons b path ih =>
    intro h node s hf
    cases node with
    | leaf _ | eof => cases hf
    | node l r =>
      obtain ⟨m, sm, hstep⟩ := s.step
      have hchild : (if b then r else l).follow path = some (.node lt rt) := by cases b <;> exact hf
      cases hc : (if b then r else l) with
      | leaf _ | eof =>
        rw [hc] at hchild
        cases path <;> cases hchild
      | node x y =>
        rw [hc] at hstep hchild
        have entered : EngineH.Stands { m with node := .node x y } root (.node x y) (path ++ rest) out :=
          ⟨sm.running, sm.tree, rfl, sm.bits, sm.out⟩
        obtain ⟨e, se, hrun⟩ := ih entered hchild
        refine ⟨e, se, ?_⟩
        rw [List.length_cons, Nat.add_right_comm, pullLoop, hstep]
        exact hrun

/-- R183, R184: a pull whose bits begin with the path to a leaf goes down to it and arrives there. -/
theorem EngineH.Stands.pull_arrives (s : h.Stands root node (path ++ rest) out) (hi : node.isInternal = true)
    (hf : node.follow path = some t) (ht : t.isInternal = false) :
    ∃ (m : EngineH) (lt rt : Tree), m.Stands root (.node lt rt) rest out ∧ pullH h = arrive t m := by
  obtain ⟨init, bit, lt, rt, rfl, hinit, rfl⟩ := follow_leaf_cases hi hf ht
  have hbudget : h.budget = init.length + (rest.length + 2) := by
    rw [h.budget_eq_bitsLeft, s.bits]
    simp only [List.length_append, List.length_singleton]
    omega
  rw [List.append_assoc] at s
  obtain ⟨m, sm, hdown⟩ := s.descends (rest.length + 2) hinit
  obtain ⟨e, se, hstep⟩ := sm.step
  refine ⟨e, lt, rt, se, ?_⟩
  rw [pullH_run s.running, hbudget, hdown, pullLoop, hstep]
  cases hc : (if bit then rt else lt) with
  | leaf _ | eof => rfl
  | node x y =>
    rw [hc] at ht
    cases ht

/-- R183: the bits of a path to a byte's leaf make a pull emit that byte, and the engine stands at the root again. -/
theorem EngineH.Stands.pull_leaf {v : Byte} (s : h.Stands root root (path ++ rest) out) (hi : root.isInternal = true)
    (hf : root.follow path = some (.leaf v)) :
    ∃ m : EngineH, m.Stands root root rest (out ++ [v]) ∧ pullH h = .next (m, .emitted v) := by
  obtain ⟨m, lt, rt, sm, hp⟩ := s.pull_arrives hi hf rfl
  exact ⟨{ m.emit v with node := m.tree }, ⟨sm.running, sm.tree, sm.tree, sm.bits, congrArg (· ++ [v]) sm.out⟩, hp⟩

/-- R184: the bits of the path to the EOF leaf make a pull end the sequence. -/
theorem EngineH.Stands.pull_eof (s : h.Stands root root (path ++ rest) out) (hi : root.isInternal = true)
    (hf : root.follow path = some .eof) :
    ∃ m : EngineH, m.ctl.status = .done ∧ m.out = out ∧ pullH h = .next (m, .ended) := by
  obtain ⟨m, lt, rt, sm, hp⟩ := s.pull_arrives hi hf rfl
  exact ⟨m.finish, rfl, sm.out, hp⟩

/-- R185: when the bits left lead only to an internal node, the root included, a pull raises `TRUNCATED_TRAVERSAL`. -/
theorem EngineH.Stands.pull_truncated (s : h.Stands root root path out) (hf : root.follow path = some (.node lt rt)) :
    ∃ m : EngineH, m.ctl = { status := .fault, err := some ⟨.unexpectedEndOfStream, .truncatedTraversal⟩ } ∧
      m.out = out ∧ pullH h = .next (m, .faulted) := by
  obtain ⟨m, sm, hdown⟩ := EngineH.Stands.descends 1 (rest := []) (by rwa [List.append_nil]) hf
  have hnone : m.readBit = none := by
    rcases m.readBit_bitsLeft with ⟨he, -⟩ | ⟨_, _, -, hcons⟩
    · exact he
    · cases hcons.symm.trans sm.bits
  refine ⟨m.raise .unexpectedEndOfStream .truncatedTraversal, rfl, sm.out, ?_⟩
  rw [pullH_run s.running, h.budget_eq_bitsLeft, s.bits, hdown, pullLoop, stepH_truncated hnone]

/-! ### A decode of paths (R188, R204) -/

/-- R188, R204: the bits of paths to bytes' leaves make a decode gather those bytes, with pulls to spare for the bits
that follow. -/
theorem EngineH.Stands.gather_symbols (hi : root.isInternal = true) {symbols : List (List Bool × Byte)} :
    ∀ {h : EngineH} {out buf : Bytes} {k : Nat}, (∀ p ∈ symbols, root.follow p.1 = some (.leaf p.2)) →
    h.Stands root root ((symbols.map Prod.fst).flatten ++ rest) out → h.bitsLeft.length < k →
    ∃ (m : EngineH) (j : Nat), m.Stands root root rest (out ++ symbols.map Prod.snd) ∧
      gather pullH (fun b => [b]) k buf h = gather pullH (fun b => [b]) (j + 1) (buf ++ symbols.map Prod.snd) m := by
  induction symbols with
  | nil =>
    intro h out buf k _ s hk
    obtain ⟨j, rfl⟩ : ∃ j, k = j + 1 := ⟨k - 1, by omega⟩
    exact ⟨h, j, by simpa using s, by simp⟩
  | cons p symbols ih =>
    intro h out buf k hsym s hk
    obtain ⟨hp, hsymbols⟩ := List.forall_mem_cons.mp hsym
    rw [List.map_cons, List.flatten_cons, List.append_assoc] at s
    obtain ⟨m, sm, hpull⟩ := s.pull_leaf hi hp
    obtain ⟨init, bit, -, -, hpath, -⟩ := follow_leaf_cases hi hp rfl
    obtain ⟨n, rfl⟩ : ∃ n, k = n + 1 := ⟨k - 1, by omega⟩
    have hn : m.bitsLeft.length < n := by
      rw [s.bits, List.length_append, ← sm.bits, hpath, List.length_append, List.length_singleton] at hk
      omega
    obtain ⟨e, j, se, hgather⟩ := ih (buf := buf ++ [p.2]) hsymbols sm hn
    refine ⟨e, j, by simpa using se, ?_⟩
    rw [gather, hpull]
    simpa using hgather

end

/-- R203: `H.Start` on a table that builds a tree makes a fresh engine H on that tree. -/
theorem exec_hStart_of_tree {s t : State} {levels : List Level} {payload : Bytes} {tree : Tree}
    (hb : buildTree .canonical levels = some tree) (ht : exec (.hStart levels payload) s = .next t) :
    t = (s.setH (s.h.fresh levels tree payload)).setReply .started := by
  have hfit : levelsFit Config.huffMaxLevels Config.huffMaxLeavesPerLevel levels = true :=
    levelsFit_iff.mpr ⟨nofun, nofun⟩
  have hok : treeOrCause Config.treeReading Config.huffMaxLevels Config.huffMaxLeavesPerLevel levels = .ok tree := by
    rw [treeOrCause, if_pos hfit, Config.treeReading, hb]
  have hstart : startH levels payload s.h = s.h.fresh levels tree payload := by rw [startH, hok, startWith]
  have hpayload : payloadFits payload = true := rfl
  rw [exec, execHStart, if_pos hpayload, hstart] at ht
  cases ht
  rfl

/-- R203, R46: it stands at the root, and has the whole payload to read. -/
theorem EngineH.fresh_stands (h : EngineH) (levels : List Level) (tree : Tree) (payload : Bytes) :
    (h.fresh levels tree payload).Stands tree tree (payloadBits payload) [] :=
  ⟨rfl, rfl, rfl, rfl, rfl⟩

/-- R188, R204: a decode after `H.Start`, up to the bits that follow the paths to bytes' leaves. -/
theorem EngineH.decodeAllH_fresh (h : EngineH) {levels : List Level} {payload : Bytes} {tree : Tree}
    {symbols : List (List Bool × Byte)} {rest : List Bool} (hb : buildTree .canonical levels = some tree)
    (hsym : ∀ p ∈ symbols, tree.follow p.1 = some (.leaf p.2))
    (hbits : payloadBits payload = (symbols.map Prod.fst).flatten ++ rest) :
    ∃ (m : EngineH) (j : Nat), m.Stands tree tree rest (symbols.map Prod.snd) ∧
      decodeAllH (h.fresh levels tree payload) = gather pullH (fun b => [b]) (j + 1) (symbols.map Prod.snd) m := by
  have s := h.fresh_stands levels tree payload
  rw [hbits] at s
  refine s.gather_symbols (buildTree_internal hb) hsym ?_
  rw [EngineH.budget_eq_bitsLeft]
  exact Nat.lt_succ_self _

/-- Settles O28: after the symbols, the path of the EOF leaf ends the decode. -/
theorem huffmanDecodesWhatThePathsEncode : Obligations.HuffmanDecodesWhatThePathsEncode := by
  intro s t levels payload tree symbols eofPath padding hb hsym heof hbits ht
  obtain rfl := exec_hStart_of_tree hb ht
  rw [List.append_assoc] at hbits
  obtain ⟨m, j, sm, hgather⟩ := s.h.decodeAllH_fresh hb hsym hbits
  obtain ⟨e, hdone, hout, hpull⟩ := sm.pull_eof (buildTree_internal hb) heof
  rw [gather, hpull] at hgather
  exact ⟨_, exec_decodeAllH hgather, rfl, hout, hdone, rfl⟩

/-- Settles O29: after the symbols, the bits left lead to an internal node, and the next pull raises. -/
theorem truncatedHuffmanPayloadFails : Obligations.TruncatedHuffmanPayloadFails := by
  intro s t levels payload tree stop symbols tail hb hsym htail hstop hbits ht
  obtain rfl := exec_hStart_of_tree hb ht
  obtain ⟨m, j, sm, hgather⟩ := s.h.decodeAllH_fresh hb hsym hbits
  cases stop with
  | leaf _ | eof => cases hstop
  | node lt rt =>
    obtain ⟨e, hctl, hout, hpull⟩ := sm.pull_truncated htail
    rw [gather, hpull] at hgather
    exact ⟨_, exec_decodeAllH hgather, congrArg (replyGathered · .error) hctl, hout, congrArg Control.status hctl⟩

end Sys2Proof.Machine
end

section
/-! PROOFS. The host operations (spec/44_host_operations.md) that need no loop: what each `Start` makes (R200, R203, R207),
and the pulls and decodes of an engine that is not running (R205, R206). -/

namespace Sys2Proof.Machine

/-! ### The machine as an engine works (R43) -/

/-- The machine with engine L and the answer to the host replaced. -/
def State.showL (s : State) (l : EngineL) (answer : Reply) : State := (s.setL l).setReply answer

/-- The machine with engine H and the answer to the host replaced. -/
def State.showH (s : State) (h : EngineH) (answer : Reply) : State := (s.setH h).setReply answer

/-! ### `L.Start` and `L.StartCodes` (R200, R207) -/

/-- R8, D15: no payload is too long, for the block has no `PayloadMaxLen`. -/
theorem payloadFits_default (payload : Bytes) : payloadFits payload = true := rfl

theorem exec_lStart (blockMode : Bool) (m : Nat) (payload : Bytes) (s : State) :
    exec (.lStart blockMode m payload) s =
      .next (s.showL (startL blockMode m payload false [] s.l)
        (replyStart (startL blockMode m payload false [] s.l).ctl)) :=
  rfl

theorem exec_lStartCodes (blockMode : Bool) (m : Nat) (codes : List Nat) (s : State) :
    exec (.lStartCodes blockMode m codes) s =
      .next (s.showL (startL blockMode m [] true codes s.l) (replyStart (startL blockMode m [] true codes s.l).ctl)) :=
  rfl

theorem maxCodeLengthLegal_iff {m : Nat} : maxCodeLengthLegal m = true ↔ 9 ≤ m ∧ m ≤ 16 := by
  simp [maxCodeLengthLegal, initCodeLength, maxCodeLengthLimit]

section
variable (blockMode : Bool) {m : Nat} (payload : Bytes) (seam : Bool) (codes : List Nat) (l : EngineL)

theorem startL_of_legal (h : maxCodeLengthLegal m = true) :
    startL blockMode m payload seam codes l = l.fresh blockMode m payload seam codes := if_pos h

/-- R200: an illegal `max_code_length` makes the same engine whatever the other arguments are. -/
theorem startL_of_illegal (h : ¬ maxCodeLengthLegal m = true) :
    startL blockMode m payload seam codes l = (l.raise .formatError .configRange).lost := if_neg h

end

/-- Settles O37: the fields of a fresh engine L on a payload. -/
theorem lStartMakesAFreshInstance : Obligations.LStartMakesAFreshInstance := by
  intro s blockMode m payload hlo hhi
  refine ⟨_, exec_lStart blockMode m payload s, ?_⟩
  rw [startL_of_legal _ _ _ _ _ (maxCodeLengthLegal_iff.mpr ⟨hlo, hhi⟩)]
  and_intros <;> rfl

/-- Settles O38: the fields of a fresh engine L on a sequence of codes. -/
theorem lStartCodesMakesASeamInstance : Obligations.LStartCodesMakesASeamInstance := by
  intro s blockMode m codes hlo hhi
  refine ⟨_, exec_lStartCodes blockMode m codes s, ?_⟩
  rw [startL_of_legal _ _ _ _ _ (maxCodeLengthLegal_iff.mpr ⟨hlo, hhi⟩)]
  and_intros <;> rfl

/-- Settles O39: both forms of `Start` raise, with the same engine left. -/
theorem lStartOutOfRangeFaults : Obligations.LStartOutOfRangeFaults := by
  intro s blockMode m payload codes i hm hi
  have hillegal : ¬ maxCodeLengthLegal m = true := fun h => by
    have := maxCodeLengthLegal_iff.mp h
    omega
  rcases hi with rfl | rfl
  · refine ⟨_, exec_lStart blockMode m payload s, ?_⟩
    rw [startL_of_illegal _ _ _ _ _ hillegal]
    and_intros <;> rfl
  · refine ⟨_, exec_lStartCodes blockMode m codes s, ?_⟩
    rw [startL_of_illegal _ _ _ _ _ hillegal]
    and_intros <;> rfl

/-! ### `H.Start` (R203) -/

theorem exec_hStart (levels : List Level) (payload : Bytes) (s : State) :
    exec (.hStart levels payload) s =
      .next (s.showH (startH levels payload s.h) (replyStart (startH levels payload s.h).ctl)) :=
  rfl

/-- R8, D16: every level table is within the size bounds, for the block has none. -/
theorem levelsFit_default (levels : List Level) :
    levelsFit Config.huffMaxLevels Config.huffMaxLeavesPerLevel levels = true :=
  levelsFit_iff.mpr ⟨nofun, nofun⟩

/-- R203, R162: a level table that builds no tree makes `H.Start` raise. -/
theorem startH_of_malformed {levels : List Level} (hb : buildTree .canonical levels = none) (payload : Bytes)
    (h : EngineH) :
    startH levels payload h = ({ h with levels := levels }.raise .formatError .treeLevelsMalformed).lost := by
  rw [startH, treeOrCause, if_pos (levelsFit_default levels), Config.treeReading, hb]
  rfl

/-- Settles O40: the fields of a fresh engine H on the tree, and those of one whose `Start` has raised. -/
theorem hStartBuildsTheTreeOrFaults : Obligations.HStartBuildsTheTreeOrFaults := by
  refine fun s levels payload => ⟨fun tree hb => ⟨_, exec_hStart levels payload s, ?_⟩,
    fun hb => ⟨_, exec_hStart levels payload s, ?_⟩⟩
  · rw [exec_hStart_of_tree hb (exec_hStart levels payload s)]
    and_intros <;> rfl
  · rw [startH_of_malformed hb]
    and_intros <;> rfl

/-! ### Pull and DecodeAll on the whole machine (R202, R204) -/

theorem exec_pullL {s : State} {l : EngineL} {r : Result Bytes} {answer : Reply} (h : pullL s.l = .next (l, r))
    (ha : replyL l r = some answer) : exec (.pull .l) s = .next (s.showL l answer) := by
  simp only [exec, execPull, h, State.answerL, ha]
  rfl

theorem exec_pullH {s : State} {e : EngineH} {r : Result Byte} {answer : Reply} (h : pullH s.h = .next (e, r))
    (ha : replyH e r = some answer) : exec (.pull .h) s = .next (s.showH e answer) := by
  simp only [exec, execPull, h, State.answerH, ha]
  rfl

/-- R204: what a decode comes to when a pull does not emit. -/
def Result.gathered {α : Type} (buf : Bytes) : Result α → Option Gathered
  | .ended => some (.ok buf)
  | .faulted => some .error
  | .refused => some .refused
  | .emitted _ => none
  | .silent => none

theorem gather_last {ε α : Type} {pull : ε → Work ε α} {e e' : ε} {r : Result α} {g : Gathered} {buf : Bytes} {n : Nat}
    (bytesOf : α → Bytes) (hn : 0 < n) (h : pull e = .next (e', r)) (hg : r.gathered buf = some g) :
    gather pull bytesOf n buf e = .next (e', g) := by
  obtain ⟨k, rfl⟩ : ∃ k, n = k + 1 := ⟨n - 1, by omega⟩
  rw [gather, h]
  cases r with
  | emitted _ | silent => cases hg
  | ended | faulted | refused => cases hg; rfl

/-- R205, R206: a pull that leaves engine L as it is changes the answer alone, and so does a decode of it. -/
theorem exec_stoppedL {s : State} {r : Result Bytes} {answer : Reply} {g : Gathered} (hp : pullL s.l = .next (s.l, r))
    (ha : replyL s.l r = some answer) (hg : r.gathered [] = some g) :
    exec (.pull .l) s = .next (s.setReply answer) ∧
      exec (.decodeAll .l) s = .next (s.setReply (replyGathered s.l.ctl g)) :=
  ⟨exec_pullL hp ha, exec_decodeAllL (gather_last id s.l.budget_pos hp hg)⟩

/-- As `exec_stoppedL`, for engine H. -/
theorem exec_stoppedH {s : State} {r : Result Byte} {answer : Reply} {g : Gathered} (hp : pullH s.h = .next (s.h, r))
    (ha : replyH s.h r = some answer) (hg : r.gathered [] = some g) :
    exec (.pull .h) s = .next (s.setReply answer) ∧
      exec (.decodeAll .h) s = .next (s.setReply (replyGathered s.h.ctl g)) :=
  ⟨exec_pullH hp ha, exec_decodeAllH (gather_last _ s.h.budget_pos hp hg)⟩

/-- Settles O42: each status but `RUN` has its own result of a pull, which leaves the engine as it is. -/
theorem pullsOfAStoppedEngineAreSticky : Obligations.PullsOfAStoppedEngineAreSticky := by
  rintro s e c rfl
  cases e with
  | l => exact
    ⟨fun hs => exec_stoppedL (r := .refused) (by rw [pullL, hs]; rfl) rfl rfl,
      fun hs => exec_stoppedL (r := .ended) (by rw [pullL, hs]; rfl) rfl rfl,
      fun hs => exec_stoppedL (r := .faulted) (by rw [pullL, hs]; rfl) rfl rfl⟩
  | h => exact
    ⟨fun hs => exec_stoppedH (r := .refused) (by rw [pullH, hs]; rfl) rfl rfl,
      fun hs => exec_stoppedH (r := .ended) (by rw [pullH, hs]; rfl) rfl rfl,
      fun hs => exec_stoppedH (r := .faulted) (by rw [pullH, hs]; rfl) rfl rfl⟩

end Sys2Proof.Machine
end

section
/-! PROOFS. The operations of a running engine (spec/44_host_operations.md): a pull runs to the first step that answers
(R202), and a decode is the loop of its pulls (R204). -/

namespace Sys2Proof.Machine

/-! ### A pull of a running engine (R202) -/

/-- R202: a pull is silent steps, which `silent` counts off, and then the step that answers. -/
theorem PullRun.silent_then_last {ε α : Type} {step : ε → Work ε α} {silent : Nat → ε → Option ε} {e e' : ε} {r : Result α}
    (h : PullRun step e e' r) (zero : ∀ e, silent 0 e = some e)
    (succ : ∀ {n e m}, step e = .next (m, .silent) → silent (n + 1) e = silent n m) :
    ∃ n m, silent n e = some m ∧ step m = .next (e', r) := by
  induction h with
  | last h _ => exact ⟨0, _, zero _, h⟩
  | more h _ ih =>
    obtain ⟨n, m, hn, hm⟩ := ih
    exact ⟨n + 1, m, (succ h).trans hn, hm⟩

theorem silentStepsL_succ {n : Nat} {l m : EngineL} (h : stepL l = .next (m, .silent)) :
    silentStepsL (n + 1) l = silentStepsL n m := by
  rw [silentStepsL, h]

theorem silentStepsH_succ {n : Nat} {e m : EngineH} (h : stepH e = .next (m, .silent)) :
    silentStepsH (n + 1) e = silentStepsH n m := by
  rw [silentStepsH, h]

/-- R202: what a step that answers does to a running engine: it emits and goes on, or ends, or raises. -/
inductive Answered {ε α : Type} (live : ε → Prop) (ctl : ε → Control) (out : ε → List α) (e e' : ε) : Result α → Prop where
  | emitted (x : α) (hl : live e') (ho : out e' = out e ++ [x]) : Answered live ctl out e e' (.emitted x)
  | ended (hc : (ctl e').status = .done) (ho : out e' = out e) : Answered live ctl out e e' .ended
  | faulted (er : Error) (hc : ctl e' = ⟨.fault, some er⟩) (ho : out e' = out e) : Answered live ctl out e e' .faulted

section
variable {ε α : Type} {live : ε → Prop} {ctl : ε → Control} {out : ε → List α} {step pull : ε → Work ε α}
  {bytesOf : α → Bytes} {e e' : ε} {r : Result α}

theorem Answered.result (a : Answered live ctl out e e' r) : (∃ x, r = .emitted x) ∨ r = .ended ∨ r = .faulted := by
  cases a with
  | emitted x => exact .inl ⟨x, rfl⟩
  | ended => exact .inr (.inl rfl)
  | faulted => exact .inr (.inr rfl)

theorem Answered.ne_silent (a : Answered live ctl out e e' r) : r ≠ .silent := by
  rintro rfl
  cases a

/-- A silent step leaves the output, so a pull does what its last step does. -/
theorem PullRun.answered (h : PullRun step e e' r) (hl : live e)
    (hstep : ∀ {a b r}, live a → step a = .next (b, r) →
      r = .silent ∧ live b ∧ out b = out a ∨ Answered live ctl out a b r) : Answered live ctl out e e' r := by
  induction h with
  | last h hr => exact (hstep hl h).resolve_left fun hs => hr hs.1
  | more h _ ih =>
    obtain ⟨-, hm, ho⟩ | ha := hstep hl h
    · cases ih hm with
      | emitted x hl ho' => exact .emitted x hl (by rw [ho', ho])
      | ended hc ho' => exact .ended hc (by rw [ho', ho])
      | faulted er hc ho' => exact .faulted er hc (by rw [ho', ho])
    · exact absurd rfl ha.ne_silent

/-- R204: a decode is pulls that emit, and one that ends or raises: everything emitted stands in the output. -/
theorem GatherRun.answered {buf : Bytes} {g : Gathered} (h : GatherRun pull bytesOf buf e e' g) (hl : live e)
    (hpull : ∀ {a b r}, live a → pull a = .next (b, r) → Answered live ctl out a b r) :
    ∃ new, out e' = out e ++ new ∧
      (g = .ok (buf ++ new.flatMap bytesOf) ∧ (ctl e').status = .done ∨
        g = .error ∧ ∃ er, ctl e' = ⟨.fault, some er⟩) := by
  induction h with
  | ended h =>
    cases hpull hl h with
    | ended hc ho => exact ⟨[], by simpa using ho, .inl ⟨by simp, hc⟩⟩
  | faulted h =>
    cases hpull hl h with
    | faulted er hc ho => exact ⟨[], by simpa using ho, .inr ⟨rfl, er, hc⟩⟩
  | refused h => cases hpull hl h
  | more h _ ih =>
    cases hpull hl h with
    | emitted x hm ho =>
      obtain ⟨new, hnew, hend⟩ := ih hm
      exact ⟨_ :: new, by rw [hnew, ho, List.append_assoc, List.singleton_append], by simpa using hend⟩

end

/-- R132 under the invariant, as an answer. -/
theorem EngineL.Live.step_answered {l l' : EngineL} {r : Result Bytes} (h : l.Live) (hs : stepL l = .next (l', r)) :
    r = .silent ∧ l'.Live ∧ l'.out = l.out ∨ Answered EngineL.Live EngineL.ctl EngineL.out l l' r := by
  obtain ⟨m, res, hm, hx⟩ := h.1.step h.2
  obtain ⟨rfl, rfl⟩ := Prod.mk.inj (Host.Outcome.next.inj (hm.symm.trans hs))
  rcases hx with ⟨hr, hok, -, -, ⟨rfl, ho⟩ | ⟨c, rfl, ho⟩⟩ | ⟨rfl, rfl⟩ | ⟨hf, ho, rfl, c, herr, -⟩
  · exact .inl ⟨rfl, ⟨hok, hr⟩, ho⟩
  · exact .inr (.emitted c ⟨hok, hr⟩ ho)
  · exact .inr (.ended rfl rfl)
  · exact .inr (.faulted _ (by rw [← hf, ← herr]) ho)

/-- R182 under the invariant, as an answer. -/
theorem EngineH.Live.step_answered {e e' : EngineH} {r : Result Byte} (h : e.Live) (hs : stepH e = .next (e', r)) :
    r = .silent ∧ e'.Live ∧ e'.out = e.out ∨ Answered EngineH.Live EngineH.ctl EngineH.out e e' r := by
  obtain ⟨m, res, hm, hx⟩ := h.1.step h.2
  obtain ⟨rfl, rfl⟩ := Prod.mk.inj (Host.Outcome.next.inj (hm.symm.trans hs))
  rcases hx with ⟨hr, hok, -, -, ⟨rfl, ho⟩ | ⟨b, rfl, ho⟩⟩ | ⟨hc, ho, rfl⟩ | ⟨rfl, rfl⟩
  · exact .inl ⟨rfl, ⟨hok, hr⟩, ho⟩
  · exact .inr (.emitted b ⟨hok, hr⟩ ho)
  · exact .inr (.ended (by rw [hc]; rfl) ho)
  · exact .inr (.faulted _ rfl rfl)

theorem EngineL.Live.pull_answered {l l' : EngineL} {r : Result Bytes} (h : l.Live) (hp : pullL l = .next (l', r)) :
    Answered EngineL.Live EngineL.ctl EngineL.out l l' r := by
  rw [pullL_run h.2] at hp
  exact (pullLoop_run _ hp).answered h EngineL.Live.step_answered

theorem EngineH.Live.pull_answered {e e' : EngineH} {r : Result Byte} (h : e.Live) (hp : pullH e = .next (e', r)) :
    Answered EngineH.Live EngineH.ctl EngineH.out e e' r := by
  rw [pullH_run h.2] at hp
  exact (pullLoop_run _ hp).answered h EngineH.Live.step_answered

/-! ### Pull on the whole machine (R202) -/

/-- As `replyL_isSome`, for engine H. -/
theorem replyH_isSome (e : EngineH) {r : Result Byte} (h : r ≠ .silent) : ∃ answer, replyH e r = some answer := by
  cases r with
  | silent => exact absurd rfl h
  | emitted _ | ended | faulted | refused => exact ⟨_, rfl⟩

/-- R202: a pull of a running engine L ends, and has an answer. -/
theorem EngineL.Live.pull {l : EngineL} (h : l.Live) :
    ∃ l' r answer, pullL l = .next (l', r) ∧ PullRun stepL l l' r ∧ replyL l' r = some answer := by
  obtain ⟨l', r, hp, run, -⟩ := steady_stepL.pull l.budget l h (Nat.le_refl _)
  obtain ⟨answer, ha⟩ := replyL_isSome l' (run.answered h EngineL.Live.step_answered).ne_silent
  exact ⟨l', r, answer, (pullL_run h.2).trans hp, run, ha⟩

/-- R202: as `EngineL.Live.pull`, for engine H. -/
theorem EngineH.Live.pull {e : EngineH} (h : e.Live) :
    ∃ e' r answer, pullH e = .next (e', r) ∧ PullRun stepH e e' r ∧ replyH e' r = some answer := by
  obtain ⟨e', r, hp, run, -⟩ := steady_stepH.pull e.budget e h (Nat.le_refl _)
  obtain ⟨answer, ha⟩ := replyH_isSome e' (run.answered h EngineH.Live.step_answered).ne_silent
  exact ⟨e', r, answer, (pullH_run h.2).trans hp, run, ha⟩

theorem State.Inv.liveL {s : State} (h : s.Inv) (hr : s.l.ctl.status = .run) : s.l.Live := ⟨h.runL hr, hr⟩

theorem State.Inv.liveH {s : State} (h : s.Inv) (hr : s.h.ctl.status = .run) : s.h.Live := ⟨h.runH hr, hr⟩

/-- Settles O43: the loop of a pull ends under the invariant, and what it runs is silent steps and then one that answers. -/
theorem pullRunsToTheFirstStepThatAnswers : Obligations.PullRunsToTheFirstStepThatAnswers := by
  refine fun s hi => ⟨fun hr => ?_, fun hr => ?_⟩
  · obtain ⟨l', r, answer, hp, run, ha⟩ := (hi.liveL hr).pull
    obtain ⟨n, m, hn, hm⟩ := run.silent_then_last (fun _ => rfl) silentStepsL_succ
    exact ⟨n, m, l', r, answer, hn, hm, ((hi.liveL hr).pull_answered hp).result, ha, exec_pullL hp ha⟩
  · obtain ⟨e', r, answer, hp, run, ha⟩ := (hi.liveH hr).pull
    obtain ⟨n, m, hn, hm⟩ := run.silent_then_last (fun _ => rfl) silentStepsH_succ
    exact ⟨n, m, e', r, answer, hn, hm, ((hi.liveH hr).pull_answered hp).result, ha, exec_pullH hp ha⟩

/-! ### A decode and its pulls (R204) -/

/-- How an engine's pulls appear in the machine that `view` makes of the engine and of an answer. -/
structure ShowsPulls {ε α : Type} (which : Engine) (pull : ε → Work ε α) (bytesOf : α → Bytes) (ctl : ε → Control)
    (view : ε → Reply → State) : Prop where
  reply : ∀ e a, (view e a).reply = a
  setReply : ∀ e a b, (view e a).setReply b = view e b
  emitted : ∀ {e e' x} (a : Reply), pull e = .next (e', .emitted x) →
    ∃ a' : Reply, (view e' a').reply.emitted = some (bytesOf x) ∧ exec (.pull which) (view e a) = .next (view e' a')
  ended : ∀ {e e'} (a : Reply), pull e = .next (e', .ended) → exec (.pull which) (view e a) = .next (view e' .ended)
  faulted : ∀ {e e'} (a : Reply), pull e = .next (e', .faulted) →
    exec (.pull which) (view e a) = .next (view e' (.fault (ctl e').err))

theorem showsPulls_l (s : State) : ShowsPulls .l pullL id EngineL.ctl s.showL where
  reply _ _ := rfl
  setReply _ _ _ := rfl
  emitted _ h := ⟨_, rfl, exec_pullL h rfl⟩
  ended _ h := exec_pullL h rfl
  faulted _ h := exec_pullL h rfl

theorem showsPulls_h (s : State) : ShowsPulls .h pullH (fun b => [b]) EngineH.ctl s.showH where
  reply _ _ := rfl
  setReply _ _ _ := rfl
  emitted _ h := ⟨_, rfl, exec_pullH h rfl⟩
  ended _ h := exec_pullH h rfl
  faulted _ h := exec_pullH h rfl

theorem emittingPulls_succ {e : Engine} {n : Nat} {s t u : State} {b buf : Bytes} (h : exec (.pull e) s = .next t)
    (hb : t.reply.emitted = some b) (hn : emittingPulls e n t = some (u, buf)) :
    emittingPulls e (n + 1) s = some (u, b ++ buf) := by
  rw [emittingPulls, h]
  simp only [hb, hn]

/-- R204: the machine goes through a decode's emitting pulls, and its last pull answers `End` or the fault. -/
theorem GatherRun.pulls {ε α : Type} {which : Engine} {pull : ε → Work ε α} {bytesOf : α → Bytes} {ctl : ε → Control}
    {view : ε → Reply → State} (shows : ShowsPulls which pull bytesOf ctl view) {buf : Bytes} {e e' : ε} {g : Gathered}
    (h : GatherRun pull bytesOf buf e e' g) (hg : g ≠ .refused) : ∀ a : Reply, ∃ n u bytes,
      emittingPulls which n (view e a) = some (u, bytes) ∧
      (g = .ok (buf ++ bytes) ∧ exec (.pull which) u = .next (view e' .ended) ∨
        g = .error ∧ exec (.pull which) u = .next (view e' (.fault (ctl e').err))) := by
  induction h with
  | ended h => exact fun a => ⟨0, _, [], rfl, .inl ⟨by rw [List.append_nil], shows.ended a h⟩⟩
  | faulted h => exact fun a => ⟨0, _, [], rfl, .inr ⟨rfl, shows.faulted a h⟩⟩
  | refused => exact absurd rfl hg
  | more h _ ih =>
    intro a
    obtain ⟨a', hemitted, hexec⟩ := shows.emitted a h
    obtain ⟨n, u, bytes, hn, hlast⟩ := ih hg a'
    exact ⟨n + 1, u, _, emittingPulls_succ hexec hemitted hn, by rwa [← List.append_assoc]⟩

/-- R204: so a decode leaves the machine as its last pull does, but for the answer. -/
theorem GatherRun.decode {ε α : Type} {which : Engine} {pull : ε → Work ε α} {bytesOf : α → Bytes} {ctl : ε → Control}
    {view : ε → Reply → State} (shows : ShowsPulls which pull bytesOf ctl view) {live : ε → Prop} {out : ε → List α}
    (hpull : ∀ {a b r}, live a → pull a = .next (b, r) → Answered live ctl out a b r) {e e' : ε} {g : Gathered}
    (h : GatherRun pull bytesOf [] e e' g) (hl : live e) (a : Reply)
    (hd : exec (.decodeAll which) (view e a) = .next (view e' (replyGathered (ctl e') g))) :
    ∃ n u v t buf, emittingPulls which n (view e a) = some (u, buf) ∧ exec (.pull which) u = .next v ∧
      exec (.decodeAll which) (view e a) = .next t ∧
      (v.reply = .ended ∧ t = v.setReply (.ok buf) ∨
        ∃ er, v.reply = .fault (some er) ∧ t = v.setReply (.error (some er))) := by
  obtain ⟨new, -, ⟨rfl, -⟩ | ⟨rfl, er, hc⟩⟩ := h.answered hl hpull
  · obtain ⟨n, u, bytes, hn, ⟨hok, hu⟩ | ⟨⟨⟩, -⟩⟩ := h.pulls shows (by simp) a
    rw [hok] at hd
    exact ⟨n, u, _, _, bytes, hn, hu, hd, .inl ⟨shows.reply _ _, (shows.setReply _ _ _).symm⟩⟩
  · obtain ⟨n, u, bytes, hn, ⟨⟨⟩, -⟩ | ⟨-, hu⟩⟩ := h.pulls shows (by simp) a
    rw [hc] at hu hd
    exact ⟨n, u, _, _, bytes, hn, hu, hd, .inr ⟨er, shows.reply _ _, (shows.setReply _ _ _).symm⟩⟩

/-- Settles O44: a decode is a run of the engine's pulls, each of which the machine shows; what they emit is the output
that is added. -/
theorem decodeAllConcatenatesOrReportsTheError : Obligations.DecodeAllConcatenatesOrReportsTheError := by
  refine fun s hi => ⟨fun e hr => ?_, fun hr => ?_, fun hr => ?_⟩
  · cases e with
    | l =>
      obtain ⟨l', g, hd⟩ := (hi.liveL hr).decodeAll
      exact (gather_run _ hd).decode (showsPulls_l s) EngineL.Live.pull_answered (hi.liveL hr) s.reply (exec_decodeAllL hd)
    | h =>
      obtain ⟨e', g, hd⟩ := (hi.liveH hr).decodeAll
      exact (gather_run _ hd).decode (showsPulls_h s) EngineH.Live.pull_answered (hi.liveH hr) s.reply (exec_decodeAllH hd)
  · obtain ⟨l', g, hd⟩ := (hi.liveL hr).decodeAll
    obtain ⟨new, hout, hend⟩ := (gather_run _ hd).answered (hi.liveL hr) EngineL.Live.pull_answered
    refine ⟨_, exec_decodeAllL hd, rfl, rfl, new, hout, ?_⟩
    rcases hend with ⟨rfl, hdone⟩ | ⟨rfl, er, hc⟩
    · exact .inl ⟨hdone, by simp [replyGathered]⟩
    · exact .inr ⟨congrArg Control.status hc, er, congrArg Control.err hc, by simp [replyGathered, hc]⟩
  · obtain ⟨e', g, hd⟩ := (hi.liveH hr).decodeAll
    obtain ⟨new, hout, hend⟩ := (gather_run _ hd).answered (hi.liveH hr) EngineH.Live.pull_answered
    refine ⟨_, exec_decodeAllH hd, rfl, rfl, new, hout, ?_⟩
    rcases hend with ⟨rfl, hdone⟩ | ⟨rfl, er, hc⟩
    · exact .inl ⟨hdone, by simp [replyGathered]⟩
    · exact .inr ⟨congrArg Control.status hc, er, congrArg Control.err hc, by simp [replyGathered, hc]⟩

end Sys2Proof.Machine
end

section
/-! PROOFS. The step goes on (spec/44_host_operations.md R202, spec/60_exceptions.md R222): an operation carried out in
several steps comes to what the one transition comes to (R165, R265; notes/assumptions/1.md), and from the invariant no
step stops. -/

namespace Sys2Proof.Machine

/-! ### An operation in progress -/

theorem finishTask_done {s : State} (h : s.task = none) (n : Nat) : finishTask n s = some s := by
  cases n with
  | zero => rw [finishTask, if_pos h]
  | succ n => rw [finishTask, if_pos h]

theorem finishTask_succ {s t : State} (h : s.task ≠ none) (ht : step s = .next t) (n : Nat) :
    finishTask (n + 1) s = finishTask n t := by
  rw [finishTask, if_neg h, ht]

/-! ### A pull step by step (R202) -/

/-- Within a pull in progress the next step is its engine's; the task is taken off for it. -/
theorem pullStep_of_task {s : State} {e : Engine} (h : s.task = some (.pull e)) :
    s.pullStep = some (e, s.setTask none) := by
  rw [State.pullStep, h]
  rfl

/-- So is the first step of a pull that the host issues stepwise. -/
theorem pullStep_of_move {s : State} {e : Engine} {rest : List Turn} (h : s.task = none)
    (ha : s.agenda = .stepwise (.pull e) :: rest) : s.pullStep = some (e, s.setAgenda rest) := by
  simp only [State.pullStep, h, ha]
  rw [← h]
  rfl

/-- How an engine's steps appear in the machine within a pull that is carried out step by step: `going` makes the machine
while the pull goes on, and `view` the machine when it has answered. -/
structure ShowsSteps {ε α : Type} (engineStep : ε → Work ε α) (running : ε → Prop) (reply : ε → Result α → Option Reply)
    (going : ε → State) (view : ε → Reply → State) : Prop where
  task : ∀ e, (going e).task ≠ none
  done : ∀ e a, (view e a).task = none
  silent : ∀ {e m}, running e → engineStep e = .next (m, .silent) → running m ∧ step (going e) = .next (going m)
  answered : ∀ {e m r a}, running e → engineStep e = .next (m, r) → reply m r = some a →
    step (going e) = .next (view m a)

/-- R202: the steps of a pull carry the machine from the one to the other. -/
theorem PullRun.finishTask_going {ε α : Type} {engineStep : ε → Work ε α} {running : ε → Prop}
    {reply : ε → Result α → Option Reply} {going : ε → State} {view : ε → Reply → State}
    (shows : ShowsSteps engineStep running reply going view) {e e' : ε} {r : Result α} {a : Reply}
    (h : PullRun engineStep e e' r) (hr : running e) (ha : reply e' r = some a) :
    ∃ n, finishTask n (going e) = some (view e' a) := by
  induction h with
  | last h _ =>
    exact ⟨1, by rw [finishTask_succ (shows.task _) (shows.answered hr h ha), finishTask_done (shows.done _ _)]⟩
  | more h _ ih =>
    obtain ⟨hm, hstep⟩ := shows.silent hr h
    obtain ⟨n, hn⟩ := ih hm ha
    exact ⟨n + 1, by rw [finishTask_succ (shows.task _) hstep, hn]⟩

/-- An operation that is carried out has a first step. -/
theorem finishTask_first {s u : State} {n : Nat} (h : s.task ≠ none) (hn : finishTask n s = some u) :
    ∃ k t, step s = .next t ∧ finishTask k t = some u := by
  cases n with
  | zero =>
    rw [finishTask, if_neg h] at hn
    cases hn
  | succ k =>
    rw [finishTask, if_neg h] at hn
    split at hn
    · exact ⟨k, _, ‹_›, hn⟩
    · cases hn
    · cases hn

/-- R205, R206: a pull of an engine L that is not running is complete at its first step. -/
theorem step_pullL_turnsAway {s s' : State} (hp : s.pullStep = some (.l, s')) (hr : s.l.ctl.status ≠ .run) :
    ∃ answer, step s = .next (s'.setReply answer) ∧ exec (.pull .l) s' = .next (s'.setReply answer) := by
  obtain ⟨hs', hf⟩ := fetch_pullL hp
  have hl : s'.l = s.l := by rw [hs']
  rw [← hl] at hr
  have hstep : step s = .next (s'.turnAwayL s'.l.ctl.status) :=
    step_of_settled (hf.trans (by simp [fetchL, Control.isRunning, hr]))
  rw [hstep]
  obtain ⟨idle, done, fault⟩ := pullsOfAStoppedEngineAreSticky s' .l _ rfl
  cases hst : s'.l.ctl.status with
  | run => exact absurd hst hr
  | idle => exact ⟨_, rfl, (idle hst).1⟩
  | done => exact ⟨_, rfl, (done hst).1⟩
  | fault => exact ⟨_, rfl, (fault hst).1⟩

/-- As `step_pullL_turnsAway`, for engine H. -/
theorem step_pullH_turnsAway {s s' : State} (hp : s.pullStep = some (.h, s')) (hr : s.h.ctl.status ≠ .run) :
    ∃ answer, step s = .next (s'.setReply answer) ∧ exec (.pull .h) s' = .next (s'.setReply answer) := by
  obtain ⟨hs', hf⟩ := fetch_pullH hp
  have hh : s'.h = s.h := by rw [hs']
  rw [← hh] at hr
  have hstep : step s = .next (s'.turnAwayH s'.h.ctl.status) :=
    step_of_settled (hf.trans (by simp [fetchH, Control.isRunning, hr]))
  rw [hstep]
  obtain ⟨idle, done, fault⟩ := pullsOfAStoppedEngineAreSticky s' .h _ rfl
  cases hst : s'.h.ctl.status with
  | run => exact absurd hst hr
  | idle => exact ⟨_, rfl, (idle hst).1⟩
  | done => exact ⟨_, rfl, (done hst).1⟩
  | fault => exact ⟨_, rfl, (fault hst).1⟩

/-- The machine with engine L replaced and a pull of it in progress. -/
def State.pullingL (s : State) (l : EngineL) : State := (s.setL l).setTask (some (.pull .l))

/-- The machine with engine H replaced and a pull of it in progress. -/
def State.pullingH (s : State) (h : EngineH) : State := (s.setH h).setTask (some (.pull .h))

theorem State.answerL_silent (s : State) (l : EngineL) : s.answerL (.next (l, .silent)) = .next (s.pullingL l) := rfl

theorem State.answerL_answered {l : EngineL} {r : Result Bytes} {answer : Reply} (h : replyL l r = some answer)
    (s : State) : s.answerL (.next (l, r)) = .next (s.showL l answer) := by
  rw [State.answerL, h]
  rfl

theorem State.answerH_silent (s : State) (e : EngineH) : s.answerH (.next (e, .silent)) = .next (s.pullingH e) := rfl

theorem State.answerH_answered {e : EngineH} {r : Result Byte} {answer : Reply} (h : replyH e r = some answer)
    (s : State) : s.answerH (.next (e, r)) = .next (s.showH e answer) := by
  rw [State.answerH, h]
  rfl

/-- While a pull of engine L is in progress, a step of the machine is `L.Step()`, answered. -/
theorem step_pullingL {s : State} (ht : s.task = none) {l : EngineL} (hr : l.ctl.status = .run) :
    step (s.pullingL l) = s.answerL (stepL l) := by
  have hs : (s.pullingL l).setTask none = s.setL l := by
    rw [State.pullingL, State.setTask_setTask, ← ht]
    rfl
  have hp : (s.pullingL l).pullStep = some (.l, s.setL l) := by
    rw [← hs]
    exact pullStep_of_task rfl
  rw [step_pullL_running hp hr]
  show (s.setL l).answerL (stepL l) = s.answerL (stepL l)
  cases stepL l <;> rfl

/-- While a pull of engine H is in progress, a step of the machine is `H.Step()`, answered. -/
theorem step_pullingH {s : State} (ht : s.task = none) {e : EngineH} (hr : e.ctl.status = .run) :
    step (s.pullingH e) = s.answerH (stepH e) := by
  have hs : (s.pullingH e).setTask none = s.setH e := by
    rw [State.pullingH, State.setTask_setTask, ← ht]
    rfl
  have hp : (s.pullingH e).pullStep = some (.h, s.setH e) := by
    rw [← hs]
    exact pullStep_of_task rfl
  rw [step_pullH_running hp hr]
  show (s.setH e).answerH (stepH e) = s.answerH (stepH e)
  cases stepH e <;> rfl

theorem showsSteps_l {s : State} (ht : s.task = none) :
    ShowsSteps stepL (fun l => l.ctl.status = .run) replyL s.pullingL s.showL where
  task _ := Option.some_ne_none _
  done _ _ := ht
  silent hr h := ⟨by rw [stepL_silent_ctl h, hr], by rw [step_pullingL ht hr, h, State.answerL_silent]⟩
  answered hr h ha := by rw [step_pullingL ht hr, h, State.answerL_answered ha]

theorem showsSteps_h {s : State} (ht : s.task = none) :
    ShowsSteps stepH (fun e => e.ctl.status = .run) replyH s.pullingH s.showH where
  task _ := Option.some_ne_none _
  done _ _ := ht
  silent hr h := ⟨by rw [stepH_silent_ctl h, hr], by rw [step_pullingH ht hr, h, State.answerH_silent]⟩
  answered hr h ha := by rw [step_pullingH ht hr, h, State.answerH_answered ha]

/-- R202, R265: a pull of a running engine L, step by step, comes to what the one transition comes to. -/
theorem finishTask_pullL {s s' : State} (hp : s.pullStep = some (.l, s')) (hl : s.l.Live) :
    ∃ n t u, step s = .next t ∧ finishTask n t = some u ∧ exec (.pull .l) s' = .next u := by
  have hs' := (fetch_pullL hp).1
  have ht : s'.task = none := by rw [hs']
  obtain ⟨l, r, answer, hpull, run, ha⟩ := hl.pull
  obtain ⟨n, hn⟩ := run.finishTask_going (showsSteps_l ht) hl.2 ha
  obtain ⟨k, t, hstep, hk⟩ := finishTask_first (Option.some_ne_none _) hn
  rw [step_pullingL ht hl.2, ← step_pullL_running hp hl.2] at hstep
  exact ⟨k, t, _, hstep, hk, exec_pullL (by rw [hs']; exact hpull) ha⟩

/-- As `finishTask_pullL`, for engine H. -/
theorem finishTask_pullH {s s' : State} (hp : s.pullStep = some (.h, s')) (hl : s.h.Live) :
    ∃ n t u, step s = .next t ∧ finishTask n t = some u ∧ exec (.pull .h) s' = .next u := by
  have hs' := (fetch_pullH hp).1
  have ht : s'.task = none := by rw [hs']
  obtain ⟨e, r, answer, hpull, run, ha⟩ := hl.pull
  obtain ⟨n, hn⟩ := run.finishTask_going (showsSteps_h ht) hl.2 ha
  obtain ⟨k, t, hstep, hk⟩ := finishTask_first (Option.some_ne_none _) hn
  rw [step_pullingH ht hl.2, ← step_pullH_running hp hl.2] at hstep
  exact ⟨k, t, _, hstep, hk, exec_pullH (by rw [hs']; exact hpull) ha⟩

/-- R202, R205, R206: a pull carried out step by step, of an engine in any status. -/
theorem finishTask_pull {s s' : State} {e : Engine} (hp : s.pullStep = some (e, s')) (hi : s.Inv) :
    ∃ n t u, step s = .next t ∧ finishTask n t = some u ∧ exec (.pull e) s' = .next u := by
  have once : ∀ {u}, u.task = none → step s = .next u → exec (.pull e) s' = .next u →
      ∃ n t u, step s = .next t ∧ finishTask n t = some u ∧ exec (.pull e) s' = .next u :=
    fun ht hstep hexec => ⟨0, _, _, hstep, finishTask_done ht 0, hexec⟩
  cases e with
  | l =>
    by_cases hr : s.l.ctl.status = .run
    · exact finishTask_pullL hp (hi.liveL hr)
    · obtain ⟨answer, hstep, hexec⟩ := step_pullL_turnsAway hp hr
      exact once (by rw [(fetch_pullL hp).1]; rfl) hstep hexec
  | h =>
    by_cases hr : s.h.ctl.status = .run
    · exact finishTask_pullH hp (hi.liveH hr)
    · obtain ⟨answer, hstep, hexec⟩ := step_pullH_turnsAway hp hr
      exact once (by rw [(fetch_pullH hp).1]; rfl) hstep hexec

/-! ### `H.Start` slot by slot (R165, R203) -/

/-- What `H.Start` is given by an assembly: the tree of the builder that it has come to, or the error. -/
def builtFrom (assembly : Option Builder) : Except Cause Tree :=
  match assembly.bind Builder.root with
  | some t => .ok t
  | none => .error .treeLevelsMalformed

/-- R165: the assembly comes to its end where no slot can be taken. -/
theorem Builder.assemble_of_takeSlot_none {b : Builder} (h : b.takeSlot = none) (n : Nat) :
    b.assemble n = if b.stack = [] then some b else none := by
  cases n with
  | zero => rfl
  | succ n =>
    rw [Builder.assemble, h]
    split <;> simp [*]

theorem step_build_slot {s : State} {levels : List Level} {payload : Bytes} {k : Slot} {b : Builder}
    (ht : s.task = some (.build levels payload)) (hk : s.h.builder.takeSlot = some (k, b)) :
    step s = .next (s.setH { s.h with builder := b.attachSlot k }) := by
  obtain ⟨top, rest, hs, -, rfl⟩ := Builder.takeSlot_some hk
  rw [step_of_run ((fetch_of_task ht).trans (fetchBuild_slot levels payload hk)), exec_slot, State.runSlot]
  simp [hs]

theorem step_build_end {s : State} {levels : List Level} {payload : Bytes} (ht : s.task = some (.build levels payload))
    (hk : s.h.builder.takeSlot = none) (n : Nat) :
    step s = .next (s.endBuild levels payload (builtFrom (s.h.builder.assemble n))) := by
  refine step_of_settled ((fetch_of_task ht).trans ?_)
  rw [Builder.assemble_of_takeSlot_none hk, fetchTask, fetchBuild]
  cases hs : s.h.builder.stack with
  | nil =>
    cases hroot : s.h.builder.root <;> simp [builtFrom, hroot]
  | cons top rest => simp [builtFrom, hk]

/-- R203, R37: the end of an `H.Start` does not look at the builder. -/
theorem State.endBuild_builder (s : State) (b : Builder) (levels : List Level) (payload : Bytes)
    (built : Except Cause Tree) :
    (s.setH { s.h with builder := b }).endBuild levels payload built = s.endBuild levels payload built := by
  cases built <;> rfl

theorem Builder.slotCount_attach {b b' : Builder} {k : Slot} (h : b.takeSlot = some (k, b')) :
    (b'.attachSlot k).slotCount = b.slotCount := by
  obtain ⟨top, rest, -, -, rfl⟩ := Builder.takeSlot_some h
  simp only [Builder.slotCount, (Builder.attachSlot_lists _ k).1]

/-- R165: the rest of the assembly, slot by slot; each slot is taken at most once, so `n` more slots are enough when all but
`n` have been taken. -/
theorem finishTask_build {levels : List Level} {payload : Bytes} (n : Nat) : ∀ {s : State} {k : Nat},
    s.task = some (.build levels payload) → s.h.builder.Counted k → s.h.builder.slotCount = k + n →
    finishTask (n + 1) s = some (s.endBuild levels payload (builtFrom (s.h.builder.assemble n))) := by
  induction n with
  | zero =>
    intro s k ht hc hn
    have hk : s.h.builder.takeSlot = none := by
      by_contra hsome
      obtain ⟨p, hk⟩ := Option.ne_none_iff_exists'.mp hsome
      have hle := (hc.take hk).le
      rw [Builder.slotCount_attach hk] at hle
      omega
    rw [finishTask_succ (by simp [ht]) (step_build_end ht hk 0), finishTask_done rfl]
  | succ n ih =>
    intro s k ht hc hn
    cases hk : s.h.builder.takeSlot with
    | none => rw [finishTask_succ (by simp [ht]) (step_build_end ht hk (n + 1)), finishTask_done rfl]
    | some p =>
      rw [finishTask_succ (by simp [ht]) (step_build_slot ht hk), Builder.assemble_step n hk, ← s.endBuild_builder]
      exact ih ht (hc.take hk) (by rw [State.setH_h, Builder.slotCount_attach hk, hn]; omega)

/-- R203, R228: within the size bounds, what `H.Start` is given is what the whole assembly comes to. -/
theorem treeOrCause_of_ready {levels : List Level} {b : Builder} (hb : readyBuilder Config.treeReading levels = some b) :
    treeOrCause Config.treeReading Config.huffMaxLevels Config.huffMaxLeavesPerLevel levels =
      builtFrom (b.assemble b.slotCount) := by
  rw [treeOrCause, if_pos (levelsFit_default levels), buildTree, hb]
  rfl

theorem treeOrCause_of_not_ready {levels : List Level} (hb : readyBuilder Config.treeReading levels = none) :
    treeOrCause Config.treeReading Config.huffMaxLevels Config.huffMaxLeavesPerLevel levels =
      .error .treeLevelsMalformed := by
  rw [treeOrCause, if_pos (levelsFit_default levels), buildTree, hb]
  rfl

/-- R203: with no operation in progress, `H.Start` as one transition ends as one carried out slot by slot does. -/
theorem exec_hStart_endBuild {s : State} (ht : s.task = none) (levels : List Level) (payload : Bytes) :
    exec (.hStart levels payload) s = .next (s.endBuild levels payload
      (treeOrCause Config.treeReading Config.huffMaxLevels Config.huffMaxLeavesPerLevel levels)) := by
  rw [exec_hStart, State.endBuild, State.setTask, ← ht]
  rfl

theorem step_beginBuild {s : State} {levels : List Level} {payload : Bytes} {rest : List Turn} (ht : s.task = none)
    (ha : s.agenda = .stepwise (.build levels payload) :: rest) :
    step s = .next ((s.setAgenda rest).beginBuild levels payload) :=
  step_of_settled ((fetch_of_no_task ht).trans (by rw [fetchMove, ha]))

/-- R228, D15, D16: the checks of the sizes pass, and the root is open when the counts are right. -/
theorem State.beginBuild_of_ready (s : State) {levels : List Level} {b : Builder} (payload : Bytes)
    (hb : readyBuilder Config.treeReading levels = some b) :
    s.beginBuild levels payload = (s.setH { s.h with builder := b }).setTask (some (.build levels payload)) := by
  simp only [State.beginBuild, payloadFits_default, levelsFit_default, if_true, hb]

theorem State.beginBuild_of_not_ready (s : State) {levels : List Level} (payload : Bytes)
    (hb : readyBuilder Config.treeReading levels = none) :
    s.beginBuild levels payload = s.endBuild levels payload (.error .treeLevelsMalformed) := by
  simp only [State.beginBuild, payloadFits_default, levelsFit_default, if_true, hb]

/-- R203, R165, R265: an `H.Start` carried out slot by slot comes to what the one transition comes to. -/
theorem finishTask_hStart {s : State} {levels : List Level} {payload : Bytes} {rest : List Turn} (ht : s.task = none)
    (ha : s.agenda = .stepwise (.build levels payload) :: rest) :
    ∃ n t u, step s = .next t ∧ finishTask n t = some u ∧ exec (.hStart levels payload) (s.setAgenda rest) = .next u := by
  have hexec := exec_hStart_endBuild (s := s.setAgenda rest) ht levels payload
  rw [step_beginBuild ht ha]
  cases hb : readyBuilder Config.treeReading levels with
  | none =>
    rw [treeOrCause_of_not_ready hb] at hexec
    rw [State.beginBuild_of_not_ready _ payload hb]
    exact ⟨0, _, _, rfl, finishTask_done rfl 0, hexec⟩
  | some b =>
    rw [treeOrCause_of_ready hb, ← State.endBuild_builder _ b] at hexec
    rw [State.beginBuild_of_ready _ payload hb]
    exact ⟨b.slotCount + 1, _, _, rfl,
      finishTask_build b.slotCount rfl (readyBuilder_counted hb) (Nat.zero_add _).symm, hexec⟩

/-- Settles O55: a step of a pull is the engine's step, answered; the steps of an operation in progress are the run of its
loop, or the slots of its assembly. -/
theorem engineTurnIsOneStepOfThePull : Obligations.EngineTurnIsOneStepOfThePull := by
  refine fun s => ⟨fun s' hp hok hr => ?_, fun s' hp hok hr => ?_, fun e rest hi ht ha => ?_,
    fun levels payload rest ht ha => finishTask_hStart ht ha⟩
  · obtain ⟨l, r, hs, -⟩ := hok.step hr
    rw [step_pullL_running hp hr, hs]
    exact ⟨l, r, rfl, fun h => by rw [h]; rfl, fun answer h => State.answerL_answered h s'⟩
  · obtain ⟨e, r, hs, -⟩ := hok.step hr
    rw [step_pullH_running hp hr, hs]
    exact ⟨e, r, rfl, fun h => by rw [h]; rfl, fun answer h => State.answerH_answered h s'⟩
  · exact finishTask_pull (pullStep_of_move ht ha) hi

/-! ### No step stops (R202, R222, R223) -/

/-- R223: under the invariant a pull and a decode answer a next state, whatever the engine's status. -/
theorem exec_pull_decodeAll_next {s : State} (hi : s.Inv) (e : Engine) :
    (∃ t, exec (.pull e) s = .next t) ∧ ∃ t, exec (.decodeAll e) s = .next t := by
  obtain ⟨idle, done, fault⟩ := pullsOfAStoppedEngineAreSticky s e _ rfl
  obtain ⟨decode, -, -⟩ := decodeAllConcatenatesOrReportsTheError s hi
  cases hst : (match e with | .l => s.l.ctl | .h => s.h.ctl).status with
  | idle => exact ⟨⟨_, (idle hst).1⟩, _, (idle hst).2⟩
  | done => exact ⟨⟨_, (done hst).1⟩, _, (done hst).2⟩
  | fault => exact ⟨⟨_, (fault hst).1⟩, _, (fault hst).2⟩
  | run =>
    obtain ⟨-, -, -, t, -, -, -, hd, -⟩ := decode e hst
    refine ⟨?_, t, hd⟩
    cases e with
    | l =>
      obtain ⟨l, r, answer, hp, -, ha⟩ := (hi.liveL hst).pull
      exact ⟨_, exec_pullL hp ha⟩
    | h =>
      obtain ⟨h, r, answer, hp, -, ha⟩ := (hi.liveH hst).pull
      exact ⟨_, exec_pullH hp ha⟩

/-- R223: under the invariant every host transaction answers a next state. -/
theorem exec_op_next {s : State} (hi : s.Inv) (op : HostOp) : ∃ t, exec (decodeOp op) s = .next t := by
  cases op with
  | lStart bm m p => exact ⟨_, exec_lStart bm m p s⟩
  | lStartCodes bm m cs => exact ⟨_, exec_lStartCodes bm m cs s⟩
  | hStart lv p => exact ⟨_, exec_hStart lv p s⟩
  | statusRead r => exact ⟨_, rfl⟩
  | pull e => exact (exec_pull_decodeAll_next hi e).1
  | decodeAll e => exact (exec_pull_decodeAll_next hi e).2

/-- The moves to come are no part of the invariant. -/
theorem State.Inv.setAgenda {s : State} (hi : s.Inv) (rest : List Turn) : (s.setAgenda rest).Inv :=
  ⟨hi.ctlL, hi.ctlH, hi.runL, hi.runH, hi.build⟩

/-- Settles O58: each kind of step, of an operation in progress or of the outside's next move, answers a next state. -/
theorem noStepFromTheInvariantStops : Obligations.NoStepFromTheInvariantStops := by
  intro s hi
  have pull : ∀ e s', s.pullStep = some (e, s') → ∃ t, step s = .next t := fun e s' hp =>
    have ⟨_, t, _, hstep, _⟩ := finishTask_pull hp hi
    ⟨t, hstep⟩
  cases ht : s.task with
  | some task =>
    cases task with
    | pull e => exact pull e _ (pullStep_of_task ht)
    | build levels payload =>
      cases hk : s.h.builder.takeSlot with
      | some p => exact ⟨_, step_build_slot ht hk⟩
      | none => exact ⟨_, step_build_end ht hk 0⟩
  | none =>
    cases ha : s.agenda with
    | nil => exact ⟨s, step_of_settled ((fetch_of_no_task ht).trans (fetchMove_nil ha))⟩
    | cons move rest =>
      cases move with
      | host op =>
        rw [step_of_run ((fetch_of_no_task ht).trans (fetchMove_host ha))]
        exact exec_op_next (hi.setAgenda rest) op
      | stepwise task =>
        cases task with
        | pull e => exact pull e _ (pullStep_of_move ht ha)
        | build levels payload => exact ⟨_, step_beginBuild ht ha⟩
      | hardReset => exact ⟨_, step_of_settled ((fetch_of_no_task ht).trans (fetchMove_hardReset ha))⟩

end Sys2Proof.Machine
end

section
/-! PROOFS. The test seam (spec/44_host_operations.md R207, R208): engine L decodes the same from a payload and from the
sequence of the codes that the payload's groups hold. -/

namespace Sys2Proof.Machine

/-! ### A run is what its loop answers -/

/-- R202: with steps enough, the loop of a pull answers what the run comes to. -/
theorem PullRun.eq_of_loop {ε α : Type} {step : ε → Work ε α} {e e' : ε} {r : Result α} (h : PullRun step e e' r) :
    ∀ {n : Nat} {p : ε × Result α}, pullLoop step n e = .next p → p = (e', r) := by
  induction h with
  | @last e e' r h hr =>
    intro n p hp
    cases n with
    | zero => cases hp
    | succ n =>
      rw [pullLoop, h] at hp
      cases r with
      | silent => exact absurd rfl hr
      | emitted _ | ended | faulted | refused => cases hp; rfl
  | more h _ ih =>
    intro n p hp
    cases n with
    | zero => cases hp
    | succ n =>
      rw [pullLoop, h] at hp
      exact ih hp

/-- R204: with pulls enough, the loop of a decode answers what the run comes to. -/
theorem GatherRun.eq_of_gather {ε α : Type} {pull : ε → Work ε α} {bytesOf : α → Bytes} {buf : Bytes} {e e' : ε}
    {g : Gathered} (h : GatherRun pull bytesOf buf e e' g) :
    ∀ {n : Nat} {p : ε × Gathered}, gather pull bytesOf n buf e = .next p → p = (e', g) := by
  induction h with
  | ended h | faulted h | refused h =>
    intro n p hp
    cases n with
    | zero => cases hp
    | succ n =>
      rw [gather, h] at hp
      cases hp
      rfl
  | more h _ ih =>
    intro n p hp
    cases n with
    | zero => cases hp
    | succ n =>
      rw [gather, h] at hp
      exact ih hp

/-! ### The meaning of a code does not look at the reader (R133 to R141) -/

/-- Engine L with the reader of another one: its group, its input and every position in it. -/
def EngineL.withReader (l k : EngineL) : EngineL :=
  { l with
    gvalid := k.gvalid, group := k.group, gpos := k.gpos, payload := k.payload, pcur := k.pcur, seam := k.seam
    codes := k.codes, ccur := k.ccur, draws := k.draws }

theorem EngineL.afterEmit_withReader {l k : EngineL} (hk : k.seam = true) (chunk : Bytes) (b : Byte) :
    (l.withReader k).afterEmit chunk b = (l.afterEmit chunk b).withReader k := by
  have htable : tableAfter (l.withReader k) b = tableAfter l b := rfl
  have hwidens : widens (l.withReader k) b = widens l b := rfl
  rw [EngineL.afterEmit, htable, hwidens]
  simp [EngineL.afterEmit, EngineL.withReader, hk]

theorem emitChunk_withReader {chunk : Bytes} {l m k : EngineL} {r : Result Bytes} (hk : k.seam = true)
    (h : emitChunk chunk l = .next (m, r)) :
    emitChunk chunk (l.withReader k) = .next (m.withReader k, r) := by
  cases chunk with
  | nil => cases h
  | cons b rest =>
    rw [emitChunk_cons] at h ⊢
    cases h
    rw [EngineL.afterEmit_withReader hk]

/-- R120: with a reader of the test seam, which buffers no group, a code does to the rest of the engine what it does with
any other reader. -/
theorem runClass_withReader {c : CodeClass} {l m k : EngineL} {r : Result Bytes} (hk : k.seam = true)
    (h : runClass l c = .next (m, r)) : runClass (l.withReader k) c = .next (m.withReader k, r) := by
  cases c with
  | clr =>
    simp only [runClass, clrStep_eq] at h ⊢
    cases h
    simp [EngineL.withReader, hk]
  | kwk _ =>
    have hlast : (l.withReader k).lastChunk = l.lastChunk := rfl
    simp only [runClass, kwkStep, hlast] at h ⊢
    split at h
    · cases h; rfl
    · split at h
      · exact emitChunk_withReader hk h
      · cases h
  | lit b => exact emitChunk_withReader (chunk := [b]) hk h
  | ref i =>
    have hread : (l.withReader k).tableRead i = l.tableRead i := rfl
    simp only [runClass, refStep, hread] at h ⊢
    split at h
    · exact emitChunk_withReader hk h
    · cases h
  | bad _ => cases h; rfl

/-! ### The codes of a payload (R208) -/

theorem codesRead_code {l m m' : EngineL} {c n : Nat} {r : Result Bytes} (hn : l.nextCode = (m, .code c))
    (hc : runClass m (classify m.blockMode m.table.length c) = .next (m', r)) :
    codesRead (n + 1) l = c :: (if m'.ctl.isRunning then codesRead n m' else []) := by
  rw [codesRead, hn]
  simp only [hc]
  split <;> rfl

theorem codesRead_exhausted {l m : EngineL} (hn : l.nextCode = (m, .exhausted)) (n : Nat) : codesRead n l = [] := by
  cases n with
  | zero => rfl
  | succ n => rw [codesRead, hn]

/-- R207, R208: engine `k` stands in the test seam where engine `l` stands in its payload: but for the reader they are the
same, and while they run the codes left to `k` are those that `l` will read. -/
structure EngineL.Mirrors (l k : EngineL) : Prop where
  good : l.Good
  goodSeam : k.Good
  same : k = l.withReader k
  seam : k.seam = true
  feed : l.ctl.status = .run → ∃ n, l.budget ≤ n ∧ k.codes.drop k.ccur = codesRead n l

/-- The DecoderState (R27), the status and the output, which the reader is no part of. -/
theorem EngineL.Mirrors.decoder {l k : EngineL} (h : l.Mirrors k) :
    k.ctl = l.ctl ∧ k.out = l.out ∧ k.table = l.table ∧ k.codeLength = l.codeLength ∧ k.lastChunk = l.lastChunk := by
  rw [h.same]
  exact ⟨rfl, rfl, rfl, rfl, rfl⟩

/-- R224 (b): not stopped by a truncated group, of which the test seam has none. -/
def EngineL.Whole (l : EngineL) : Prop := l.ctl.err ≠ some ⟨.unexpectedEndOfStream, .truncatedGroup⟩

section
variable {l k m : EngineL} {r : Result Bytes}

/-- R120: with codes left, `next_code` of the test seam takes the first of them. -/
theorem EngineL.nextCode_of_codesLeft {c : Nat} {rest : List Nat} (hk : k.seam = true)
    (h : k.codes.drop k.ccur = c :: rest) :
    k.nextCode = ({ k with ccur := k.ccur + 1 }, .code c) ∧ k.codes.drop (k.ccur + 1) = rest := by
  have hc : k.codes[k.ccur]? = some c := by rw [← Nat.add_zero k.ccur, ← List.getElem?_drop, h]; rfl
  exact ⟨(seamDeliversTheSuppliedCodes k hk).1 c hc, by rw [← List.tail_drop, h, List.tail_cons]⟩

/-- Reading a code changes the reader alone. -/
theorem EngineL.nextCode_withReader {res : CodeResult} (h : l.nextCode = (m, res)) (k : EngineL) :
    m.withReader k = l.withReader k := by
  rw [(EngineL.nextCode_keeps h).eq]
  rfl

/-- R130, R202: a step after which the engine goes on has taken from its budget. -/
theorem EngineL.Ok.step_budget (h : l.Ok) (hr : l.ctl.status = .run) (hs : stepL l = .next (m, r))
    (hm : m.ctl.status = .run) : m.budget < l.budget := by
  obtain ⟨m', r', hs', hx⟩ := h.step hr
  obtain ⟨rfl, rfl⟩ := Prod.mk.inj (Host.Outcome.next.inj (hs'.symm.trans hs))
  rcases hx with ⟨-, -, hb, -⟩ | ⟨rfl, -⟩ | ⟨hf, -⟩
  · exact hb
  · cases hm
  · cases hf.symm.trans hm

/-- R208: a code that both engines have read does the same to both. -/
theorem stepL_withReader {j k₁ : EngineL} {c : Nat} (hk : k.nextCode = (k₁, .code c)) (hseam : k₁.seam = true)
    (hsame : k₁ = j.withReader k₁) (hc : runClass j (classify j.blockMode j.table.length c) = .next (m, r)) :
    stepL k = .next (m.withReader k₁, r) := by
  have hcontext : k₁.blockMode = j.blockMode ∧ k₁.table = j.table := by
    rw [hsame]
    exact ⟨rfl, rfl⟩
  have hrun := runClass_withReader hseam hc
  rw [← hsame] at hrun
  rw [stepL, hk]
  simpa only [hcontext] using hrun

/-- R208: while they run, a step of the one engine is a step of the other. -/
theorem EngineL.Mirrors.step (h : l.Mirrors k) (hr : l.ctl.status = .run) (hs : stepL l = .next (m, r))
    (hw : r = .faulted → m.Whole) : ∃ k', stepL k = .next (k', r) ∧ m.Mirrors k' := by
  suffices ∃ k', stepL k = .next (k', r) ∧ k' = m.withReader k' ∧ k'.seam = true ∧
      (m.ctl.status = .run → ∃ n, m.budget ≤ n ∧ k'.codes.drop k'.ccur = codesRead n m) by
    obtain ⟨k', hk, hsame, hseam, hfeed⟩ := this
    have hrun : k.ctl.status = .run := by rw [h.decoder.1, hr]
    exact ⟨k', hk, h.good.step hr hs, h.goodSeam.step hrun hk, hsame, hseam, hfeed⟩
  obtain ⟨n, hn, hfeed⟩ := h.feed hr
  have hpos := l.budget_pos
  obtain ⟨n, rfl⟩ : ∃ j, n = j + 1 := ⟨n - 1, by omega⟩
  have hbudget := (h.good.2 hr).step_budget hr hs
  rcases hl : l.nextCode with ⟨j, _ | _ | _⟩
  case truncated =>
    rw [stepL_truncated hl] at hs
    cases hs
    exact absurd rfl (hw rfl)
  case exhausted =>
    rw [stepL_exhausted hl] at hs
    cases hs
    rw [codesRead_exhausted hl] at hfeed
    have hk := (seamDeliversTheSuppliedCodes k h.seam).2 (List.drop_eq_nil_iff.mp hfeed)
    have hfinish : k.finish = (j.withReader k).finish := by rw [EngineL.nextCode_withReader hl, ← h.same]
    exact ⟨k.finish, stepL_exhausted hk, hfinish, h.seam, nofun⟩
  case code c =>
    have hclass : runClass j (classify j.blockMode j.table.length c) = .next (m, r) := by rwa [stepL, hl] at hs
    rw [codesRead_code hl hclass] at hfeed
    obtain ⟨hk, hrest⟩ := EngineL.nextCode_of_codesLeft h.seam hfeed
    have hsame : { k with ccur := k.ccur + 1 } = j.withReader { k with ccur := k.ccur + 1 } := by
      rw [EngineL.nextCode_withReader hl]
      exact congrArg (fun e : EngineL => { e with ccur := k.ccur + 1 }) h.same
    refine ⟨_, stepL_withReader hk h.seam hsame hclass, rfl, h.seam, fun hm => ⟨n, ?_, ?_⟩⟩
    · have := hbudget hm
      omega
    · rwa [if_pos (by rw [Control.isRunning, hm]; rfl)] at hrest

/-- R202: so the one's pull runs as the other's does. -/
theorem EngineL.Mirrors.pullRun (run : PullRun stepL l m r) : ∀ {k : EngineL}, l.Mirrors k → l.ctl.status = .run →
    (r = .faulted → m.Whole) → ∃ k', PullRun stepL k k' r ∧ m.Mirrors k' := by
  induction run with
  | last hs hr =>
    intro k h hrun hw
    obtain ⟨k', hk, hm⟩ := h.step hrun hs hw
    exact ⟨k', .last hk hr, hm⟩
  | more hs _ ih =>
    intro k h hrun hw
    obtain ⟨j, hj, hmirrors⟩ := h.step hrun hs nofun
    obtain ⟨k', hk, hm⟩ := ih hmirrors (by rw [stepL_silent_ctl hs, hrun]) hw
    exact ⟨k', .more hj hk, hm⟩

/-- R202, R205, R206: a pull of the one engine, in any status, is a pull of the other. -/
theorem EngineL.Mirrors.pull (h : l.Mirrors k) (hp : pullL l = .next (m, r)) (hw : r = .faulted → m.Whole) :
    ∃ k', pullL k = .next (k', r) ∧ m.Mirrors k' := by
  have hctl := h.decoder.1
  by_cases hr : l.ctl.status = .run
  · have hrun : k.ctl.status = .run := by rw [hctl, hr]
    rw [pullL_run hr] at hp
    obtain ⟨k', hk, hm⟩ := EngineL.Mirrors.pullRun (pullLoop_run _ hp) h hr hw
    obtain ⟨p, r', -, hpull, -⟩ := EngineL.Live.pull (l := k) ⟨h.goodSeam.2 hrun, hrun⟩
    rw [pullL_run hrun] at hpull
    rw [hk.eq_of_loop hpull] at hpull
    exact ⟨k', by rw [pullL_run hrun, hpull], hm⟩
  · rw [pullL] at hp ⊢
    rw [hctl]
    cases hst : l.ctl.status with
    | run => exact absurd hst hr
    | idle | done | fault =>
      rw [hst] at hp
      cases hp
      exact ⟨k, rfl, h⟩

/-- R204: so the one's decode runs as the other's does. -/
theorem EngineL.Mirrors.gatherRun {buf : Bytes} {g : Gathered} (run : GatherRun pullL id buf l m g) :
    ∀ {k : EngineL}, l.Mirrors k → (g = .error → m.Whole) → ∃ k', GatherRun pullL id buf k k' g ∧ m.Mirrors k' := by
  induction run with
  | ended hp =>
    intro k h _
    obtain ⟨k', hk, hm⟩ := h.pull hp nofun
    exact ⟨k', .ended hk, hm⟩
  | faulted hp =>
    intro k h hw
    obtain ⟨k', hk, hm⟩ := h.pull hp fun _ => hw rfl
    exact ⟨k', .faulted hk, hm⟩
  | refused hp =>
    intro k h _
    obtain ⟨k', hk, hm⟩ := h.pull hp nofun
    exact ⟨k', .refused hk, hm⟩
  | more hp _ ih =>
    intro k h hw
    obtain ⟨j, hj, hmirrors⟩ := h.pull hp nofun
    obtain ⟨k', hk, hm⟩ := ih hmirrors hw
    exact ⟨k', .more hj hk, hm⟩

/-- R208: a decode of the one running engine is a decode of the other. -/
theorem EngineL.Mirrors.decodeAll {g : Gathered} (h : l.Mirrors k) (hr : l.ctl.status = .run)
    (hd : decodeAllL l = .next (m, g)) (hw : g = .error → m.Whole) :
    ∃ k', decodeAllL k = .next (k', g) ∧ m.Mirrors k' := by
  have hrun : k.ctl.status = .run := by rw [h.decoder.1, hr]
  obtain ⟨k', hk, hm⟩ := EngineL.Mirrors.gatherRun (gather_run _ hd) h hw
  obtain ⟨e, g', hdecode⟩ := EngineL.Live.decodeAll (l := k) ⟨h.goodSeam.2 hrun, hrun⟩
  rw [hk.eq_of_gather hdecode] at hdecode
  exact ⟨k', hdecode, hm⟩

end

/-- R200, R207: a fresh engine on a payload, and one in the test seam on the codes that the first will read. -/
theorem EngineL.fresh_mirrors (l : EngineL) (blockMode : Bool) {m : Nat} (payload : Bytes)
    (hm : maxCodeLengthLegal m = true) :
    EngineL.Mirrors (l.fresh blockMode m payload false [])
      (l.fresh blockMode m [] true
        (codesRead (l.fresh blockMode m payload false []).budget (l.fresh blockMode m payload false []))) where
  good := startL_of_legal blockMode payload false [] l hm ▸ startL_good blockMode m payload false [] l
  goodSeam := startL_of_legal blockMode [] true _ l hm ▸ startL_good blockMode m [] true _ l
  same := rfl
  seam := rfl
  feed _ := ⟨_, Nat.le_refl _, rfl⟩

/-- Settles O60: with a legal `max_code_length` the two fresh engines decode alike; with any other, both forms of `Start`
leave the same faulted engine. -/
theorem seamEqualsThePackedForm : Obligations.SeamEqualsThePackedForm := by
  intro s t u blockMode m payload ht hu hw
  obtain rfl := Host.Outcome.next.inj ((exec_lStart blockMode m payload s).symm.trans ht)
  by_cases hm : maxCodeLengthLegal m = true
  · rw [startL_of_legal _ _ _ _ _ hm] at hu ⊢
    obtain ⟨l, g, hd⟩ := (s.l.fresh_live blockMode payload false [] hm).decodeAll
    obtain rfl := Host.Outcome.next.inj ((exec_decodeAllL hd).symm.trans hu)
    obtain ⟨k, hk, hmirrors⟩ := (s.l.fresh_mirrors blockMode payload hm).decodeAll rfl hd fun hg herr =>
      hw (by subst hg; exact congrArg Reply.error herr)
    obtain ⟨hctl, hout, htable, hwidth, hlast⟩ := hmirrors.decoder
    exact ⟨_, _, exec_lStartCodes .., exec_decodeAllL (by rw [startL_of_legal _ _ _ _ _ hm]; exact hk),
      congrArg (replyGathered · g) hctl, hctl, hout, htable, hwidth, hlast⟩
  · rw [startL_of_illegal _ _ _ _ _ hm] at hu ⊢
    refine ⟨_, u, exec_lStartCodes .., ?_, rfl, rfl, rfl, rfl, rfl, rfl⟩
    rwa [startL_of_illegal _ _ _ _ _ hm]

end Sys2Proof.Machine
end

section
/-! PROOFS. Hardware reset (spec/70_reset_and_hazards.md R250): both engines end idle without an error, whatever the state
before. An idle engine has no instance, so the invariant asks nothing else of it. -/

namespace Sys2Proof.Machine

/-- R45, R250: idle without an error is a legal status of either engine. -/
theorem Control.reset_ok (e : Engine) : Control.reset.Ok e := by simp [Control.Ok, Control.reset]

/-- R250: hardware reset of any state, also of one that does not meet the invariant, leaves a state that does. -/
theorem State.hardReset_inv (s : State) : s.hardReset.Inv :=
  State.inv_of_notBuilding ⟨Control.reset_ok .l, nofun⟩ ⟨Control.reset_ok .h, nofun⟩ (.of_no_task s.hardReset_task)

/-- R250: hardware reset does nothing to the state after power-on. -/
theorem State.hardReset_reset : State.reset.hardReset = State.reset := rfl

/-- Settles O56: the reset state is what hardware reset makes of it, and each engine's status and error are written by the
reset alone. -/
theorem resetMeetsTheInvariant : Obligations.ResetMeetsTheInvariant := by
  have hinv : State.reset.Inv := State.hardReset_reset ▸ State.hardReset_inv State.reset
  exact ⟨hinv, Memory.wf_reset, rfl, rfl, fun _ => ⟨rfl, rfl⟩⟩

end Sys2Proof.Machine
end

section
/-! PROOFS. Where the instructions that an engine decodes stop by name (notes/assumptions/5.md): the refusals of a state in
which the instruction has no meaning, and the faults of a state that no run reaches (spec/10_state.md R24, R34). -/

namespace Sys2Proof.Machine

/-! ### An engine that is not running (R132, R182, R225) -/

theorem Control.isRunning_of_stopped {c : Control} (h : c.status ≠ .run) : c.isRunning = false := by
  simp [Control.isRunning, h]

theorem State.runL_stopped {s : State} (h : s.l.ctl.status ≠ .run) (f : EngineL → Work EngineL Bytes) :
    s.runL f = .refused .engineNotRunning := by
  simp [State.runL, Control.isRunning_of_stopped h]

theorem State.runH_stopped {s : State} (h : s.h.ctl.status ≠ .run) (f : EngineH → Work EngineH Byte) :
    s.runH f = .refused .engineNotRunning := by
  simp [State.runH, Control.isRunning_of_stopped h]

theorem exec_code_stopped (cls : CodeClass) {s : State} (h : s.l.ctl.status ≠ .run) :
    exec cls.instr s = .refused .engineNotRunning := by
  cases cls with
  | clr => exact State.runL_stopped h clrStep
  | kwk _ => exact State.runL_stopped h kwkStep
  | lit b => exact State.runL_stopped h (litStep b)
  | ref c => exact State.runL_stopped h (refStep c)
  | bad _ => exact State.runL_stopped h badStep

theorem exec_bit_stopped (bit : Bool) {s : State} (h : s.h.ctl.status ≠ .run) :
    exec (decodeBit bit) s = .refused .engineNotRunning := by
  cases bit with
  | false => exact State.runH_stopped h (bitStep false)
  | true => exact State.runH_stopped h (bitStep true)

/-! ### A table entry that cannot be read, a chunk without a first byte (R55, R149) -/

theorem refStep_outside {l : EngineL} {i : Nat} (h : l.table.length ≤ i) : refStep i l = .refused .noSuchEntry := by
  rw [refStep, EngineL.tableRead, List.getElem?_eq_none h]

/-- U5: the sentinel is never read. -/
theorem refStep_of_reserved {l : EngineL} {i : Nat} (h : l.table[i]? = some .reserved) :
    refStep i l = .refused .reservedEntry := by
  rw [refStep, EngineL.tableRead, h]

theorem kwkStep_of_emptyChunk {l : EngineL} (h : l.lastChunk = some []) : kwkStep l = .fault .emptyChunk := by
  rw [kwkStep, h]
  rfl

/-! ### A traversal not at an internal node (R182), a slot with no open node (R166) -/

theorem bitStep_of_not_internal {h : EngineH} (hn : h.node.isInternal = false) (bit : Bool) :
    bitStep bit h = .fault .nodeNotInternal := by
  unfold bitStep
  cases hc : h.node with
  | node lt rt => simp [hc, Tree.isInternal] at hn
  | leaf b | eof => rfl

theorem State.runSlot_noOpenNode {s : State} (h : s.h.builder.stack = []) (k : Slot) :
    s.runSlot k = .refused .noOpenNode := by
  rw [State.runSlot, h]

/-- Settles O30: each instruction as a code class, a bit or a slot, which stops the machine as it stops its engine. -/
theorem instructionsStopByNameOutsideTheirPreconditions :
    Obligations.InstructionsStopByNameOutsideTheirPreconditions := by
  refine fun s => ⟨fun i hi hr => ?_, fun hr i => ⟨fun hle => ?_, fun ht => ?_, fun ht => ?_, fun hl => ?_⟩,
    fun i hi => ?_, fun i hi hs => ?_⟩
  · obtain ⟨cls, rfl⟩ := isCode_instr hi
    exact exec_code_stopped cls hr
  · exact (exec_code_run (.ref i) hr).trans (congrArg s.answerL (refStep_outside hle))
  · exact (exec_code_run (.ref i) hr).trans (congrArg s.answerL (refStep_of_reserved ht))
  · exact (exec_code_run (.ref i) hr).trans (congrArg s.answerL (refStep_of_entry ht))
  · exact (exec_code_run (.kwk i) hr).trans (congrArg s.answerL (kwkStep_of_emptyChunk hl))
  · obtain ⟨bit, rfl⟩ : ∃ bit, i = decodeBit bit := hi.elim (⟨false, ·⟩) (⟨true, ·⟩)
    exact ⟨exec_bit_stopped bit, fun hr hn =>
      (exec_bit_run bit hr).trans (congrArg s.answerH (bitStep_of_not_internal hn bit))⟩
  · obtain ⟨k, rfl⟩ : ∃ k, i = decodeSlot k := by
      rcases hi with rfl | ⟨b, rfl⟩ | rfl
      · exact ⟨.placeholder, rfl⟩
      · exact ⟨.leaf b, rfl⟩
      · exact ⟨.eof, rfl⟩
    exact (exec_slot k s).trans (State.runSlot_noOpenNode hs k)

end Sys2Proof.Machine
end
